-- ==== Sys2Proof/Word.lean ====
section
/-! DEFINITION. The bit widths of the block: bytes, words and hex digits (00_scope R11, 10_state R26). -/

namespace Sys2Proof

/-- A byte: an 8-bit value 0..255 (R11). -/
abbrev Byte := BitVec 8

/-- A word: a 16-bit value 0..65535 (R11). -/
abbrev Word := BitVec 16

/-- The value of one hex digit, as the ASCII receiver holds it (R26). -/
abbrev Nibble := BitVec 4

end Sys2Proof
end

