-- ==== Sys2Proof/Syntax.lean ====
section
/-! DEFINITION. The requests of the block: one constructor for each row of spec/opcode_table.json
(30_encoding R76, R79). An instruction holds the operand fields of its PDU; the address and the TCP
transaction context are no part of the PDU and stand in the state while a request is dispatched. -/

namespace Sys2Proof

/-- A sub-request header of RD_FILE: refType, fileNo, recordNo, recordLen (R250, R252). -/
structure ReadSub where
  refType : Byte
  fileNo : Word
  recordNo : Word
  recordLen : Word
  deriving DecidableEq, Repr

/-- A sub-request of WR_FILE (R251). The recordLen field is the number of words of data. -/
structure WriteSub where
  refType : Byte
  fileNo : Word
  recordNo : Word
  data : List Word
  deriving DecidableEq, Repr

/-- The requests (R79). A byteCount or dataLen field is the length of the list that follows it. -/
inductive Instr where
  /-- 0x01 Read Coils (R200). -/
  | rdCoils (start count : Word)
  /-- 0x02 Read Discrete Inputs (R201). -/
  | rdDiscretes (start count : Word)
  /-- 0x03 Read Holding Registers (R225). -/
  | rdHolding (start count : Word)
  /-- 0x04 Read Input Registers (R226). -/
  | rdInput (start count : Word)
  /-- 0x05 Write Single Coil (R202). -/
  | wrCoil (start value : Word)
  /-- 0x06 Write Single Register (R227). -/
  | wrReg (start value : Word)
  /-- 0x07 Read Exception Status (R275). -/
  | rdExcStatus
  /-- 0x0F Write Multiple Coils (R203): the packed value bytes. -/
  | wrCoils (start count : Word) (values : List Byte)
  /-- 0x10 Write Multiple Registers (R228). -/
  | wrRegs (start count : Word) (values : List Word)
  /-- 0x11 Report Slave ID (R276). -/
  | reportSlaveId
  /-- 0x14 Read File Record (R250). -/
  | rdFile (subs : List ReadSub)
  /-- 0x15 Write File Record (R251). -/
  | wrFile (subs : List WriteSub)
  /-- 0x2B with MEI type 0x0E, Read Device Identification (R277). -/
  | rdDevId (objectId : Byte)
  deriving DecidableEq, Repr

/-- The pseudo-request COIL_ON (R83). -/
def Instr.coilOn (start : Word) : Instr := .wrCoil start 0xFF00

/-- The pseudo-request COIL_OFF (R83). -/
def Instr.coilOff (start : Word) : Instr := .wrCoil start 0x0000

end Sys2Proof
end

