-- ==== Sys2Proof/WellFormed.lean ====
section
/-! DEFINITION. Which instructions have a PDU: those whose PDU is no longer than PDU_MAX = 253 bytes
(30_encoding R74, R76). A value that a function answers with an exception is no matter of form. -/

namespace Sys2Proof

/-- The bytes a WR_FILE sub-request takes: a 7-byte header and two bytes a word (R76). -/
def WriteSub.size (s : WriteSub) : Nat := 7 + 2 * s.data.length

/-- The length of an instruction's PDU, function code included (R76). -/
def Instr.pduLength : Instr → Nat
  | .rdCoils _ _ => 5
  | .rdDiscretes _ _ => 5
  | .rdHolding _ _ => 5
  | .rdInput _ _ => 5
  | .wrCoil _ _ => 5
  | .wrReg _ _ => 5
  | .rdExcStatus => 1
  | .wrCoils _ _ values => 6 + values.length
  | .wrRegs _ _ values => 6 + 2 * values.length
  | .reportSlaveId => 1
  | .rdFile subs => 2 + 7 * subs.length
  | .wrFile subs => 2 + (subs.map WriteSub.size).sum
  | .rdDevId _ => 3

/-- The instruction fits a PDU (R74), so that every count of it fits its field. -/
def Instr.wellFormed (i : Instr) : Bool := decide (i.pduLength ≤ 253)

end Sys2Proof
end

