-- ==== Sys2Proof/Decode.lean ====
section
/-! DEFINITION. The decoder of request PDUs, total on any bytes, and the encoder beside it
(30_encoding R74 to R81). The decoder checks the function code, the MEI type and the shape of the
payload; a value of a well-shaped payload is checked by the function's meaning (log entry 13). -/

namespace Sys2Proof

/-! ### Byte order -/

/-- The word of two bytes, most significant first (R12, R54). -/
def be16 (hi lo : Byte) : Word := hi ++ lo

/-- The bytes of a word, most significant first: BE16 (R12). -/
def toBE16 (w : Word) : List Byte := [w.extractLsb' 8 8, w.extractLsb' 0 8]

/-- The bytes of a word, least significant first: LE16 (R12). -/
def toLE16 (w : Word) : List Byte := [w.extractLsb' 0 8, w.extractLsb' 8 8]

/-- A length in a one-byte count field (R75). -/
def countByte (n : Nat) : Byte := BitVec.ofNat 8 n

/-- The bytes of a list of words, each as BE16 (R230). -/
def wordsToBytes (ws : List Word) : List Byte := ws.flatMap toBE16

/-- The words of a list of bytes; none for an odd number of bytes. -/
def bytesToWords : List Byte → Option (List Word)
  | [] => some []
  | [_] => none
  | hi :: lo :: rest => (bytesToWords rest).map (be16 hi lo :: ·)

/-! ### Decoder -/

/-- Why a PDU is no instruction, with its function code. -/
inductive DecodeError where
  /-- No byte at all; every codec guarantees a function code (R175). -/
  | noFunctionCode
  /-- The function code, or the MEI type of 0x2B, is not supported: exception 1 (R80, R181). -/
  | illegalFunction (fc : Byte)
  /-- The payload does not fit the function's layout: exception 3 (R182). -/
  | illegalDataValue (fc : Byte)
  deriving DecidableEq, Repr

/-- A payload of exactly two words (R76: FC 1 to 6). -/
def decodeTwoWords (fc : Byte) (mk : Word → Word → Instr) : List Byte → Except DecodeError Instr
  | [a, b, c, d] => .ok (mk (be16 a b) (be16 c d))
  | _ => .error (.illegalDataValue fc)

/-- An empty payload (R76: FC 7, FC 17). -/
def decodeEmpty (fc : Byte) (i : Instr) : List Byte → Except DecodeError Instr
  | [] => .ok i
  | _ => .error (.illegalDataValue fc)

/-- start, count, byteCount and exactly byteCount bytes (R203). -/
def decodeWrCoils (fc : Byte) : List Byte → Except DecodeError Instr
  | a :: b :: c :: d :: bc :: values =>
    if values.length = bc.toNat then .ok (.wrCoils (be16 a b) (be16 c d) values)
    else .error (.illegalDataValue fc)
  | _ => .error (.illegalDataValue fc)

/-- start, count, byteCount and exactly byteCount bytes, an even number (R228). -/
def decodeWrRegs (fc : Byte) : List Byte → Except DecodeError Instr
  | a :: b :: c :: d :: bc :: values =>
    if values.length = bc.toNat then
      match bytesToWords values with
      | some ws => .ok (.wrRegs (be16 a b) (be16 c d) ws)
      | none => .error (.illegalDataValue fc)
    else .error (.illegalDataValue fc)
  | _ => .error (.illegalDataValue fc)

/-- Sub-requests of 7 bytes each (R250, R252). -/
def decodeReadSubs : List Byte → Option (List ReadSub)
  | [] => some []
  | rt :: f1 :: f0 :: r1 :: r0 :: l1 :: l0 :: rest =>
    (decodeReadSubs rest).map (⟨rt, be16 f1 f0, be16 r1 r0, be16 l1 l0⟩ :: ·)
  | _ => none

/-- byteCount, then exactly byteCount bytes of sub-requests (R250). -/
def decodeRdFile (fc : Byte) : List Byte → Except DecodeError Instr
  | bc :: rest =>
    if rest.length = bc.toNat then
      match decodeReadSubs rest with
      | some subs => .ok (.rdFile subs)
      | none => .error (.illegalDataValue fc)
    else .error (.illegalDataValue fc)
  | [] => .error (.illegalDataValue fc)

/-- `n` words and the bytes after them; none where the bytes run out (R251). -/
def takeWords : Nat → List Byte → Option (List Word × List Byte)
  | 0, rest => some ([], rest)
  | n + 1, hi :: lo :: rest => (takeWords n rest).map fun (ws, r) => (be16 hi lo :: ws, r)
  | _ + 1, _ => none

/-- Sub-requests in sequence, each a 7-byte header and recordLen words (R251). `fuel` bounds their
number; the number of bytes is enough. -/
def decodeWriteSubs : Nat → List Byte → Option (List WriteSub)
  | _, [] => some []
  | fuel + 1, rt :: f1 :: f0 :: r1 :: r0 :: l1 :: l0 :: rest =>
    match takeWords (be16 l1 l0).toNat rest with
    | some (ws, after) =>
      (decodeWriteSubs fuel after).map (⟨rt, be16 f1 f0, be16 r1 r0, ws⟩ :: ·)
    | none => none
  | _, _ => none

/-- dataLen, then exactly dataLen bytes of sub-requests (R251). -/
def decodeWrFile (fc : Byte) : List Byte → Except DecodeError Instr
  | dl :: rest =>
    if rest.length = dl.toNat then
      match decodeWriteSubs rest.length rest with
      | some subs => .ok (.wrFile subs)
      | none => .error (.illegalDataValue fc)
    else .error (.illegalDataValue fc)
  | [] => .error (.illegalDataValue fc)

/-- MEI type 0x0E and an objectId, in the order of checks of R277. -/
def decodeDevId (fc : Byte) : List Byte → Except DecodeError Instr
  | [] => .error (.illegalDataValue fc)
  | mei :: rest =>
    if mei = 0x0E then
      match rest with
      | [id] => .ok (.rdDevId id)
      | _ => .error (.illegalDataValue fc)
    else .error (.illegalFunction fc)

/-- The function-code map (R79). -/
def decodePayload (fc : Byte) (p : List Byte) : Except DecodeError Instr :=
  if fc = 0x01 then decodeTwoWords fc .rdCoils p
  else if fc = 0x02 then decodeTwoWords fc .rdDiscretes p
  else if fc = 0x03 then decodeTwoWords fc .rdHolding p
  else if fc = 0x04 then decodeTwoWords fc .rdInput p
  else if fc = 0x05 then decodeTwoWords fc .wrCoil p
  else if fc = 0x06 then decodeTwoWords fc .wrReg p
  else if fc = 0x07 then decodeEmpty fc .rdExcStatus p
  else if fc = 0x0F then decodeWrCoils fc p
  else if fc = 0x10 then decodeWrRegs fc p
  else if fc = 0x11 then decodeEmpty fc .reportSlaveId p
  else if fc = 0x14 then decodeRdFile fc p
  else if fc = 0x15 then decodeWrFile fc p
  else if fc = 0x2B then decodeDevId fc p
  else .error (.illegalFunction fc)

/-- The decoder of a request PDU (R79, R80). -/
def decode : List Byte → Except DecodeError Instr
  | [] => .error .noFunctionCode
  | fc :: p => decodePayload fc p

/-! ### Encoder -/

/-- The 7 bytes of an RD_FILE sub-request (R252). -/
def encodeReadSub (s : ReadSub) : List Byte :=
  s.refType :: (toBE16 s.fileNo ++ toBE16 s.recordNo ++ toBE16 s.recordLen)

/-- The bytes of a WR_FILE sub-request (R251). -/
def encodeWriteSub (s : WriteSub) : List Byte :=
  s.refType :: (toBE16 s.fileNo ++ toBE16 s.recordNo ++ toBE16 (BitVec.ofNat 16 s.data.length)
    ++ wordsToBytes s.data)

/-- The function code of an instruction (R79). -/
def functionCode : Instr → Byte
  | .rdCoils _ _ => 0x01
  | .rdDiscretes _ _ => 0x02
  | .rdHolding _ _ => 0x03
  | .rdInput _ _ => 0x04
  | .wrCoil _ _ => 0x05
  | .wrReg _ _ => 0x06
  | .rdExcStatus => 0x07
  | .wrCoils _ _ _ => 0x0F
  | .wrRegs _ _ _ => 0x10
  | .reportSlaveId => 0x11
  | .rdFile _ => 0x14
  | .wrFile _ => 0x15
  | .rdDevId _ => 0x2B

/-- The payload of an instruction (R76). -/
def encodePayload : Instr → List Byte
  | .rdCoils w n => toBE16 w ++ toBE16 n
  | .rdDiscretes w n => toBE16 w ++ toBE16 n
  | .rdHolding w n => toBE16 w ++ toBE16 n
  | .rdInput w n => toBE16 w ++ toBE16 n
  | .wrCoil w v => toBE16 w ++ toBE16 v
  | .wrReg w v => toBE16 w ++ toBE16 v
  | .rdExcStatus => []
  | .wrCoils w n values => toBE16 w ++ toBE16 n ++ countByte values.length :: values
  | .wrRegs w n values =>
    toBE16 w ++ toBE16 n ++ countByte (2 * values.length) :: wordsToBytes values
  | .reportSlaveId => []
  | .rdFile subs => countByte (7 * subs.length) :: subs.flatMap encodeReadSub
  | .wrFile subs => countByte (subs.map WriteSub.size).sum :: subs.flatMap encodeWriteSub
  | .rdDevId id => [0x0E, id]

/-- The PDU of an instruction (R74). -/
def encode (i : Instr) : List Byte := functionCode i :: encodePayload i

/-! ### The opcode table's numbering -/

/-- The `n` bytes of a number, most significant first: the table writes RD_DEVID's two fixed bytes
2B 0E as the number 0x2B0E (log entry 12). -/
def bytesOfNat : Nat → Nat → List Byte
  | 0, _ => []
  | n + 1, w => bytesOfNat n (w / 256) ++ [BitVec.ofNat 8 w]

/-- The PDU length of a function whose operands, counts included, are all 0 (R76). -/
def shortestPdu (fc : Byte) : Nat :=
  if fc = 0x07 ∨ fc = 0x11 then 1
  else if fc = 0x0F ∨ fc = 0x10 then 6
  else if fc = 0x14 ∨ fc = 0x15 then 2
  else if fc = 0x2B then 3
  else 5

/-- The PDU whose first `nbits` bits are the number `w` and whose other bits are 0. -/
def tablePdu (nbits w : Nat) : List Byte :=
  let bytes := bytesOfNat (nbits / 8) w
  bytes ++ List.replicate (shortestPdu (bytes.headD 0) - bytes.length) 0

/-- The instruction the decoder reads from a word of spec/opcode_table.json. -/
def decodeTableWord (nbits w : Nat) : Option Instr := (decode (tablePdu nbits w)).toOption

end Sys2Proof
end

