-- ==== Sys2Proof/Config.lean ====
section
/-! DEFINITION. The parameters of the block (00_scope R9), fixed for the life of a model's machine
(10_state R24), and the two free values the spec leaves open (93_implementation_defined part 1, rows 10 and 12). -/

namespace Sys2Proof

/-- The transport, selected once (R8). -/
inductive Transport where
  | rtu | ascii | tcp
  deriving DecidableEq, Repr

/-- The configuration registers (R24). The fields are the parameters of R9 under the same names. -/
structure Config where
  transport : Transport
  /-- COIL_CAP, 1..2000. -/
  coilCap : Nat
  /-- REG_CAP, 1..65536. -/
  regCap : Nat
  sharedSpaces : Bool
  /-- START_REF_BIAS, 0 or 1. -/
  startRefBias : BitVec 1
  /-- FILE_SET. -/
  fileSet : List Word
  serialAcceptReserved : Bool
  /-- REGISTERED: bit a is set when address a has a table. -/
  registered : BitVec 256
  /-- EXC_STATUS(a), for the addresses listed; log entry 2 for the others. -/
  excStatus : List (Byte × Byte)
  /-- SLAVE_ID(a), for the addresses listed; log entry 2 for the others. -/
  slaveId : List (Byte × List Byte)
  /-- DEVID(a, id), a partial map: defined where (a, id) is listed. -/
  devId : List ((Byte × Byte) × List Byte)
  storageMayFail : Bool
  /-- MAX_SESSIONS; none is unbounded. -/
  maxSessions : Option Nat
  deriving DecidableEq, Repr

/-- The defaults of R9. DESIGN CHOICE (log entries 1 and 2) where R9 says "argument": RTU, table 1
alone registered, no identification data. -/
def Config.default : Config where
  transport := .rtu
  coilCap := 2000
  regCap := 65536
  sharedSpaces := true
  startRefBias := 1
  fileSet := [3, 4]
  serialAcceptReserved := false
  registered := 2
  excStatus := []
  slaveId := []
  devId := []
  storageMayFail := false
  maxSessions := none

/-- PDU_MAX (R9). -/
def pduMax : Nat := 253
/-- RTU_ADU_MAX (R9). -/
def rtuAduMax : Nat := 256
/-- ASCII_BODY_MAX (R9). -/
def asciiBodyMax : Nat := 510
/-- TCP_LEN_MIN (R9). -/
def tcpLenMin : Nat := 2
/-- TCP_LEN_MAX (R9). -/
def tcpLenMax : Nat := 254
/-- QMAX_RBITS (R9). -/
def qmaxRBits : Nat := 2000
/-- QMAX_RREGS (R9). -/
def qmaxRRegs : Nat := 125
/-- QMAX_WBITS (R9). -/
def qmaxWBits : Nat := 1968
/-- QMAX_WREGS (R9). -/
def qmaxWRegs : Nat := 123

/-- FREE VALUE (log entry 5): whether the storage operation performed at a given draw answers
DEVICE_FAILURE, where STORAGE_MAY_FAIL is true (R50). -/
opaque Config.storageFails : Nat → Bool

/-- FREE VALUE (log entry 4): which of the moves that are possible at a given draw is made (R61, R307). -/
opaque Config.schedule : Nat → Nat

end Sys2Proof
end

