-- ==== Sys2Proof/Machine/State.lean ====
section
/-! DEFINITION. The state of the block (10_state R20), its events and outputs, the faults and refusals
of a step, and the state after reset (70_reset_and_hazards R331). -/

namespace Sys2Proof.Machine

/-! ### Agents, events and outputs -/

/-- A port agent: the serial one, or the TCP session of an identifier (R7, R319). -/
inductive Agent where
  | serial
  | session (k : Nat)
  deriving DecidableEq, Repr

/-- The events of the environment (R16, 42_tcp_framer). The first four are those of a serial port, the
others those of a TCP block. -/
inductive Event where
  | rxByte (b : Byte)
  | t15
  | t35
  | actTimeout
  | accept
  | sessRxByte (k : Nat) (b : Byte)
  | sessActTimeout (k : Nat)
  | idleTimeout (k : Nat)
  | peerClose (k : Nat)
  deriving DecidableEq, Repr

/-- The reasons of the Drop output (R303, R305). -/
inductive DropReason where
  | rtuCrc | rtuShort | rtuOverflow | rtuIntercharGap
  | asciiNonhex | asciiOdd | asciiShort | asciiLrc | asciiNoLf | asciiOverflow | asciiRestart
  | tcpProtocolId | tcpLength
  | partialTimeout | addrReserved | addrUnregistered | broadcast
  deriving DecidableEq, Repr

/-- The values of the Status port (R30, R312). -/
inductive Status where
  | none
  | timeout
  deriving DecidableEq, Repr

/-- What a port agent emits (R30), with the agent that emits it. -/
inductive Output where
  /-- Bytes on the transmit port, in wire order. -/
  | tx (a : Agent) (bytes : List Byte)
  /-- Status(TIMEOUT); a step that emits no status has Status NONE. -/
  | status (a : Agent) (s : Status)
  /-- A TCP session is closed; `none` is a connection closed at once with no session (R151; log entry 16). -/
  | close (k : Option Nat)
  /-- The diagnostic output of R305. -/
  | drop (a : Agent) (reason : DropReason)
  deriving DecidableEq, Repr

/-! ### The storage port -/

/-- The bit spaces (R46). -/
inductive BitSpace where
  | coils | discretes
  deriving DecidableEq, Repr

/-- The word spaces (R46). -/
inductive WordSpace where
  | holding | input
  deriving DecidableEq, Repr

/-- MemRead and MemWrite of R14 and R49, at the two element widths (R55), on table `t` at offset `off`. -/
inductive StorageOp where
  | readBits (t : Byte) (space : BitSpace) (off n : Nat)
  | writeBits (t : Byte) (space : BitSpace) (off : Nat) (vs : List Bool)
  | readWords (t : Byte) (space : WordSpace) (off n : Nat)
  | writeWords (t : Byte) (space : WordSpace) (off : Nat) (vs : List Word)
  deriving DecidableEq, Repr

/-- What an operation that answers OK returns (R49). -/
inductive OpResult where
  | bits (vs : List Bool)
  | words (vs : List Word)
  | written
  deriving DecidableEq, Repr

/-! ### The execution register -/

/-- The response builder of R32, as data (log entry 7): which response is built from the results. -/
inductive Finish where
  /-- `[fc, ceil(n/8)] ++ pack(rd(0))` (R200). -/
  | bits (fc : Byte) (n : Nat)
  /-- `[fc, 2 * n]` and the words of rd(0) (R225). -/
  | regs (fc : Byte) (n : Nat)
  /-- A response that no result enters (R202, R203, R227, R228, R251, R275 to R277). -/
  | fixed (pdu : List Byte)
  /-- `[0x14, respLen]` and a part for each sub-request, of the lengths given (R250). -/
  | files (lens : List Nat)
  deriving DecidableEq, Repr

/-- The TCP transaction context (R32, R159). -/
structure TcpCtx where
  transactionId : Word
  unitId : Byte
  deriving DecidableEq, Repr

/-- A non-empty execution register (R32). `finish` is none for a request whose response is suppressed. -/
structure Xq where
  addr : Byte
  fc : Byte
  ctx : Option TcpCtx
  ops : List StorageOp
  done : List OpResult
  finish : Option Finish
  deriving DecidableEq, Repr

/-! ### Receivers -/

/-- The control state of the RTU receiver (R25). -/
inductive RtuSt where
  | idle | recv | gap
  deriving DecidableEq, Repr

/-- The RTU receiver (R25). -/
structure RtuRx where
  st : RtuSt
  buf : List Byte
  ovf : Bool
  deriving DecidableEq, Repr

/-- The control state of the ASCII receiver (R26). -/
inductive AscSt where
  | hunt | body | cr
  deriving DecidableEq, Repr

/-- The ASCII receiver (R26). -/
structure AscRx where
  st : AscSt
  hex : List Nibble
  deriving DecidableEq, Repr

/-- An open TCP session (R27, R32). -/
structure Session where
  buf : List Byte
  xq : Option Xq
  deriving DecidableEq, Repr

/-- What a codec hands to the dispatcher besides the PDU (R175). -/
structure Request where
  agent : Agent
  addr : Byte
  ctx : Option TcpCtx
  deriving DecidableEq, Repr

/-- Memory: cells at rising addresses, none of them 0, which is what an unlisted address reads as (R48). -/
abbrev Memory := List Host.Cell

/-! ### The state -/

/-- The state of a model of the block (R20), and after it the model's own fields. The receivers of the
transports that `cfg.transport` does not name stay at their reset values. -/
structure State where
  /-- The configuration registers (R24). -/
  cfg : Config
  /-- The RTU receiver (R25). -/
  rtu : RtuRx
  /-- The ASCII receiver (R26). -/
  asc : AscRx
  /-- The open TCP sessions by identifier, rising (R27). -/
  sess : List (Nat × Session)
  /-- The identifier of the next session (R27, R331). -/
  nextSess : Nat
  /-- The execution register of the serial port agent; none is empty (R32). -/
  xq : Option Xq
  /-- The storage of every registered address (R45, R46; log entry 6). -/
  mem : Memory
  /-- The outputs handed to the environment since reset, oldest first (R30; log entry 9). -/
  out : List Output
  /-- The Status port's value of the latest step (R312). -/
  status : Status
  /-- The environment's events not yet consumed, in order (R31; log entry 3). -/
  inq : List Event
  /-- The request in the dispatcher, only within a step (R175; log entry 8). -/
  req : Option Request
  /-- The draw of the free values (log entries 4 and 5). -/
  draws : Nat
  deriving DecidableEq, Repr

/-! ### How a step can stop -/

/-- The model's faults. Each marks a state that no run from reset reaches, so that each is safe
(log entry 10). -/
inductive Fault where
  /-- Raised by performing a storage operation outside its table's capacity or on an address with no
  table; the validator issues none (R45, R52; 93 part 1 row 19). Safe. -/
  | storageOutOfRange
  /-- Raised by an execution step of an agent whose execution register holds no operation (R184). Safe. -/
  | noOperation
  /-- Raised by a meaning when no request is in the dispatcher (R175). Safe. -/
  | noRequest
  /-- Raised by a request whose PDU is empty; every codec gives at least a function code (R175). Safe. -/
  | emptyPdu
  deriving DecidableEq, Repr

/-- The refusals: where the spec says that no step exists. -/
inductive Refusal where
  /-- Raised by exec for an instruction that has no meaning yet. Safe. -/
  | notModelled (mnemonic : String)
  /-- Raised by a step of a machine with a parameter outside its legal values (R313). Safe. -/
  | illegalConfiguration
  /-- Raised by an event that cannot occur on the transport (R108, R137, R161). Safe. -/
  | eventNotOnTransport
  /-- Raised by an event that names an absent session (R161). Safe. -/
  | absentSession
  deriving DecidableEq, Repr

/-! ### Parts of a step -/

/-- The exception codes (R300). -/
inductive ExcCode where
  | illegalFunction | illegalDataAddress | illegalDataValue | slaveDeviceFailure
  deriving DecidableEq, Repr

/-- What a function's plan is (R180). -/
inductive Plan where
  | reject (code : ExcCode)
  | exec (ops : List StorageOp) (finish : Finish)
  deriving DecidableEq, Repr

/-- What the agents can do next: perform a storage operation, or consume an event, which leaves the
events `rest` waiting. -/
inductive Move where
  | perform (a : Agent)
  | consume (e : Event) (rest : List Event)
  deriving DecidableEq, Repr

/-- What consuming an event comes to: no frame is complete; a frame is complete; no step exists. -/
inductive Received where
  | quiet (s : State)
  | frame (r : Request) (pdu : List Byte) (s : State)
  | refused (r : Refusal)
  deriving DecidableEq, Repr

/-- What the part of a step before decoding comes to: the step has its outcome, or a request's PDU is
to be decoded and executed. -/
inductive Fetched where
  | settled (o : Host.Outcome State Fault Refusal)
  | request (pdu : List Byte) (s : State)
  deriving Repr

/-! ### Reset -/

/-- The creation of a machine from its configuration: every element as R331 says. -/
def State.boot (cfg : Config) : State where
  cfg := cfg
  rtu := ⟨.idle, [], false⟩
  asc := ⟨.hunt, []⟩
  sess := []
  nextSess := 0
  xq := none
  mem := []
  out := []
  status := .none
  inq := []
  req := none
  draws := 0

/-- The machine right after reset, with the default configuration (R9, R331; log entries 1 and 2). -/
def State.reset : State := State.boot Config.default

end Sys2Proof.Machine
end

