-- ==== Sys2Proof/Machine/Frames.lean ====
section
/-! DEFINITION. Checksums, hex characters, and the encoders and frame checks of the three ADU formats
(30_encoding R71 to R73; 40_rtu_codec R105, R110 to R113; 41_ascii_codec R128, R131, R133 to R135;
42_tcp_framer R150, R159). -/

namespace Sys2Proof.Machine

/-! ### RTU -/

/-- One bit of the CRC (R110). -/
def crcBit (c : Word) : Word := if c.getLsbD 0 then (c >>> 1) ^^^ 0xA001 else c >>> 1

/-- `n` bits of the CRC. -/
def crcBits : Nat → Word → Word
  | 0, c => c
  | n + 1, c => crcBits n (crcBit c)

/-- One byte of the CRC (R110). -/
def crcByte (c : Word) (b : Byte) : Word := crcBits 8 (c ^^^ b.setWidth 16)

/-- `crc16` (R110). -/
def crc16 (s : List Byte) : Word := s.foldl crcByte 0xFFFF

/-- An address and a PDU with their CRC, low byte first (R111, R113). -/
def rtuEncode (addr : Byte) (pdu : List Byte) : List Byte :=
  addr :: pdu ++ toLE16 (crc16 (addr :: pdu))

/-- The frame check of RTU: overflow, then length, then CRC (R105). -/
def rtuDecode (f : List Byte) (lost : Bool) : Except DropReason (Byte × List Byte) :=
  if lost then .error .rtuOverflow
  else if f.length < 4 then .error .rtuShort
  else
    let body := f.take (f.length - 2)
    if f.drop (f.length - 2) ≠ toLE16 (crc16 body) then .error .rtuCrc
    else match body with
      | addr :: pdu => .ok (addr, pdu)
      | [] => .error .rtuShort

/-! ### ASCII -/

/-- The character `:` (R72). -/
def charColon : Byte := 0x3A
/-- The character CR (R72). -/
def charCR : Byte := 0x0D
/-- The character LF (R72). -/
def charLF : Byte := 0x0A

/-- The value of a hex character, of either case; none for any other byte (R128). -/
def hexVal (c : Byte) : Option Nibble :=
  if 0x30 ≤ c.toNat ∧ c.toNat ≤ 0x39 then some (BitVec.ofNat 4 (c.toNat - 0x30))
  else if 0x41 ≤ c.toNat ∧ c.toNat ≤ 0x46 then some (BitVec.ofNat 4 (c.toNat - 0x41 + 10))
  else if 0x61 ≤ c.toNat ∧ c.toNat ≤ 0x66 then some (BitVec.ofNat 4 (c.toNat - 0x61 + 10))
  else none

/-- The upper-case hex character of a digit (R133). -/
def hexChr (v : Nibble) : Byte :=
  if v.toNat < 10 then BitVec.ofNat 8 (0x30 + v.toNat) else BitVec.ofNat 8 (0x41 + v.toNat - 10)

/-- The two digits of a byte, high nibble first (R133). -/
def hexDigits (b : Byte) : List Nibble := [b.extractLsb' 4 4, b.extractLsb' 0 4]

/-- The hex characters of a byte string (R133). -/
def hexStr (s : List Byte) : List Byte := (s.flatMap hexDigits).map hexChr

/-- The bytes of a digit sequence, high nibble first (R131); a last digit without its pair has no byte. -/
def hexBytes : List Nibble → List Byte
  | hi :: lo :: rest => (hi ++ lo : Byte) :: hexBytes rest
  | _ => []

/-- The LRC: the two's complement of the sum of the bytes, modulo 256 (R134). -/
def lrc (s : List Byte) : Byte := -(s.foldl (· + ·) 0)

/-- An address and a PDU with their LRC, in hex between `:` and CR LF (R135). -/
def asciiEncode (addr : Byte) (pdu : List Byte) : List Byte :=
  charColon :: hexStr (addr :: pdu ++ [lrc (addr :: pdu)]) ++ [charCR, charLF]

/-- The frame check of ASCII: odd count, then length, then LRC (R131). -/
def asciiDecode (h : List Nibble) : Except DropReason (Byte × List Byte) :=
  if h.length % 2 = 1 then .error .asciiOdd
  else if h.length < 6 then .error .asciiShort
  else
    let bytes := hexBytes h
    let body := bytes.take (bytes.length - 1)
    if bytes.drop (bytes.length - 1) ≠ [lrc body] then .error .asciiLrc
    else match body with
      | addr :: pdu => .ok (addr, pdu)
      | [] => .error .asciiShort

/-! ### TCP -/

/-- A response PDU with its MBAP header (R73, R159). -/
def tcpEncode (ctx : TcpCtx) (pdu : List Byte) : List Byte :=
  toBE16 ctx.transactionId ++ [0x00, 0x00] ++ toBE16 (BitVec.ofNat 16 (1 + pdu.length))
    ++ ctx.unitId :: pdu

/-- The word at an offset of a buffer (R12). -/
def wordAt (u : List Byte) (i : Nat) : Word := be16 (u.getD i 0) (u.getD (i + 1) 0)

/-- What the framer makes of the bytes a session holds (R153). -/
inductive TcpFrame where
  | incomplete
  | corrupted (reason : DropReason)
  | complete (ctx : TcpCtx) (pdu : List Byte)
  deriving DecidableEq, Repr

/-- Frame extraction: the header checks come before the wait for the body (R153). -/
def tcpExtract (u : List Byte) : TcpFrame :=
  if u.length < 6 then .incomplete
  else if wordAt u 2 ≠ 0 then .corrupted .tcpProtocolId
  else
    let l := (wordAt u 4).toNat
    if l < tcpLenMin ∨ tcpLenMax < l then .corrupted .tcpLength
    else if u.length < 6 + l then .incomplete
    else .complete ⟨wordAt u 0, u.getD 6 0⟩ ((u.drop 7).take (l - 1))

/-! ### Any transport -/

/-- The ADU of a response PDU to a request (R183). On TCP a request has a context; for one without, the
header carries transactionId 0 and the request's address (log entry 10). -/
def adu (transport : Transport) (r : Request) (pdu : List Byte) : List Byte :=
  match transport with
  | .rtu => rtuEncode r.addr pdu
  | .ascii => asciiEncode r.addr pdu
  | .tcp => tcpEncode (r.ctx.getD ⟨0, r.addr⟩) pdu

end Sys2Proof.Machine
end

