-- ==== Sys2Proof/Machine/Memory.lean ====
section
/-! DEFINITION. The storage behind the storage port (20_memory R45 to R49): cells of one byte, the
places of the elements of the four spaces, MemRead and MemWrite. -/

namespace Sys2Proof.Machine

/-! ### Cells -/

/-- What a cell that is not listed reads as (R48). -/
def unlisted : Byte := 0

/-- The byte at an address. -/
def memGet : Memory → Nat → Byte
  | [], _ => unlisted
  | (k, v) :: m, a => if a = k then v else memGet m a

/-- Writes one byte, keeping the canonical form. -/
def memSet : Memory → Nat → Byte → Memory
  | [], a, v => if v = unlisted then [] else [(a, v)]
  | (k, x) :: m, a, v =>
    if a < k then (if v = unlisted then (k, x) :: m else (a, v) :: (k, x) :: m)
    else if a = k then (if v = unlisted then m else (a, v) :: m)
    else (k, x) :: memSet m a v

/-- Writes bytes at consecutive addresses. -/
def memSetBytes : Memory → Nat → List Byte → Memory
  | m, _, [] => m
  | m, a, b :: bs => memSetBytes (memSet m a b) (a + 1) bs

/-- Every listed address is at least `lo`, addresses rise, and no listed byte is the unlisted one. -/
def memWfFrom : Nat → Memory → Bool
  | _, [] => true
  | lo, (k, v) :: m => decide (lo ≤ k) && decide (v ≠ unlisted) && memWfFrom (k + 1) m

/-- The canonical form of a memory. -/
def Memory.wf (m : Memory) : Bool := memWfFrom 0 m

/-! ### Places of the elements (log entry 6) -/

/-- The first cell of a table. -/
def tableBase (t : Byte) : Nat := t.toNat * 0x80000

/-- The first cell of a bit space in its table; the two are one array when shared (R47). -/
def bitBase (cfg : Config) : BitSpace → Nat
  | .coils => 0
  | .discretes => if cfg.sharedSpaces then 0 else 0x10000

/-- The first cell of a word space in its table; the two are one array when shared (R47). -/
def wordBase (cfg : Config) : WordSpace → Nat
  | .holding => 0x20000
  | .input => if cfg.sharedSpaces then 0x20000 else 0x40000

/-- The cell of a bit element. -/
def bitAddr (cfg : Config) (t : Byte) (space : BitSpace) (off : Nat) : Nat :=
  tableBase t + bitBase cfg space + off

/-- The first of the two cells of a word element. -/
def wordAddr (cfg : Config) (t : Byte) (space : WordSpace) (off : Nat) : Nat :=
  tableBase t + wordBase cfg space + 2 * off

/-- The capacity of a bit space (R46). -/
def bitCap (cfg : Config) : BitSpace → Nat
  | .coils => cfg.coilCap
  | .discretes => cfg.coilCap

/-- The capacity of a word space (R46). -/
def wordCap (cfg : Config) : WordSpace → Nat
  | .holding => cfg.regCap
  | .input => cfg.regCap

/-! ### Elements -/

/-- The cell of a bit element that holds `v`. -/
def bitCell (v : Bool) : Byte := if v then 1 else 0

/-- The bit element at an offset. -/
def readBit (cfg : Config) (m : Memory) (t : Byte) (space : BitSpace) (off : Nat) : Bool :=
  (memGet m (bitAddr cfg t space off)).getLsbD 0

/-- The word element at an offset. -/
def readWord (cfg : Config) (m : Memory) (t : Byte) (space : WordSpace) (off : Nat) : Word :=
  be16 (memGet m (wordAddr cfg t space off)) (memGet m (wordAddr cfg t space off + 1))

/-- The `n` bit elements from an offset on. -/
def readBits (cfg : Config) (m : Memory) (t : Byte) (space : BitSpace) (off n : Nat) : List Bool :=
  (List.range n).map fun i => readBit cfg m t space (off + i)

/-- The `n` word elements from an offset on. -/
def readWords (cfg : Config) (m : Memory) (t : Byte) (space : WordSpace) (off n : Nat) : List Word :=
  (List.range n).map fun i => readWord cfg m t space (off + i)

/-- Sets bit elements from an offset on. -/
def writeBits (cfg : Config) (m : Memory) (t : Byte) (space : BitSpace) (off : Nat)
    (vs : List Bool) : Memory :=
  memSetBytes m (bitAddr cfg t space off) (vs.map bitCell)

/-- Sets word elements from an offset on. -/
def writeWords (cfg : Config) (m : Memory) (t : Byte) (space : WordSpace) (off : Nat)
    (vs : List Word) : Memory :=
  memSetBytes m (wordAddr cfg t space off) (wordsToBytes vs)

/-! ### The storage port -/

/-- Storage exists for the registered addresses only (R45). -/
def isRegistered (cfg : Config) (t : Byte) : Bool := cfg.registered.getLsbD t.toNat

/-- The operation is on an existing table and inside the capacity of its space (R14, R45). -/
def opInRange (cfg : Config) : StorageOp → Bool
  | .readBits t space off n => isRegistered cfg t && decide (off + n ≤ bitCap cfg space)
  | .writeBits t space off vs => isRegistered cfg t && decide (off + vs.length ≤ bitCap cfg space)
  | .readWords t space off n => isRegistered cfg t && decide (off + n ≤ wordCap cfg space)
  | .writeWords t space off vs => isRegistered cfg t && decide (off + vs.length ≤ wordCap cfg space)

/-- The effect of an operation that answers OK: its result and the storage after it (R49). -/
def performOp (cfg : Config) (m : Memory) : StorageOp → OpResult × Memory
  | .readBits t space off n => (.bits (readBits cfg m t space off n), m)
  | .writeBits t space off vs => (.written, writeBits cfg m t space off vs)
  | .readWords t space off n => (.words (readWords cfg m t space off n), m)
  | .writeWords t space off vs => (.written, writeWords cfg m t space off vs)

end Sys2Proof.Machine
end

