-- ==== Sys2Proof/Machine/Operands.lean ====
section
/-! DEFINITION. What the plans of the functions share: references and the range validator (20_memory
R51, R52), bit packing (44_bit_access R205, R206), the identification data (R275 to R278), the plans of
the shared shapes (R200, R225), and the response builders (R32, R77). -/

namespace Sys2Proof.Machine

/-! ### Codes -/

/-- The code byte of an exception (R300). -/
def excByte : ExcCode → Byte
  | .illegalFunction => 1
  | .illegalDataAddress => 2
  | .illegalDataValue => 3
  | .slaveDeviceFailure => 4

/-- The exception PDU (R78, R186). -/
def excPdu (fc : Byte) (code : ExcCode) : List Byte := [fc ||| 0x80, excByte code]

/-! ### References and ranges -/

/-- `ref(w)`, the 1-based reference of a wire field (R51, R188). -/
def startRef (cfg : Config) (w : Word) : Nat := w.toNat + cfg.startRefBias.toNat

/-- The storage offset of a wire field (R51). -/
def offset (cfg : Config) (w : Word) : Nat := startRef cfg w - 1

/-- The range validator, on naturals (R10, R52). -/
def rangeOK (cap ref count : Nat) : Bool := decide (1 ≤ ref) && decide (ref - 1 + count ≤ cap)

/-! ### Bits -/

/-- `ceil(n/8)`. -/
def bytesOfBits (n : Nat) : Nat := (n + 7) / 8

/-- Byte `j` of packed bits: bit `k` is element `8j + k`, 0 past the last one (R205). -/
def packByte (b : List Bool) (j : Nat) : Byte :=
  BitVec.ofNat 8 ((List.range 8).map fun k => if b.getD (8 * j + k) false then 2 ^ k else 0).sum

/-- `pack` (R205). -/
def pack (b : List Bool) : List Byte := (List.range (bytesOfBits b.length)).map (packByte b)

/-- `unpack` (R206). -/
def unpack (y : List Byte) (n : Nat) : List Bool :=
  (List.range n).map fun i => (y.getD (i / 8) 0).getLsbD (i % 8)

/-! ### Identification data -/

/-- EXC_STATUS(t) (R275); 0 for an address the configuration does not list (log entry 2). -/
def excStatusOf (cfg : Config) (t : Byte) : Byte := (cfg.excStatus.lookup t).getD 0

/-- SLAVE_ID(t) (R276); empty for an address the configuration does not list (log entry 2). -/
def slaveIdOf (cfg : Config) (t : Byte) : List Byte := (cfg.slaveId.lookup t).getD []

/-- DEVID(t, id) if defined, else no bytes (R277, R279). -/
def devIdOf (cfg : Config) (t id : Byte) : List Byte := (cfg.devId.lookup (t, id)).getD []

/-! ### Response builders -/

/-- The bits an operation returned. -/
def OpResult.toBits : OpResult → List Bool
  | .bits vs => vs
  | .words _ => []
  | .written => []

/-- The words an operation returned. -/
def OpResult.toWords : OpResult → List Word
  | .bits _ => []
  | .words vs => vs
  | .written => []

/-- `rd(i)`, the result of the i-th operation (R188). -/
def rd (results : List OpResult) (i : Nat) : OpResult := results.getD i .written

/-- The response bytes of FC 20 for the sub-requests of the lengths given, the first of them being
number `j` of the request (R250). -/
def fileParts (results : List OpResult) : Nat → List Nat → List Byte
  | _, [] => []
  | j, l :: ls =>
    countByte (1 + 2 * l) :: 0x06 :: wordsToBytes (rd results j).toWords ++ fileParts results (j + 1) ls

/-- respLen of FC 20 (R250). -/
def fileRespLen (lens : List Nat) : Nat := (lens.map fun l => 2 + 2 * l).sum

/-- The response PDU that a builder makes of the results (R32, R185). -/
def buildResponse (results : List OpResult) : Finish → List Byte
  | .bits fc n => fc :: countByte (bytesOfBits n) :: pack (rd results 0).toBits
  | .regs fc n => fc :: countByte (2 * n) :: wordsToBytes (rd results 0).toWords
  | .fixed pdu => pdu
  | .files lens => 0x14 :: countByte (fileRespLen lens) :: fileParts results 0 lens

/-! ### Plans of a shared shape -/

/-- planRdBits (R200), shared by FC 1 and FC 2; the payload's length is checked by the decoder. -/
def planRdBits (cfg : Config) (t : Byte) (space : BitSpace) (fc : Byte) (w n : Word) : Plan :=
  if n.toNat < 1 ∨ qmaxRBits < n.toNat then .reject .illegalDataValue
  else if !rangeOK (bitCap cfg space) (startRef cfg w) n.toNat then .reject .illegalDataAddress
  else .exec [.readBits t space (offset cfg w) n.toNat] (.bits fc n.toNat)

/-- planRdRegs (R225), shared by FC 3 and FC 4; the payload's length is checked by the decoder. -/
def planRdRegs (cfg : Config) (t : Byte) (space : WordSpace) (fc : Byte) (w n : Word) : Plan :=
  if n.toNat < 1 ∨ qmaxRRegs < n.toNat then .reject .illegalDataValue
  else if !rangeOK (wordCap cfg space) (startRef cfg w) n.toNat then .reject .illegalDataAddress
  else .exec [.readWords t space (offset cfg w) n.toNat] (.regs fc n.toNat)

end Sys2Proof.Machine
end

