-- ==== Sys2Proof/Machine/Ops.lean ====
section
/-! DEFINITION. The named operations of the block over its state: outputs, sessions, execution registers,
the address filter, raising an exception, loading a request (43_dispatch R183) and performing a storage
operation (R184, R185). The block has no flags (10_state R23), so there is no flag computation. -/

namespace Sys2Proof.Machine

/-! ### Outputs -/

/-- Emits an output (R15, R30). -/
def State.emit (s : State) (o : Output) : State := { s with out := s.out ++ [o] }

/-- Emits Status(TIMEOUT) (R312). -/
def State.emitTimeout (s : State) (a : Agent) : State :=
  { s with out := s.out ++ [.status a .timeout], status := .timeout }

/-! ### Sessions and execution registers -/

/-- The open session of an identifier (R27). -/
def State.session (s : State) (k : Nat) : Option Session := s.sess.lookup k

/-- Changes the session of an identifier. -/
def updateSession (k : Nat) (f : Session → Session) (l : List (Nat × Session)) :
    List (Nat × Session) :=
  l.map fun p => if p.1 = k then (p.1, f p.2) else p

/-- Sets the buffer of a session. -/
def State.setBuf (s : State) (k : Nat) (buf : List Byte) : State :=
  { s with sess := updateSession k (fun x => { x with buf := buf }) s.sess }

/-- Makes a session absent, its buffer and execution register with it (R155, R157, R158). -/
def State.removeSession (s : State) (k : Nat) : State :=
  { s with sess := s.sess.filter fun p => decide (p.1 ≠ k) }

/-- The execution register of an agent (R32). -/
def State.xqOf (s : State) : Agent → Option Xq
  | .serial => s.xq
  | .session k => (s.session k).bind Session.xq

/-- Sets the execution register of an agent. -/
def State.setXq (s : State) (a : Agent) (x : Option Xq) : State :=
  match a with
  | .serial => { s with xq := x }
  | .session k => { s with sess := updateSession k (fun y => { y with xq := x }) s.sess }

/-! ### Configuration -/

/-- Every parameter has a legal value (R9, R24, R313). -/
def configLegal (cfg : Config) : Bool :=
  decide (1 ≤ cfg.coilCap ∧ cfg.coilCap ≤ 2000) && decide (1 ≤ cfg.regCap ∧ cfg.regCap ≤ 65536)
    && cfg.slaveId.all (fun e => decide (e.2.length ≤ 251))
    && cfg.devId.all (fun e => decide (e.1.2.toNat ≤ 6 ∨ 128 ≤ e.1.2.toNat) && decide (e.2.length ≤ 250))

/-- addDataTable at startup: an idempotent upsert into REGISTERED (R24, R333). -/
def addDataTable (cfg : Config) (a : Byte) : Config :=
  { cfg with registered := cfg.registered ||| BitVec.twoPow 256 a.toNat }

/-- The environment delivers events, behind those that wait (R16, R31). -/
def State.deliver (s : State) (es : List Event) : State := { s with inq := s.inq ++ es }

/-! ### The address filter -/

/-- The targets of a broadcast: every registered address, ascending (R178). -/
def broadcastTargets (cfg : Config) : List Byte :=
  ((List.range 256).map (BitVec.ofNat 8)).filter (isRegistered cfg)

/-- Why a request is not for this slave; none for a request that is (R177, R178). -/
def addressFilter (cfg : Config) (addr : Byte) : Option DropReason :=
  if addr = 0 then none
  else if cfg.transport ≠ .tcp ∧ 248 ≤ addr.toNat ∧ cfg.serialAcceptReserved = false then
    some .addrReserved
  else if isRegistered cfg addr then none
  else some .addrUnregistered

/-! ### Answers and exceptions -/

/-- Ends a request: the response is transmitted, or, where it is suppressed, Drop(BROADCAST) is emitted
(R179, R183, R185). -/
def answer (r : Request) (pdu : Option (List Byte)) (s : State) : State :=
  match pdu with
  | some bytes => s.emit (.tx r.agent (adu s.cfg.transport r bytes))
  | none => s.emit (.drop r.agent .broadcast)

/-- Takes a protocol exception: the exception response, unless it is suppressed (R186). Nothing is saved
and nothing else changes (R302, R308); nothing is restored afterwards, and there is no instruction that
returns from an exception (R309). -/
def raiseException (r : Request) (fc : Byte) (code : ExcCode) (suppressed : Bool) (s : State) : State :=
  answer r (if suppressed then none else some (excPdu fc code)) s

/-! ### Loading a request -/

/-- The operations of a plan; a rejected target gets none (R179, R183). -/
def planOps : Plan → List StorageOp
  | .reject _ => []
  | .exec ops _ => ops

/-- A unicast request (R183). -/
def loadUnicast (r : Request) (fc : Byte) (p : Plan) (s : State) : State :=
  match p with
  | .reject code => raiseException r fc code false s
  | .exec [] finish => answer r (some (buildResponse [] finish)) s
  | .exec (op :: ops) finish =>
    s.setXq r.agent (some ⟨r.addr, fc, r.ctx, op :: ops, [], some finish⟩)

/-- A broadcast request, with the operations of all its targets (R183). -/
def loadBroadcast (r : Request) (fc : Byte) (ops : List StorageOp) (s : State) : State :=
  match ops with
  | [] => answer r none s
  | op :: rest => s.setXq r.agent (some ⟨0, fc, r.ctx, op :: rest, [], none⟩)

/-- Executes a request with function code `fc` whose plan for a target table is `plan`: what every
function's meaning is (R176, R183). -/
def execRequest (fc : Byte) (plan : Byte → Plan) (s : State) :
    Host.Outcome State Fault Refusal :=
  match s.req with
  | none => .fault .noRequest
  | some r =>
    let s := { s with req := none }
    if r.addr = 0 then
      .next (loadBroadcast r fc ((broadcastTargets s.cfg).flatMap fun t => planOps (plan t)) s)
    else .next (loadUnicast r fc (plan r.addr) s)

/-- A PDU that is no instruction is rejected for every target (R80, R181, R182). -/
def rejectRequest (e : DecodeError) (s : State) : Host.Outcome State Fault Refusal :=
  match e with
  | .noFunctionCode => .fault .emptyPdu
  | .illegalFunction fc => execRequest fc (fun _ => .reject .illegalFunction) s
  | .illegalDataValue fc => execRequest fc (fun _ => .reject .illegalDataValue) s

/-! ### Performing a storage operation -/

/-- The answer of the storage to the operation at hand is DEVICE_FAILURE (R50; log entry 5). -/
def deviceFails (s : State) : Bool := s.cfg.storageMayFail && Config.storageFails s.draws

/-- After an operation that answered OK: the request goes on, or is complete (R184, R185). -/
def afterOp (a : Agent) (x : Xq) (res : OpResult) (rest : List StorageOp) (s : State) : State :=
  match rest with
  | [] => (answer ⟨a, x.addr, x.ctx⟩ (x.finish.map (buildResponse (x.done ++ [res]))) s).setXq a none
  | op :: ops => s.setXq a (some { x with ops := op :: ops, done := x.done ++ [res] })

/-- An agent's execution step: its first operation, in one atomic step (R58, R184). -/
def executeStep (a : Agent) (s : State) : Host.Outcome State Fault Refusal :=
  match s.xqOf a with
  | none => .fault .noOperation
  | some x =>
    match x.ops with
    | [] => .fault .noOperation
    | op :: rest =>
      if !opInRange s.cfg op then .fault .storageOutOfRange
      else if deviceFails s then
        .next ((raiseException ⟨a, x.addr, x.ctx⟩ x.fc .slaveDeviceFailure x.finish.isNone s).setXq a none)
      else
        let p := performOp s.cfg s.mem op
        .next (afterOp a x p.1 rest { s with mem := p.2 })

end Sys2Proof.Machine
end

