-- ==== Sys2Proof/Machine/BitAccess.lean ====
section
/-! DEFINITION. Bit access: RD_COILS, RD_DISCRETES, WR_COIL, WR_COILS (44_bit_access R200 to R203). -/

namespace Sys2Proof.Machine

/-- RD_COILS (R200). -/
def execRdCoils (start count : Word) (s : State) : Host.Outcome State Fault Refusal :=
  execRequest 0x01 (fun t => planRdBits s.cfg t .coils 0x01 start count) s

/-- RD_DISCRETES (R201). -/
def execRdDiscretes (start count : Word) (s : State) : Host.Outcome State Fault Refusal :=
  execRequest 0x02 (fun t => planRdBits s.cfg t .discretes 0x02 start count) s

/-- planWrCoil (R202): 0xFF00 writes 1, 0x0000 writes 0, any other value is rejected; the response is the
request. -/
def planWrCoil (cfg : Config) (t : Byte) (w v : Word) : Plan :=
  if v ≠ 0xFF00 ∧ v ≠ 0x0000 then .reject .illegalDataValue
  else if !rangeOK (bitCap cfg .coils) (startRef cfg w) 1 then .reject .illegalDataAddress
  else .exec [.writeBits t .coils (offset cfg w) [decide (v = 0xFF00)]]
    (.fixed (0x05 :: toBE16 w ++ toBE16 v))

/-- WR_COIL (R202). -/
def execWrCoil (start value : Word) (s : State) : Host.Outcome State Fault Refusal :=
  execRequest 0x05 (fun t => planWrCoil s.cfg t start value) s

/-- planWrCoils (R203); the byte count is the number of value bytes, which the decoder has checked
against the payload's length. The response echoes start and count. -/
def planWrCoils (cfg : Config) (t : Byte) (w n : Word) (values : List Byte) : Plan :=
  if n.toNat < 1 ∨ qmaxWBits < n.toNat then .reject .illegalDataValue
  else if values.length ≠ bytesOfBits n.toNat then .reject .illegalDataValue
  else if !rangeOK (bitCap cfg .coils) (startRef cfg w) n.toNat then .reject .illegalDataAddress
  else .exec [.writeBits t .coils (offset cfg w) (unpack values n.toNat)]
    (.fixed (0x0F :: toBE16 w ++ toBE16 n))

/-- WR_COILS (R203). -/
def execWrCoils (start count : Word) (values : List Byte) (s : State) :
    Host.Outcome State Fault Refusal :=
  execRequest 0x0F (fun t => planWrCoils s.cfg t start count values) s

end Sys2Proof.Machine
end

