-- ==== Sys2Proof/Machine/FileRecord.lean ====
section
/-! DEFINITION. File record access: RD_FILE, WR_FILE (46_file_record R250, R251, R253). -/

namespace Sys2Proof.Machine

/-- The class-3 check of one RD_FILE sub-request (R250). -/
def readSubValid (cfg : Config) (s : ReadSub) : Bool :=
  decide (s.refType = 6) && decide (s.fileNo ∈ cfg.fileSet) && decide (1 ≤ s.recordLen.toNat)

/-- The range check of one RD_FILE sub-request (R250, R253). -/
def readSubInRange (cfg : Config) (s : ReadSub) : Bool :=
  rangeOK (wordCap cfg .holding) (startRef cfg s.recordNo) s.recordLen.toNat

/-- planRdFile (R250): every class-3 check comes before every range check. -/
def planRdFile (cfg : Config) (t : Byte) (subs : List ReadSub) : Plan :=
  if 7 * subs.length < 7 then .reject .illegalDataValue
  else if !subs.all (readSubValid cfg) then .reject .illegalDataValue
  else if pduMax < 2 + fileRespLen (subs.map fun s => s.recordLen.toNat) then .reject .illegalDataValue
  else if !subs.all (readSubInRange cfg) then .reject .illegalDataAddress
  else .exec (subs.map fun s => .readWords t .holding (offset cfg s.recordNo) s.recordLen.toNat)
    (.files (subs.map fun s => s.recordLen.toNat))

/-- RD_FILE (R250). -/
def execRdFile (subs : List ReadSub) (s : State) : Host.Outcome State Fault Refusal :=
  execRequest 0x14 (fun t => planRdFile s.cfg t subs) s

/-- The class-3 check of one WR_FILE sub-request (R251). -/
def writeSubValid (cfg : Config) (s : WriteSub) : Bool :=
  decide (1 ≤ s.data.length) && decide (s.refType = 6) && decide (s.fileNo ∈ cfg.fileSet)

/-- The range check of one WR_FILE sub-request (R251, R253). -/
def writeSubInRange (cfg : Config) (s : WriteSub) : Bool :=
  rangeOK (wordCap cfg .holding) (startRef cfg s.recordNo) s.data.length

/-- planWrFile (R251): every class-3 check comes before every range check; the response is the request. -/
def planWrFile (cfg : Config) (t : Byte) (subs : List WriteSub) : Plan :=
  if (subs.map WriteSub.size).sum < 9 then .reject .illegalDataValue
  else if !subs.all (writeSubValid cfg) then .reject .illegalDataValue
  else if !subs.all (writeSubInRange cfg) then .reject .illegalDataAddress
  else .exec (subs.map fun s => .writeWords t .holding (offset cfg s.recordNo) s.data)
    (.fixed (encode (.wrFile subs)))

/-- WR_FILE (R251). -/
def execWrFile (subs : List WriteSub) (s : State) : Host.Outcome State Fault Refusal :=
  execRequest 0x15 (fun t => planWrFile s.cfg t subs) s

end Sys2Proof.Machine
end

