-- ==== Sys2Proof/Machine/Identification.lean ====
section
/-! DEFINITION. Status and identification: RD_EXC_STATUS, REPORT_SLAVE_ID, RD_DEVID
(47_identification R275 to R277). None touches the storage port. -/

namespace Sys2Proof.Machine

/-- planExcStatus (R275). -/
def planExcStatus (cfg : Config) (t : Byte) : Plan := .exec [] (.fixed [0x07, excStatusOf cfg t])

/-- RD_EXC_STATUS (R275). -/
def execRdExcStatus (s : State) : Host.Outcome State Fault Refusal :=
  execRequest 0x07 (planExcStatus s.cfg) s

/-- planSlaveId (R276). -/
def planSlaveId (cfg : Config) (t : Byte) : Plan :=
  .exec [] (.fixed (0x11 :: countByte (slaveIdOf cfg t).length :: slaveIdOf cfg t))

/-- REPORT_SLAVE_ID (R276). -/
def execReportSlaveId (s : State) : Host.Outcome State Fault Refusal :=
  execRequest 0x11 (planSlaveId s.cfg) s

/-- planDevId (R277): an unknown object has length 0 (R279). -/
def planDevId (cfg : Config) (t id : Byte) : Plan :=
  .exec [] (.fixed (0x2B :: id :: countByte (devIdOf cfg t id).length :: devIdOf cfg t id))

/-- RD_DEVID (R277). -/
def execRdDevId (id : Byte) (s : State) : Host.Outcome State Fault Refusal :=
  execRequest 0x2B (fun t => planDevId s.cfg t id) s

end Sys2Proof.Machine
end

