-- ==== Sys2Proof/Machine/RegisterAccess.lean ====
section
/-! DEFINITION. Register access: RD_HOLDING, RD_INPUT, WR_REG, WR_REGS (45_register_access R225 to R228). -/

namespace Sys2Proof.Machine

/-- RD_HOLDING (R225). -/
def execRdHolding (start count : Word) (s : State) : Host.Outcome State Fault Refusal :=
  execRequest 0x03 (fun t => planRdRegs s.cfg t .holding 0x03 start count) s

/-- RD_INPUT (R226). -/
def execRdInput (start count : Word) (s : State) : Host.Outcome State Fault Refusal :=
  execRequest 0x04 (fun t => planRdRegs s.cfg t .input 0x04 start count) s

/-- planWrReg (R227): every value is legal; the response is the request. -/
def planWrReg (cfg : Config) (t : Byte) (w v : Word) : Plan :=
  if !rangeOK (wordCap cfg .holding) (startRef cfg w) 1 then .reject .illegalDataAddress
  else .exec [.writeWords t .holding (offset cfg w) [v]] (.fixed (0x06 :: toBE16 w ++ toBE16 v))

/-- WR_REG (R227). -/
def execWrReg (start value : Word) (s : State) : Host.Outcome State Fault Refusal :=
  execRequest 0x06 (fun t => planWrReg s.cfg t start value) s

/-- planWrRegs (R228); the byte count is twice the number of words, which the decoder has checked
against the payload's length. The response echoes start and count. -/
def planWrRegs (cfg : Config) (t : Byte) (w n : Word) (values : List Word) : Plan :=
  if n.toNat < 1 ∨ qmaxWRegs < n.toNat then .reject .illegalDataValue
  else if 2 * values.length ≠ 2 * n.toNat then .reject .illegalDataValue
  else if !rangeOK (wordCap cfg .holding) (startRef cfg w) n.toNat then .reject .illegalDataAddress
  else .exec [.writeWords t .holding (offset cfg w) values]
    (.fixed (0x10 :: toBE16 w ++ toBE16 n))

/-- WR_REGS (R228). -/
def execWrRegs (start count : Word) (values : List Word) (s : State) :
    Host.Outcome State Fault Refusal :=
  execRequest 0x10 (fun t => planWrRegs s.cfg t start count values) s

end Sys2Proof.Machine
end

