-- ==== Sys2Proof/Machine/Dispatch.lean ====
section
/-! DEFINITION. exec: one arm for each instruction, each a direct call of its meaning (43_dispatch R180). -/

namespace Sys2Proof.Machine

def exec (i : Instr) (s : State) : Host.Outcome State Fault Refusal :=
  match i with
  | .rdCoils start count => Sys2Proof.Machine.execRdCoils start count s
  | .rdDiscretes start count => Sys2Proof.Machine.execRdDiscretes start count s
  | .rdHolding start count => Sys2Proof.Machine.execRdHolding start count s
  | .rdInput start count => Sys2Proof.Machine.execRdInput start count s
  | .wrCoil start value => Sys2Proof.Machine.execWrCoil start value s
  | .wrReg start value => Sys2Proof.Machine.execWrReg start value s
  | .rdExcStatus => Sys2Proof.Machine.execRdExcStatus s
  | .wrCoils start count values => Sys2Proof.Machine.execWrCoils start count values s
  | .wrRegs start count values => Sys2Proof.Machine.execWrRegs start count values s
  | .reportSlaveId => Sys2Proof.Machine.execReportSlaveId s
  | .rdFile subs => Sys2Proof.Machine.execRdFile subs s
  | .wrFile subs => Sys2Proof.Machine.execWrFile subs s
  | .rdDevId objectId => Sys2Proof.Machine.execRdDevId objectId s

end Sys2Proof.Machine
end

