-- ==== Sys2Proof/Machine/Ascii.lean ====
section
/-! DEFINITION. The ASCII receiver (41_ascii_codec R125 to R132, R136 to R138). Its rules apply when the
execution register is empty; Fetch.lean sees to that. -/

namespace Sys2Proof.Machine

/-- Sets the ASCII receiver. -/
def State.setAsc (s : State) (rx : AscRx) : State := { s with asc := rx }

/-- The receiver waiting for `:` (R26). -/
def ascHunt : AscRx := ⟨.hunt, []⟩

/-- The receiver right after `:` (R125). -/
def ascStart : AscRx := ⟨.body, []⟩

/-- Drops the frame in progress; the receiver becomes `rx` (R126, R127, R129). -/
def ascDrop (reason : DropReason) (rx : AscRx) (s : State) : Received :=
  .quiet ((s.emit (.drop .serial reason)).setAsc rx)

/-- RxByte in BODY (R126, R127). -/
def ascBodyByte (c : Byte) (s : State) : Received :=
  match hexVal c with
  | some v =>
    if s.asc.hex.length < asciiBodyMax then .quiet (s.setAsc ⟨.body, s.asc.hex ++ [v]⟩)
    else ascDrop .asciiOverflow ascHunt s
  | none =>
    if c = charColon then ascDrop .asciiRestart ascStart s
    else if c = charCR then .quiet (s.setAsc ⟨.cr, s.asc.hex⟩)
    else ascDrop .asciiNonhex ascHunt s

/-- The end of a frame: the receiver hunts, and the frame is dropped or handed to the dispatcher
(R130, R131, R136). -/
def ascFrameEnd (s : State) : Received :=
  match asciiDecode s.asc.hex with
  | .error reason => .quiet ((s.setAsc ascHunt).emit (.drop .serial reason))
  | .ok (addr, pdu) => .frame ⟨.serial, addr, none⟩ pdu (s.setAsc ascHunt)

/-- RxByte (R125 to R130). -/
def ascRxByte (c : Byte) (s : State) : Received :=
  match s.asc.st with
  | .hunt => if c = charColon then .quiet (s.setAsc ascStart) else .quiet s
  | .body => ascBodyByte c s
  | .cr =>
    if c = charLF then ascFrameEnd s
    else ascDrop .asciiNoLf (if c = charColon then ascStart else ascHunt) s

/-- ActTimeout (R132). -/
def ascActTimeout (s : State) : Received :=
  match s.asc.st with
  | .hunt => .quiet ((s.setAsc ascHunt).emitTimeout .serial)
  | .body => .quiet (((s.emit (.drop .serial .partialTimeout)).setAsc ascHunt).emitTimeout .serial)
  | .cr => .quiet (((s.emit (.drop .serial .partialTimeout)).setAsc ascHunt).emitTimeout .serial)

/-- The events of an ASCII port: silences change nothing, TCP events have no step (R137, R138). -/
def ascReceive (e : Event) (s : State) : Received :=
  match e with
  | .rxByte c => ascRxByte c s
  | .t15 => .quiet s
  | .t35 => .quiet s
  | .actTimeout => ascActTimeout s
  | .accept => .refused .eventNotOnTransport
  | .sessRxByte _ _ => .refused .eventNotOnTransport
  | .sessActTimeout _ => .refused .eventNotOnTransport
  | .idleTimeout _ => .refused .eventNotOnTransport
  | .peerClose _ => .refused .eventNotOnTransport

end Sys2Proof.Machine
end

