-- ==== Sys2Proof/Machine/Rtu.lean ====
section
/-! DEFINITION. The RTU receiver (40_rtu_codec R100 to R109). Its rules apply when the execution register
is empty; Fetch.lean sees to that. -/

namespace Sys2Proof.Machine

/-- Sets the RTU receiver. -/
def State.setRtu (s : State) (rx : RtuRx) : State := { s with rtu := rx }

/-- The receiver with no frame in progress (R25). -/
def rtuIdle : RtuRx := ⟨.idle, [], false⟩

/-- RxByte (R100, R101, R102). -/
def rtuRxByte (b : Byte) (s : State) : Received :=
  match s.rtu.st with
  | .idle => .quiet (s.setRtu ⟨.recv, [b], false⟩)
  | .recv =>
    if s.rtu.buf.length < rtuAduMax then
      .quiet (s.setRtu ⟨.recv, s.rtu.buf ++ [b], s.rtu.ovf⟩)
    else .quiet (s.setRtu ⟨.recv, s.rtu.buf, true⟩)
  | .gap => .quiet ((s.emit (.drop .serial .rtuIntercharGap)).setRtu ⟨.recv, [b], false⟩)

/-- T15 (R103). -/
def rtuT15 (s : State) : Received :=
  match s.rtu.st with
  | .idle => .quiet s
  | .recv => .quiet (s.setRtu { s.rtu with st := .gap })
  | .gap => .quiet s

/-- The end of a frame: the receiver is IDLE, and the frame is dropped or handed to the dispatcher
(R104, R105, R106). -/
def rtuFrameEnd (s : State) : Received :=
  match rtuDecode s.rtu.buf s.rtu.ovf with
  | .error reason => .quiet ((s.setRtu rtuIdle).emit (.drop .serial reason))
  | .ok (addr, pdu) => .frame ⟨.serial, addr, none⟩ pdu (s.setRtu rtuIdle)

/-- T35 (R104). -/
def rtuT35 (s : State) : Received :=
  match s.rtu.st with
  | .idle => .quiet s
  | .recv => rtuFrameEnd s
  | .gap => rtuFrameEnd s

/-- ActTimeout (R107). -/
def rtuActTimeout (s : State) : Received :=
  match s.rtu.st with
  | .idle => .quiet ((s.setRtu rtuIdle).emitTimeout .serial)
  | .recv => .quiet (((s.emit (.drop .serial .partialTimeout)).setRtu rtuIdle).emitTimeout .serial)
  | .gap => .quiet (((s.emit (.drop .serial .partialTimeout)).setRtu rtuIdle).emitTimeout .serial)

/-- The events of an RTU port; the others have no step (R108, R109). -/
def rtuReceive (e : Event) (s : State) : Received :=
  match e with
  | .rxByte b => rtuRxByte b s
  | .t15 => rtuT15 s
  | .t35 => rtuT35 s
  | .actTimeout => rtuActTimeout s
  | .accept => .refused .eventNotOnTransport
  | .sessRxByte _ _ => .refused .eventNotOnTransport
  | .sessActTimeout _ => .refused .eventNotOnTransport
  | .idleTimeout _ => .refused .eventNotOnTransport
  | .peerClose _ => .refused .eventNotOnTransport

end Sys2Proof.Machine
end

