-- ==== Sys2Proof/Machine/Tcp.lean ====
section
/-! DEFINITION. The Modbus/TCP framer (42_tcp_framer R150 to R158, R161, R162). The rules of an event
other than PeerClose apply when the session's execution register is empty; Fetch.lean sees to that. -/

namespace Sys2Proof.Machine

/-- MAX_SESSIONS sessions are open (R151). -/
def sessionsFull (s : State) : Bool :=
  match s.cfg.maxSessions with
  | some m => decide (m ≤ s.sess.length)
  | none => false

/-- Accept (R151). -/
def tcpAccept (s : State) : Received :=
  if sessionsFull s then .quiet (s.emit (.close none))
  else .quiet { s with sess := s.sess ++ [(s.nextSess, ⟨[], none⟩)], nextSess := s.nextSess + 1 }

/-- tcpClose: closing for a corrupted header (R155). -/
def tcpClose (k : Nat) (reason : DropReason) (s : State) : State :=
  ((s.emit (.drop (.session k) reason)).emit (.close (some k))).removeSession k

/-- RxByte on a session that holds `x`: append, then extract (R152, R153, R154). -/
def tcpRxByte (k : Nat) (x : Session) (b : Byte) (s : State) : Received :=
  match tcpExtract (x.buf ++ [b]) with
  | .incomplete => .quiet (s.setBuf k (x.buf ++ [b]))
  | .corrupted reason => .quiet (tcpClose k reason s)
  | .complete ctx pdu => .frame ⟨.session k, ctx.unitId, some ctx⟩ pdu (s.setBuf k [])

/-- ActTimeout on a session that holds `x` (R156). -/
def tcpActTimeout (k : Nat) (x : Session) (s : State) : Received :=
  match x.buf with
  | [] => .quiet ((s.setBuf k []).emitTimeout (.session k))
  | _ :: _ =>
    .quiet (((s.emit (.drop (.session k) .partialTimeout)).setBuf k []).emitTimeout (.session k))

/-- IdleTimeout (R157). -/
def tcpIdleTimeout (k : Nat) (s : State) : Received :=
  .quiet ((s.emit (.close (some k))).removeSession k)

/-- PeerClose: the session is aborted, and nothing is emitted (R158). -/
def tcpPeerClose (k : Nat) (s : State) : Received := .quiet (s.removeSession k)

/-- An event of an open session; an absent one has no step (R161). -/
def onSession (k : Nat) (s : State) (f : Session → Received) : Received :=
  match s.session k with
  | some x => f x
  | none => .refused .absentSession

/-- The events of a TCP block; serial events have no step (R161, R162). -/
def tcpReceive (e : Event) (s : State) : Received :=
  match e with
  | .rxByte _ => .refused .eventNotOnTransport
  | .t15 => .refused .eventNotOnTransport
  | .t35 => .refused .eventNotOnTransport
  | .actTimeout => .refused .eventNotOnTransport
  | .accept => tcpAccept s
  | .sessRxByte k b => onSession k s fun x => tcpRxByte k x b s
  | .sessActTimeout k => onSession k s fun x => tcpActTimeout k x s
  | .idleTimeout k => onSession k s fun _ => tcpIdleTimeout k s
  | .peerClose k => onSession k s fun _ => tcpPeerClose k s

end Sys2Proof.Machine
end

