-- ==== Sys2Proof/Machine/Fetch.lean ====
section
/-! DEFINITION. The part of a step before decoding: which moves the port agents can make (10_state R31),
the choice of one, the receivers, and the address filter (43_dispatch R176, R178). -/

namespace Sys2Proof.Machine

/-! ### Moves -/

/-- The session an event names; none for the events that name no session. -/
def eventSession : Event → Option Nat
  | .rxByte _ => none
  | .t15 => none
  | .t35 => none
  | .actTimeout => none
  | .accept => none
  | .sessRxByte k _ => some k
  | .sessActTimeout k => some k
  | .idleTimeout k => some k
  | .peerClose k => some k

/-- The session named is executing (R31). -/
def sessionBusy (s : State) (e : Event) : Bool :=
  match eventSession e with
  | some k => (s.xqOf (.session k)).isSome
  | none => false

/-- The session named has not been opened yet, and an Accept before the event may open it (R27, R151; log
entry 14). -/
def awaitsAccept (s : State) (earlier : List Event) (e : Event) : Bool :=
  match eventSession e with
  | some k => (s.session k).isNone && decide (s.nextSess ≤ k) && earlier.contains .accept
  | none => false

/-- The event does not wait for its agent: PeerClose, in any state of its session (R158). -/
def overtakes : Event → Bool
  | .rxByte _ => false
  | .t15 => false
  | .t35 => false
  | .actTimeout => false
  | .accept => false
  | .sessRxByte _ _ => false
  | .sessActTimeout _ => false
  | .idleTimeout _ => false
  | .peerClose _ => true

/-- An event of a TCP block can be consumed: it overtakes; or it is the first that waits for its session, or
of those that name none, and its session does not execute (R31, R158). -/
def eventReady (s : State) (earlier : List Event) (e : Event) : Bool :=
  (overtakes e || (!(earlier.map eventSession).contains (eventSession e) && !sessionBusy s e))
    && !awaitsAccept s earlier e

/-- The events of a TCP block that can be consumed, in order; all others go on waiting, so that none is lost
(R31). -/
def readyEvents (s : State) (earlier : List Event) : List Event → List Move
  | [] => []
  | e :: later =>
    if eventReady s earlier e then
      .consume e (earlier ++ later) :: readyEvents s (earlier ++ [e]) later
    else readyEvents s (earlier ++ [e]) later

/-- The sessions that execute (R31). -/
def executingSessions (s : State) : List Move :=
  (s.sess.filter fun p => p.2.xq.isSome).map fun p => .perform (.session p.1)

/-- The moves of a serial port: an executing agent performs, an idle one consumes the first event (R31). -/
def serialMoves (s : State) : List Move :=
  match s.xq with
  | some _ => [.perform .serial]
  | none =>
    match s.inq with
    | [] => []
    | e :: rest => [.consume e rest]

/-- What the port agents can do next (R7, R31). -/
def moves (s : State) : List Move :=
  match s.cfg.transport with
  | .rtu => serialMoves s
  | .ascii => serialMoves s
  | .tcp => executingSessions s ++ readyEvents s [] s.inq

/-- One of the moves; where there are several, `n` says which. -/
def pick : List Move → Nat → Option Move
  | [], _ => none
  | [m], _ => some m
  | m :: m' :: ms, n => (m :: m' :: ms)[n % (ms.length + 2)]?

/-! ### Receiving -/

/-- A step begins: its Status is NONE unless a rule says otherwise (R312), and the free values are drawn
anew. -/
def State.begin (s : State) (rest : List Event) : State :=
  { s with inq := rest, status := .none, draws := s.draws + 1 }

/-- Consumes an event, by the rules of the transport (R8). -/
def receive (e : Event) (s : State) : Received :=
  match s.cfg.transport with
  | .rtu => rtuReceive e s
  | .ascii => ascReceive e s
  | .tcp => tcpReceive e s

/-- The dispatcher's entry: the address filter, then the request is the dispatcher's (R175, R176, R178). -/
def filterRequest (r : Request) (pdu : List Byte) (s : State) : Fetched :=
  match addressFilter s.cfg r.addr with
  | some reason => .settled (.next (s.emit (.drop r.agent reason)))
  | none => .request pdu { s with req := some r }

/-- Where receiving an event leads. -/
def afterReceive : Received → Fetched
  | .quiet s => .settled (.next s)
  | .refused r => .settled (.refused r)
  | .frame r pdu s => filterRequest r pdu s

/-- Makes a move. With none to make the machine holds its state (R321). -/
def makeMove (s : State) : Option Move → Fetched
  | none => .settled (.next s)
  | some (.perform a) => .settled (executeStep a (s.begin s.inq))
  | some (.consume e rest) => afterReceive (receive e (s.begin rest))

/-- The part of a step before decoding. A machine with a parameter outside its legal values has no step
(R313); where several moves are possible, Config.schedule chooses (log entry 4). -/
def fetch (s : State) : Fetched :=
  if configLegal s.cfg then makeMove s (pick (moves s) (Config.schedule s.draws))
  else .settled (.refused .illegalConfiguration)

/-! ### Placing a request for the next step -/

/-- The smallest registered unicast address; 0, the broadcast address, where there is none. -/
def someAddress (cfg : Config) : Byte :=
  (((List.range 247).map fun a => BitVec.ofNat 8 (a + 1)).find? (isRegistered cfg)).getD 0

/-- The machine with a request received but for its last event, and that event next (log entry 12). -/
def placeRequest (pdu : List Byte) (s : State) : State :=
  let addr := someAddress s.cfg
  match s.cfg.transport with
  | .rtu => { s with xq := none, inq := [.t35], rtu := ⟨.gap, rtuEncode addr pdu, false⟩ }
  | .ascii =>
    { s with
      xq := none
      inq := [.rxByte charLF]
      asc := ⟨.cr, (addr :: pdu ++ [lrc (addr :: pdu)]).flatMap hexDigits⟩ }
  | .tcp =>
    let frame := tcpEncode ⟨0, addr⟩ pdu
    { s with
      sess := (s.sess.map fun p => (p.1, { p.2 with xq := none }))
        ++ [(s.nextSess, ⟨frame.dropLast, none⟩)]
      nextSess := s.nextSess + 1
      inq := [.sessRxByte s.nextSess (frame.getLastD 0)] }

end Sys2Proof.Machine
end

