-- ==== Sys2Proof/Machine/Step.lean ====
section
/-! DEFINITION. One step of the machine. -/

namespace Sys2Proof.Machine

/-- The dispatcher's work on a PDU: the instruction it decodes to is executed, and a PDU that is no
instruction is rejected (R176, R180, R181). -/
def serve (pdu : List Byte) (s : State) : Host.Outcome State Fault Refusal :=
  match decode pdu with
  | .ok i => exec i s
  | .error e => rejectRequest e s

/-- One step of one port agent (R31, R176): where it completes a frame addressed to this slave, the
request is decoded and executed. -/
def step (s : State) : Host.Outcome State Fault Refusal :=
  match fetch s with
  | .settled o => o
  | .request pdu t => serve pdu t

/-- The machine whose next step runs the instruction of a word of spec/opcode_table.json, its bits above
`nbits` 0 (log entry 12). -/
def State.withFetchWord (s : State) (nbits w : Nat) : State := placeRequest (tablePdu nbits w) s

end Sys2Proof.Machine
end

