-- ==== Sys2Proof/Safety.lean ====
section
/-! DEFINITION. The terms of the claims: the plan of an instruction, the invariants of the block
(10_state R28), and what it is for a request to be served. -/

namespace Sys2Proof.Safety

open Sys2Proof.Machine

/-- `plan(t, pdu)` of R180, for the PDU of an instruction. -/
def planOf (cfg : Config) (t : Byte) : Instr → Plan
  | .rdCoils w n => planRdBits cfg t .coils 0x01 w n
  | .rdDiscretes w n => planRdBits cfg t .discretes 0x02 w n
  | .rdHolding w n => planRdRegs cfg t .holding 0x03 w n
  | .rdInput w n => planRdRegs cfg t .input 0x04 w n
  | .wrCoil w v => planWrCoil cfg t w v
  | .wrReg w v => planWrReg cfg t w v
  | .rdExcStatus => planExcStatus cfg t
  | .wrCoils w n values => planWrCoils cfg t w n values
  | .wrRegs w n values => planWrRegs cfg t w n values
  | .reportSlaveId => planSlaveId cfg t
  | .rdFile subs => planRdFile cfg t subs
  | .wrFile subs => planWrFile cfg t subs
  | .rdDevId id => planDevId cfg t id

/-! ### Invariants -/

/-- What R25 and R28 say of the RTU receiver. -/
structure RtuOk (rx : RtuRx) : Prop where
  idle_iff : rx.buf = [] ↔ rx.st = .idle
  length_le : rx.buf.length ≤ rtuAduMax
  full : rx.ovf = true → rx.buf.length = rtuAduMax

/-- What R26 and R28 say of the ASCII receiver. -/
structure AscOk (rx : AscRx) : Prop where
  hunt : rx.st = .hunt → rx.hex = []
  length_le : rx.hex.length ≤ asciiBodyMax

/-- What R28 says of a session's buffer: it waits for a header, or for the body of a good one. -/
def BufOk (u : List Byte) : Prop :=
  u.length < 6 ∨
    (wordAt u 2 = 0 ∧ tcpLenMin ≤ (wordAt u 4).toNat ∧ (wordAt u 4).toNat ≤ tcpLenMax ∧
      u.length < 6 + (wordAt u 4).toNat)

/-- An execution register, if not empty, holds an operation, and every operation it holds is in range
(R52, R180, R183). -/
def XqOk (cfg : Config) (x : Option Xq) : Prop :=
  ∀ y, x = some y → y.ops ≠ [] ∧ ∀ op ∈ y.ops, opInRange cfg op = true

/-- What R27 says of the session table: identifiers rise and are smaller than the next one. -/
structure SessOk (cfg : Config) (next : Nat) (l : List (Nat × Session)) : Prop where
  rising : (l.map Prod.fst).Pairwise (· < ·)
  below : ∀ p ∈ l, p.1 < next
  bufs : ∀ p ∈ l, BufOk p.2.buf
  xqs : ∀ p ∈ l, XqOk cfg p.2.xq

/-- The invariant of the machine: R28, the range of every queued operation (R52), the canonical form of
the storage, and no request left in the dispatcher between steps. -/
structure Inv (s : State) : Prop where
  rtu : RtuOk s.rtu
  asc : AscOk s.asc
  sess : SessOk s.cfg s.nextSess s.sess
  xq : XqOk s.cfg s.xq
  mem : Memory.wf s.mem = true
  req : s.req = none

/-- The parts of other transports are at their reset values (R20), and an agent that executes has no
frame in progress (R31, R104, R130, R153). -/
structure Exclusive (s : State) : Prop where
  rtu : s.cfg.transport ≠ .rtu → s.rtu = rtuIdle
  asc : s.cfg.transport ≠ .ascii → s.asc = ascHunt
  sess : s.cfg.transport ≠ .tcp → s.sess = [] ∧ s.nextSess = 0
  xq : s.cfg.transport = .tcp → s.xq = none
  serialIdle : s.xq ≠ none → s.rtu = rtuIdle ∧ s.asc = ascHunt
  sessIdle : ∀ p ∈ s.sess, p.2.xq ≠ none → p.2.buf = []

/-! ### Serving a request -/

/-- An agent's own state exists: the session is open, or the agent is the serial one. -/
def Present (s : State) : Agent → Prop
  | .serial => True
  | .session k => (s.session k).isSome = true

/-- The dispatcher holds the unicast request `r` to a registered address (R175, R178). -/
structure Unicast (s : State) (r : Request) : Prop where
  req : s.req = some r
  addr : r.addr ≠ 0
  registered : isRegistered s.cfg r.addr = true
  present : Present s r.agent

/-- The dispatcher holds the broadcast request `r` (R177). -/
structure Broadcast (s : State) (r : Request) : Prop where
  req : s.req = some r
  addr : r.addr = 0
  present : Present s r.agent

/-- The state after a request has been answered with a PDU: transmitted on the request's port, with the
agent's execution register empty and the storage `m`. -/
def answered (s : State) (r : Request) (m : Memory) (pdu : List Byte) : State :=
  ({ s with
      req := none
      mem := m
      out := s.out ++ [.tx r.agent (adu s.cfg.transport r pdu)] } : State).setXq r.agent none

/-- `n` execution steps of an agent, one after the other; none where one of them stops. -/
def performAll (a : Agent) : Nat → State → Option State
  | 0, s => some s
  | n + 1, s =>
    match executeStep a s with
    | .next t => performAll a n t
    | .fault _ => none
    | .refused _ => none

/-- The outputs that a state has beyond those of an earlier one. -/
def newOutputs (s t : State) : List Output := t.out.drop s.out.length

/-- No output of the list is on the transmit port. -/
def Silent (l : List Output) : Prop := ∀ a bytes, Output.tx a bytes ∉ l

/-- A request that is answered with an exception (R186): the response is transmitted and nothing else
changes. -/
def rejected (s : State) (r : Request) (fc : Byte) (code : ExcCode) : State :=
  { s with req := none, out := s.out ++ [.tx r.agent (adu s.cfg.transport r (excPdu fc code))] }

/-- An idle serial port of transport `tr` whose next event is `e` (R31). -/
structure SerialNext (s : State) (tr : Transport) (e : Event) (rest : List Event) : Prop where
  transport : s.cfg.transport = tr
  serial : tr ≠ .tcp
  legal : configLegal s.cfg = true
  idle : s.xq = none
  inq : s.inq = e :: rest

/-- A TCP block whose next move is to consume the event `e` (R31). -/
structure TcpNext (s : State) (e : Event) (rest : List Event) : Prop where
  transport : s.cfg.transport = .tcp
  legal : configLegal s.cfg = true
  chosen : pick (moves s) (Config.schedule s.draws) = some (.consume e rest)

/-- Receiving bytes on an ASCII port none of which ends a frame. -/
def feedAscii : List Byte → State → Option State
  | [], s => some s
  | c :: cs, s =>
    match ascRxByte c s with
    | .quiet t => feedAscii cs t
    | .frame _ _ _ => none
    | .refused _ => none

/-- Address `a` is none of the `n` cells from `base` on. -/
def Outside (base n a : Nat) : Prop := a < base ∨ base + n ≤ a

/-- Every cell but the `n` cells from `base` on reads in `m'` as in `m`. -/
def SameOutside (m m' : Memory) (base n : Nat) : Prop :=
  ∀ a, Outside base n a → memGet m' a = memGet m a

end Sys2Proof.Safety
end

