-- ==== Sys2Proof/Certificates/Slice0/Obligations.lean ====
section
/-! DEFINITION. The statements about the block, for the provers. Each names the rules of spec/ it
formalises. A request is served by exec, which runs the plan in the step that completes the frame (R176),
and then by one execution step for each storage operation (R184). -/

open Sys2Proof Sys2Proof.Machine Sys2Proof.Safety

/-! ### Reset and invariants -/

/-- R331, R48: the machine after its creation from any configuration. The queue of waiting events, the
dispatcher's latch and the draw counter are the model's own (log entries 3, 4, 8) and not stated here. -/
def Obligations.ResetLeavesReceiversIdleAndStorageZero : Prop :=
  ∀ cfg : Config,
    (State.boot cfg).cfg = cfg ∧
    (State.boot cfg).rtu = ⟨.idle, [], false⟩ ∧
    (State.boot cfg).asc = ⟨.hunt, []⟩ ∧
    (State.boot cfg).sess = [] ∧ (State.boot cfg).nextSess = 0 ∧
    (State.boot cfg).xq = none ∧
    (∀ t space off, readBit cfg (State.boot cfg).mem t space off = false) ∧
    (∀ t space off, readWord cfg (State.boot cfg).mem t space off = 0) ∧
    (State.boot cfg).out = [] ∧ (State.boot cfg).status = .none

/-- R28, R20: the invariants hold at reset, of every configuration. -/
def Obligations.InvariantsHoldAtReset : Prop :=
  ∀ cfg : Config, Inv (State.boot cfg) ∧ Exclusive (State.boot cfg)

/-- R28, R52: every step keeps the receivers' and sessions' invariants, the canonical form of the storage,
and the range of every queued storage operation. -/
def Obligations.EveryStepKeepsInvariant : Prop :=
  ∀ s t : State, Inv s → step s = .next t → Inv t

/-- R20, R31: every step keeps the parts of other transports at their reset values, and an agent that
executes has no frame in progress. -/
def Obligations.EveryStepKeepsExclusiveReceivers : Prop :=
  ∀ s t : State, Inv s → Exclusive s → step s = .next t → Exclusive t

/-- R52: from every state that meets the invariant no step faults; in particular no storage operation is
performed outside the declared capacity. -/
def Obligations.NoStepFaultsUnderInvariant : Prop :=
  ∀ (s : State) (f : Fault), Inv s → step s ≠ .fault f

/-- R24, R21: no step writes a configuration register. -/
def Obligations.NoStepWritesConfiguration : Prop :=
  ∀ s t : State, step s = .next t → t.cfg = s.cfg

/-- R48, R58, R61: a step changes the storage only by performing the first operation that waits in some
agent's execution register, and then in the one way that this operation does. -/
def Obligations.StorageChangesOnlyByQueuedOperations : Prop :=
  ∀ s t : State, step s = .next t →
    t.mem = s.mem ∨
    ∃ a x op rest, s.xqOf a = some x ∧ x.ops = op :: rest ∧ opInRange s.cfg op = true ∧
      t.mem = (performOp s.cfg s.mem op).2

/-- R15, R306: a step only adds outputs, and at most one of them is on the transmit port. -/
def Obligations.StepAddsAtMostOneTransmission : Prop :=
  ∀ s t : State, step s = .next t →
    ∃ new, t.out = s.out ++ new ∧
      (new.filter fun o => match o with | .tx _ _ => true | _ => false).length ≤ 1

/-- R312: a step in which an agent moves has Status TIMEOUT exactly when it consumes a master-activity
timeout. -/
def Obligations.TimeoutStatusExactlyOnActivityTimeout : Prop :=
  ∀ (s t : State) (m : Move), configLegal s.cfg = true →
    pick (moves s) (Config.schedule s.draws) = some m → step s = .next t →
    (t.status = .timeout ↔
      ∃ rest, m = .consume .actTimeout rest ∨ ∃ k, m = .consume (.sessActTimeout k) rest)

/-- R27: session identifiers are allocated rising and never used again. -/
def Obligations.SessionIdentifiersAreNeverReused : Prop :=
  ∀ s t : State, step s = .next t →
    s.nextSess ≤ t.nextSess ∧
    ∀ k, k ∈ t.sess.map Prod.fst → k ∈ s.sess.map Prod.fst ∨ (k = s.nextSess ∧ k < t.nextSess)

/-- R31, R335: an executing serial agent performs its next operation and consumes no event; bytes that
arrive wait. -/
def Obligations.ExecutingSerialAgentConsumesNoEvent : Prop :=
  ∀ (s : State) (x : Xq), configLegal s.cfg = true → s.cfg.transport ≠ .tcp → s.xq = some x →
    step s = executeStep .serial (s.begin s.inq) ∧
    ∀ t, step s = .next t → t.inq = s.inq ∧ t.rtu = s.rtu ∧ t.asc = s.asc

/-- R31, R158, R162, R307: where an agent's execution is the move made, the step is that agent's execution
step; an executing session has that move; and of the events that name it, it consumes PeerClose alone, wherever
that waits. No step of any agent loses a waiting event: it takes out at most the one it consumes, and leaves the
others in their order. -/
def Obligations.ExecutingSessionConsumesOnlyPeerClose : Prop :=
  (∀ (s : State) (a : Agent), configLegal s.cfg = true →
    pick (moves s) (Config.schedule s.draws) = some (.perform a) →
    step s = executeStep a (s.begin s.inq)) ∧
  (∀ (s : State) (k : Nat) (x : Session), s.cfg.transport = .tcp → s.session k = some x → x.xq ≠ none →
    .perform (.session k) ∈ moves s ∧
    ∀ e rest, eventSession e = some k → .consume e rest ∈ moves s → e = .peerClose k) ∧
  (∀ s t : State, step s = .next t →
    t.inq = s.inq ∨
    ∃ before e later, s.inq = before ++ e :: later ∧ t.inq = before ++ later ∧
      pick (moves s) (Config.schedule s.draws) = some (.consume e (before ++ later)))

/-! ### Encoding -/

/-- R75, R76, R79: decoding the PDU of a well-formed instruction gives it back, whatever its operands. -/
def Obligations.DecodeOfEncodeIsTheInstruction : Prop :=
  ∀ i : Instr, i.wellFormed = true → decode (encode i) = .ok i

/-- R74, R76, R79: a PDU that decodes to an instruction is the one PDU of that instruction, so that
decoding loses no bit. -/
def Obligations.EncodeOfDecodeIsThePdu : Prop :=
  ∀ (pdu : List Byte) (i : Instr), pdu.length ≤ pduMax → decode pdu = .ok i →
    encode i = pdu ∧ i.wellFormed = true

/-- Words of the spec decode to the instructions they stand for (R83, R200, R251, R277). -/
def Obligations.WordsOfTheSpecDecode : Prop :=
  decode [0x03, 0x00, 0x00, 0x00, 0x0A] = .ok (.rdHolding 0 10) ∧
  decode [0x10, 0x00, 0x01, 0x00, 0x02, 0x04, 0x00, 0x0A, 0x01, 0x02] =
    .ok (.wrRegs 1 2 [0x000A, 0x0102]) ∧
  decode [0x0F, 0x00, 0x00, 0x00, 0x0A, 0x02, 0xCD, 0x01] = .ok (.wrCoils 0 10 [0xCD, 0x01]) ∧
  decode [0x15, 0x0D, 0x06, 0x00, 0x04, 0x00, 0x07, 0x00, 0x03, 0x06, 0xAF, 0x04, 0xBE, 0x10, 0x0D] =
    .ok (.wrFile [⟨6, 4, 7, [0x06AF, 0x04BE, 0x100D]⟩]) ∧
  decode [0x2B, 0x0E, 0xC8] = .ok (.rdDevId 200)

/-- R181: every function code outside the map is answered with exception 1, whatever its payload. -/
def Obligations.UnsupportedFunctionCodesGetException1 : Prop :=
  ∀ (s : State) (r : Request) (fc : Byte) (p : List Byte), Unicast s r →
    fc ∉ ([0x01, 0x02, 0x03, 0x04, 0x05, 0x06, 0x07, 0x0F, 0x10, 0x11, 0x14, 0x15, 0x2B] : List Byte) →
    ∃ e, decode (fc :: p) = .error e ∧ rejectRequest e s = .next (rejected s r fc .illegalFunction)

/-- R80, R277: MEI type 0x0E and an objectId are RD_DEVID; a MEI type other than 0x0E is answered with
exception 1, a missing MEI type or objectId, or a longer payload, with exception 3. -/
def Obligations.DeviceIdentificationSubFunctionErrors : Prop :=
  ∀ (s : State) (r : Request) (mei : Byte) (p : List Byte), Unicast s r →
    (∀ id, decode [0x2B, 0x0E, id] = .ok (.rdDevId id)) ∧
    (mei ≠ 0x0E → ∃ e, decode (0x2B :: mei :: p) = .error e ∧
      rejectRequest e s = .next (rejected s r 0x2B .illegalFunction)) ∧
    (∃ e, decode [0x2B] = .error e ∧ rejectRequest e s = .next (rejected s r 0x2B .illegalDataValue)) ∧
    (p.length ≠ 1 → ∃ e, decode (0x2B :: 0x0E :: p) = .error e ∧
      rejectRequest e s = .next (rejected s r 0x2B .illegalDataValue))

/-- R76, R182, R228, R250, R251: a payload that does not fit its function's layout is answered with
exception 3: a wrong length; an odd byte count of FC 16; a byte count of FC 20 that is no multiple of 7; in FC 21,
after any number of complete sub-requests, a header or data that runs past the end; and whatever else is no
instruction. -/
def Obligations.WrongPayloadLengthGetsException3 : Prop :=
  ∀ (s : State) (r : Request) (fc : Byte) (p : List Byte), Unicast s r →
    ((fc ∈ ([0x01, 0x02, 0x03, 0x04, 0x05, 0x06] : List Byte) ∧ p.length ≠ 4) ∨
     (fc ∈ ([0x07, 0x11] : List Byte) ∧ p.length ≠ 0) ∨
     (fc ∈ ([0x0F, 0x10] : List Byte) ∧ (p.length < 5 ∨ p.length ≠ 5 + (p.getD 4 0).toNat)) ∨
     (fc = 0x10 ∧ (p.getD 4 0).toNat % 2 = 1) ∨
     (fc ∈ ([0x14, 0x15] : List Byte) ∧ (p.length < 1 ∨ p.length ≠ 1 + (p.getD 0 0).toNat)) ∨
     (fc = 0x14 ∧ (p.getD 0 0).toNat % 7 ≠ 0) ∨
     (fc = 0x15 ∧ ∃ (subs : List WriteSub) (tail : List Byte),
       p.drop 1 = subs.flatMap encodeWriteSub ++ tail ∧ (∀ u ∈ subs, u.data.length < 65536) ∧ tail ≠ [] ∧
       (tail.length < 7 ∨ tail.length < 7 + 2 * (wordAt tail 5).toNat)) ∨
     (fc ∈ ([0x01, 0x02, 0x03, 0x04, 0x05, 0x06, 0x07, 0x0F, 0x10, 0x11, 0x14, 0x15] : List Byte) ∧
       ∀ i, decode (fc :: p) ≠ .ok i)) →
    ∃ e, decode (fc :: p) = .error e ∧ rejectRequest e s = .next (rejected s r fc .illegalDataValue)

/-! ### A step runs the decoded instruction -/

/-- R176, R181: when the part of a step before decoding ends with a PDU, the step is exec of the instruction
it decodes to, and the rejection of a PDU that is no instruction. -/
def Obligations.StepRunsDecodedInstruction : Prop :=
  ∀ (s t : State) (pdu : List Byte), fetch s = .request pdu t →
    (∀ i, decode pdu = .ok i → step s = exec i t) ∧
    (∀ e, decode pdu = .error e → step s = rejectRequest e t)

/-- R104, R105, R113: the silence that ends a good RTU frame runs the frame's instruction, or rejects a PDU that
is none, with the receiver idle again. -/
def Obligations.RtuFrameRunsItsInstruction : Prop :=
  ∀ (s t : State) (rest : List Event) (a : Byte) (pdu : List Byte), SerialNext s .rtu .t35 rest →
    s.rtu.st ≠ .idle → s.rtu.ovf = false → 1 ≤ pdu.length → s.rtu.buf = rtuEncode a pdu →
    addressFilter s.cfg a = none →
    t = { s.begin rest with rtu := ⟨.idle, [], false⟩, req := some ⟨.serial, a, none⟩ } →
    (∀ i, decode pdu = .ok i ∨ (i.wellFormed = true ∧ pdu = encode i) → step s = exec i t) ∧
    (∀ e, decode pdu = .error e → step s = rejectRequest e t)

/-- R130, R131, R135: the LF that ends a good ASCII frame runs the frame's instruction, or rejects a PDU that is
none, with the receiver hunting again. -/
def Obligations.AsciiFrameRunsItsInstruction : Prop :=
  ∀ (s t : State) (rest : List Event) (a : Byte) (pdu : List Byte),
    SerialNext s .ascii (.rxByte 0x0A) rest → s.asc.st = .cr → 1 ≤ pdu.length →
    s.asc.hex = (a :: pdu ++ [lrc (a :: pdu)]).flatMap hexDigits →
    addressFilter s.cfg a = none →
    t = { s.begin rest with asc := ⟨.hunt, []⟩, req := some ⟨.serial, a, none⟩ } →
    (∀ i, decode pdu = .ok i ∨ (i.wellFormed = true ∧ pdu = encode i) → step s = exec i t) ∧
    (∀ e, decode pdu = .error e → step s = rejectRequest e t)

/-- R152, R153: the byte that completes an ADU runs its instruction, or rejects a PDU that is none, with the
session's buffer empty and the transaction context kept. -/
def Obligations.TcpFrameRunsItsInstruction : Prop :=
  ∀ (s t : State) (rest : List Event) (k : Nat) (b : Byte) (x : Session) (tid : Word) (a : Byte)
    (pdu : List Byte), TcpNext s (.sessRxByte k b) rest → s.session k = some x → 1 ≤ pdu.length →
    pdu.length ≤ pduMax → x.buf ++ [b] = tcpEncode ⟨tid, a⟩ pdu → addressFilter s.cfg a = none →
    t = { (s.begin rest).setBuf k [] with req := some ⟨.session k, a, some ⟨tid, a⟩⟩ } →
    (∀ i, decode pdu = .ok i ∨ (i.wellFormed = true ∧ pdu = encode i) → step s = exec i t) ∧
    (∀ e, decode pdu = .error e → step s = rejectRequest e t)

/-! ### Codecs -/

/-- R112: the CRC of a string followed by its own CRC, low byte first, is 0. -/
def Obligations.CrcResidueIsZero : Prop :=
  ∀ s : List Byte, crc16 (s ++ toLE16 (crc16 s)) = 0

/-- R105, R113: the frame check accepts an encoded frame and gives back its address and PDU. -/
def Obligations.RtuDecodeOfEncode : Prop :=
  ∀ (a : Byte) (pdu : List Byte), 1 ≤ pdu.length → rtuDecode (rtuEncode a pdu) false = .ok (a, pdu)

/-- R128, R133, R134: the receiver reads back every digit sent and lower case letters as upper case ones, and
a body is valid exactly when the sum of its bytes and the LRC is 0 modulo 256. -/
def Obligations.HexDigitsAndLrc : Prop :=
  (∀ v : Nibble, hexVal (hexChr v) = some v) ∧
  (∀ c : Byte, 0x41 ≤ c.toNat → c.toNat ≤ 0x46 → hexVal (c + 0x20) = hexVal c) ∧
  (∀ (body : List Byte) (x : Byte), (body ++ [x]).foldl (· + ·) 0 = 0 ↔ x = lrc body)

/-- R125 to R131, R135: receiving an encoded frame character by character, from HUNT, emits nothing and
hands its address and PDU to the dispatcher with its last character. -/
def Obligations.AsciiReceiverDecodesEncodedFrames : Prop :=
  ∀ (s : State) (a : Byte) (pdu : List Byte), s.asc.st = .hunt → 1 ≤ pdu.length →
    pdu.length ≤ pduMax →
    ∃ chars t, asciiEncode a pdu = chars ++ [0x0A] ∧ feedAscii chars s = some t ∧ t.out = s.out ∧
      ascRxByte 0x0A t = .frame ⟨.serial, a, none⟩ pdu { s with asc := ⟨.hunt, []⟩ }

/-- R152, R153, R154, R159: the framer waits for every proper beginning of an encoded ADU, and takes the whole
one with its transaction context; a byte after which the header, or the body of a good header, is not complete
is buffered, and nothing else happens in its step. -/
def Obligations.TcpFramerDecodesEncodedFrames : Prop :=
  (∀ (ctx : TcpCtx) (pdu : List Byte), 1 ≤ pdu.length → pdu.length ≤ pduMax →
    tcpExtract (tcpEncode ctx pdu) = .complete ctx pdu ∧
    ∀ n, n < (tcpEncode ctx pdu).length → tcpExtract ((tcpEncode ctx pdu).take n) = .incomplete) ∧
  (∀ (s : State) (rest : List Event) (k : Nat) (b : Byte) (x : Session),
    TcpNext s (.sessRxByte k b) rest → s.session k = some x →
    (BufOk (x.buf ++ [b]) ∨ tcpExtract (x.buf ++ [b]) = .incomplete) →
    step s = .next ((s.begin rest).setBuf k (x.buf ++ [b])))

/-! ### Receivers -/

/-- R100 to R103: a byte starts a frame in IDLE; in RECV it is appended, or lost with the overflow mark set;
after a gap it drops the frame in progress and starts a new one. T15 marks a gap in RECV and changes nothing
elsewhere. -/
def Obligations.RtuReceiverTakesBytesAndGaps : Prop :=
  ∀ (s : State) (rest : List Event) (b : Byte),
    (SerialNext s .rtu (.rxByte b) rest → s.rtu.st = .idle →
      step s = .next { s.begin rest with rtu := ⟨.recv, [b], false⟩ }) ∧
    (SerialNext s .rtu (.rxByte b) rest → s.rtu.st = .recv → s.rtu.buf.length < rtuAduMax →
      step s = .next { s.begin rest with rtu := ⟨.recv, s.rtu.buf ++ [b], s.rtu.ovf⟩ }) ∧
    (SerialNext s .rtu (.rxByte b) rest → s.rtu.st = .recv → rtuAduMax ≤ s.rtu.buf.length →
      step s = .next { s.begin rest with rtu := ⟨.recv, s.rtu.buf, true⟩ }) ∧
    (SerialNext s .rtu (.rxByte b) rest → s.rtu.st = .gap →
      step s = .next { s.begin rest with
        rtu := ⟨.recv, [b], false⟩
        out := s.out ++ [.drop .serial .rtuIntercharGap] }) ∧
    (SerialNext s .rtu .t15 rest →
      step s = .next { s.begin rest with
        rtu := if s.rtu.st = .recv then ⟨.gap, s.rtu.buf, s.rtu.ovf⟩ else s.rtu })

/-- R104, R105, R106: a silence of 3.5 character times ends the frame; an overflowed, short or corrupted
frame is dropped with that reason, in that order, and nothing is transmitted. In IDLE it changes nothing. -/
def Obligations.RtuBadFramesAreDropped : Prop :=
  ∀ (s : State) (rest : List Event), SerialNext s .rtu .t35 rest →
    (s.rtu.st = .idle → step s = .next (s.begin rest)) ∧
    (s.rtu.st ≠ .idle → ∀ reason,
      ((s.rtu.ovf = true ∧ reason = .rtuOverflow) ∨
       (s.rtu.ovf = false ∧ s.rtu.buf.length < 4 ∧ reason = .rtuShort) ∨
       (s.rtu.ovf = false ∧ 4 ≤ s.rtu.buf.length ∧
         s.rtu.buf.drop (s.rtu.buf.length - 2) ≠
           toLE16 (crc16 (s.rtu.buf.take (s.rtu.buf.length - 2))) ∧ reason = .rtuCrc)) →
      step s = .next { s.begin rest with
        rtu := ⟨.idle, [], false⟩
        out := s.out ++ [.drop .serial reason] })

/-- R107, R132: ActTimeout discards a partial frame and reports the timeout, on either serial port. -/
def Obligations.SerialTimeoutDiscardsPartialFrame : Prop :=
  ∀ (s : State) (rest : List Event),
    (SerialNext s .rtu .actTimeout rest →
      step s = .next { s.begin rest with
        rtu := ⟨.idle, [], false⟩
        out := s.out ++ (if s.rtu.st = .idle then [] else [.drop .serial .partialTimeout])
          ++ [.status .serial .timeout]
        status := .timeout }) ∧
    (SerialNext s .ascii .actTimeout rest →
      step s = .next { s.begin rest with
        asc := ⟨.hunt, []⟩
        out := s.out ++ (if s.asc.st = .hunt then [] else [.drop .serial .partialTimeout])
          ++ [.status .serial .timeout]
        status := .timeout })

/-- R125, R126, R127: what a byte does in HUNT and in BODY. -/
def Obligations.AsciiByteInHuntAndBody : Prop :=
  ∀ (s : State) (rest : List Event) (c : Byte), SerialNext s .ascii (.rxByte c) rest →
    (s.asc.st = .hunt →
      step s = .next { s.begin rest with asc := if c = 0x3A then ⟨.body, []⟩ else s.asc }) ∧
    (s.asc.st = .body → ∀ v, hexVal c = some v → s.asc.hex.length < asciiBodyMax →
      step s = .next { s.begin rest with asc := ⟨.body, s.asc.hex ++ [v]⟩ }) ∧
    (s.asc.st = .body → ∀ v, hexVal c = some v → asciiBodyMax ≤ s.asc.hex.length →
      step s = .next { s.begin rest with
        asc := ⟨.hunt, []⟩, out := s.out ++ [.drop .serial .asciiOverflow] }) ∧
    (s.asc.st = .body → c = 0x3A →
      step s = .next { s.begin rest with
        asc := ⟨.body, []⟩, out := s.out ++ [.drop .serial .asciiRestart] }) ∧
    (s.asc.st = .body → c = 0x0D →
      step s = .next { s.begin rest with asc := ⟨.cr, s.asc.hex⟩ }) ∧
    (s.asc.st = .body → hexVal c = none → c ≠ 0x3A → c ≠ 0x0D →
      step s = .next { s.begin rest with
        asc := ⟨.hunt, []⟩, out := s.out ++ [.drop .serial .asciiNonhex] })

/-- R129, R130, R131, R136: after CR, a byte other than LF drops the frame; LF ends it, and a frame of odd
length, of fewer than 6 digits or with a wrong LRC is dropped with that reason, in that order. -/
def Obligations.AsciiBadFramesAreDropped : Prop :=
  ∀ (s : State) (rest : List Event) (c : Byte), SerialNext s .ascii (.rxByte c) rest → s.asc.st = .cr →
    (c ≠ 0x0A →
      step s = .next { s.begin rest with
        asc := if c = 0x3A then ⟨.body, []⟩ else ⟨.hunt, []⟩
        out := s.out ++ [.drop .serial .asciiNoLf] }) ∧
    (c = 0x0A → ∀ reason,
      ((s.asc.hex.length % 2 = 1 ∧ reason = .asciiOdd) ∨
       (s.asc.hex.length % 2 = 0 ∧ s.asc.hex.length < 6 ∧ reason = .asciiShort) ∨
       (s.asc.hex.length % 2 = 0 ∧ 6 ≤ s.asc.hex.length ∧
         (hexBytes s.asc.hex).getLast? ≠ some (lrc (hexBytes s.asc.hex).dropLast) ∧
         reason = .asciiLrc)) →
      step s = .next { s.begin rest with
        asc := ⟨.hunt, []⟩, out := s.out ++ [.drop .serial reason] })

/-- R151: Accept opens the next session, or closes the connection when MAX_SESSIONS are open. That the Close
of a connection without a session is `.close none` is the model's choice (log entry 16). -/
def Obligations.AcceptOpensNextSession : Prop :=
  ∀ (s : State) (rest : List Event), TcpNext s .accept rest →
    ((∀ m, s.cfg.maxSessions = some m → s.sess.length < m) →
      step s = .next { s.begin rest with
        sess := s.sess ++ [(s.nextSess, ⟨[], none⟩)], nextSess := s.nextSess + 1 }) ∧
    (∀ m, s.cfg.maxSessions = some m → m ≤ s.sess.length →
      step s = .next { s.begin rest with out := s.out ++ [.close none] })

/-- R153, R155: with six bytes buffered, a protocolId other than 0, or else a length outside 2..254, closes
the session with no response. -/
def Obligations.CorruptedHeaderClosesSession : Prop :=
  ∀ (s : State) (rest : List Event) (k : Nat) (b : Byte) (x : Session),
    TcpNext s (.sessRxByte k b) rest → s.session k = some x → 6 ≤ (x.buf ++ [b]).length →
    ∀ reason,
      ((wordAt (x.buf ++ [b]) 2 ≠ 0 ∧ reason = .tcpProtocolId) ∨
       (wordAt (x.buf ++ [b]) 2 = 0 ∧
         ((wordAt (x.buf ++ [b]) 4).toNat < 2 ∨ 254 < (wordAt (x.buf ++ [b]) 4).toNat) ∧
         reason = .tcpLength)) →
      step s = .next { s.begin rest with
        out := s.out ++ [.drop (.session k) reason, .close (some k)]
        sess := s.sess.filter fun p => decide (p.1 ≠ k) }

/-- R156, R157: the partial-read timeout empties the session's buffer and leaves it open; the idle timeout
closes the session. -/
def Obligations.SessionTimeouts : Prop :=
  ∀ (s : State) (rest : List Event) (k : Nat) (x : Session), s.session k = some x →
    (TcpNext s (.sessActTimeout k) rest →
      step s = .next { (s.begin rest).setBuf k [] with
        out := s.out ++ (if x.buf = [] then [] else [.drop (.session k) .partialTimeout])
          ++ [.status (.session k) .timeout]
        status := .timeout }) ∧
    (TcpNext s (.idleTimeout k) rest →
      step s = .next { s.begin rest with
        out := s.out ++ [.close (some k)]
        sess := s.sess.filter fun p => decide (p.1 ≠ k) })

/-- R31, R158, R162: a PeerClose of an open session is consumed in any state, executing or not; where it is the
move made it aborts the session, emits nothing and leaves the storage as it is, and all other events go on
waiting. That it can be consumed before events of its session that wait before it while the session is idle
is the model's choice (log entry 14, DEDUCED), and no rule is cited for that. -/
def Obligations.PeerCloseAbortsExecutingSession : Prop :=
  ∀ (s : State) (before later rest : List Event) (k : Nat) (x : Session), s.cfg.transport = .tcp →
    s.session k = some x →
    (s.inq = before ++ .peerClose k :: later →
      .consume (.peerClose k) (before ++ later) ∈ moves s) ∧
    makeMove s (some (.consume (.peerClose k) rest)) =
      .settled (.next { s.begin rest with sess := s.sess.filter fun p => decide (p.1 ≠ k) }) ∧
    (TcpNext s (.peerClose k) rest →
      step s = .next { s.begin rest with sess := s.sess.filter fun p => decide (p.1 ≠ k) })

/-! ### Addresses, exceptions and broadcasts -/

/-- R108, R137, R161, R313: what has no step. A serial port refuses Accept, PeerClose and IdleTimeout; a TCP
block refuses the serial silences and an event that names an absent session; a machine with a parameter
outside its legal values refuses every step. An ASCII port consumes the silences with no effect. -/
def Obligations.EventsAndConfigurationsWithoutStep : Prop :=
  ∀ (s : State) (rest : List Event) (tr : Transport) (k : Nat) (b : Byte) (e : Event),
    ((e = .accept ∨ e = .peerClose k ∨ e = .idleTimeout k) → SerialNext s tr e rest →
      step s = .refused .eventNotOnTransport) ∧
    ((e = .t15 ∨ e = .t35) → SerialNext s .ascii e rest → step s = .next (s.begin rest)) ∧
    ((e = .t15 ∨ e = .t35) → TcpNext s e rest → step s = .refused .eventNotOnTransport) ∧
    ((e = .sessRxByte k b ∨ e = .sessActTimeout k ∨ e = .idleTimeout k ∨ e = .peerClose k) →
      TcpNext s e rest → s.session k = none → step s = .refused .absentSession) ∧
    ((s.cfg.coilCap < 1 ∨ 2000 < s.cfg.coilCap ∨ s.cfg.regCap < 1 ∨ 65536 < s.cfg.regCap ∨
        (∃ d ∈ s.cfg.slaveId, 251 < d.2.length) ∨ (∃ d ∈ s.cfg.devId, 250 < d.2.length) ∨
        (∃ d ∈ s.cfg.devId, 6 < d.1.2.toNat ∧ d.1.2.toNat < 128)) →
      step s = .refused .illegalConfiguration)

/-- R177, R178, R306: which addresses pass the filter, and the reason for which the others are dropped; the step
that ends a good frame of an address that does not pass emits that Drop alone, with the receiver idle. -/
def Obligations.AddressFilterDropsForeignRequests : Prop :=
  (∀ (s : State) (r : Request) (pdu : List Byte),
    (r.addr = 0 → filterRequest r pdu s = .request pdu { s with req := some r }) ∧
    (s.cfg.transport ≠ .tcp → 248 ≤ r.addr.toNat → s.cfg.serialAcceptReserved = false →
      filterRequest r pdu s = .settled (.next { s with out := s.out ++ [.drop r.agent .addrReserved] })) ∧
    (r.addr ≠ 0 → (s.cfg.transport = .tcp ∨ r.addr.toNat < 248 ∨ s.cfg.serialAcceptReserved = true) →
      isRegistered s.cfg r.addr = false →
      filterRequest r pdu s =
        .settled (.next { s with out := s.out ++ [.drop r.agent .addrUnregistered] })) ∧
    (r.addr ≠ 0 → (s.cfg.transport = .tcp ∨ r.addr.toNat < 248 ∨ s.cfg.serialAcceptReserved = true) →
      isRegistered s.cfg r.addr = true →
      filterRequest r pdu s = .request pdu { s with req := some r })) ∧
  (∀ (s : State) (rest : List Event) (a : Byte) (pdu : List Byte) (reason : DropReason),
    addressFilter s.cfg a = some reason → 1 ≤ pdu.length → pdu.length ≤ pduMax →
    (SerialNext s .rtu .t35 rest → s.rtu.st ≠ .idle → s.rtu.ovf = false → s.rtu.buf = rtuEncode a pdu →
      step s = .next { s.begin rest with
        rtu := ⟨.idle, [], false⟩, out := s.out ++ [.drop .serial reason] }) ∧
    (SerialNext s .ascii (.rxByte 0x0A) rest → s.asc.st = .cr →
      s.asc.hex = (a :: pdu ++ [lrc (a :: pdu)]).flatMap hexDigits →
      step s = .next { s.begin rest with
        asc := ⟨.hunt, []⟩, out := s.out ++ [.drop .serial reason] }) ∧
    (∀ k b x tid, TcpNext s (.sessRxByte k b) rest → s.session k = some x →
      x.buf ++ [b] = tcpEncode ⟨tid, a⟩ pdu →
      step s = .next { (s.begin rest).setBuf k [] with
        out := s.out ++ [.drop (.session k) reason] }))

/-- R182, R200, R201, R225, R226: a read answers exception 3 for a quantity outside its limits, even out of
range, and exception 2 for a good quantity out of range; the storage is unchanged. -/
def Obligations.ReadsCheckQuantityThenRange : Prop :=
  ∀ (s : State) (r : Request) (w n : Word), Unicast s r →
    ((n.toNat < 1 ∨ 2000 < n.toNat) →
      exec (.rdCoils w n) s = .next (rejected s r 0x01 .illegalDataValue) ∧
      exec (.rdDiscretes w n) s = .next (rejected s r 0x02 .illegalDataValue)) ∧
    (1 ≤ n.toNat → n.toNat ≤ 2000 → rangeOK s.cfg.coilCap (startRef s.cfg w) n.toNat = false →
      exec (.rdCoils w n) s = .next (rejected s r 0x01 .illegalDataAddress) ∧
      exec (.rdDiscretes w n) s = .next (rejected s r 0x02 .illegalDataAddress)) ∧
    ((n.toNat < 1 ∨ 125 < n.toNat) →
      exec (.rdHolding w n) s = .next (rejected s r 0x03 .illegalDataValue) ∧
      exec (.rdInput w n) s = .next (rejected s r 0x04 .illegalDataValue)) ∧
    (1 ≤ n.toNat → n.toNat ≤ 125 → rangeOK s.cfg.regCap (startRef s.cfg w) n.toNat = false →
      exec (.rdHolding w n) s = .next (rejected s r 0x03 .illegalDataAddress) ∧
      exec (.rdInput w n) s = .next (rejected s r 0x04 .illegalDataAddress))

/-- R182, R202, R203, R227, R228: the writes answer exception 3 for a coil value other than 0xFF00 and 0x0000,
a quantity outside its limits or a byte count that does not fit it, and only then exception 2 out of range;
the storage is unchanged. -/
def Obligations.WritesCheckValueThenRange : Prop :=
  ∀ (s : State) (r : Request) (w n v : Word) (bs : List Byte) (ws : List Word), Unicast s r →
    (v ≠ 0xFF00 → v ≠ 0x0000 →
      exec (.wrCoil w v) s = .next (rejected s r 0x05 .illegalDataValue)) ∧
    ((v = 0xFF00 ∨ v = 0x0000) → rangeOK s.cfg.coilCap (startRef s.cfg w) 1 = false →
      exec (.wrCoil w v) s = .next (rejected s r 0x05 .illegalDataAddress)) ∧
    (rangeOK s.cfg.regCap (startRef s.cfg w) 1 = false →
      exec (.wrReg w v) s = .next (rejected s r 0x06 .illegalDataAddress)) ∧
    ((n.toNat < 1 ∨ 1968 < n.toNat ∨ bs.length ≠ (n.toNat + 7) / 8) →
      exec (.wrCoils w n bs) s = .next (rejected s r 0x0F .illegalDataValue)) ∧
    (1 ≤ n.toNat → n.toNat ≤ 1968 → bs.length = (n.toNat + 7) / 8 →
      rangeOK s.cfg.coilCap (startRef s.cfg w) n.toNat = false →
      exec (.wrCoils w n bs) s = .next (rejected s r 0x0F .illegalDataAddress)) ∧
    ((n.toNat < 1 ∨ 123 < n.toNat ∨ 2 * ws.length ≠ 2 * n.toNat) →
      exec (.wrRegs w n ws) s = .next (rejected s r 0x10 .illegalDataValue)) ∧
    (1 ≤ n.toNat → n.toNat ≤ 123 → ws.length = n.toNat →
      rangeOK s.cfg.regCap (startRef s.cfg w) n.toNat = false →
      exec (.wrRegs w n ws) s = .next (rejected s r 0x10 .illegalDataAddress))

/-- R182, R250, R251: the file functions answer exception 3 for no sub-request, a wrong refType, fileNo or
recordLen in any sub-request, or (RD_FILE) a response that would not fit, and only then exception 2 for any
sub-request out of range; the storage is unchanged. -/
def Obligations.FileFunctionsCheckEverySubRequest : Prop :=
  ∀ (s : State) (r : Request) (rs : List ReadSub) (ws : List WriteSub), Unicast s r →
    ((rs = [] ∨ (∃ u ∈ rs, u.refType ≠ 6 ∨ u.fileNo ∉ s.cfg.fileSet ∨ u.recordLen = 0) ∨
        pduMax < 2 + (rs.map fun u => 2 + 2 * u.recordLen.toNat).sum) →
      exec (.rdFile rs) s = .next (rejected s r 0x14 .illegalDataValue)) ∧
    (rs ≠ [] → (∀ u ∈ rs, u.refType = 6 ∧ u.fileNo ∈ s.cfg.fileSet ∧ u.recordLen ≠ 0) →
      2 + (rs.map fun u => 2 + 2 * u.recordLen.toNat).sum ≤ pduMax →
      (∃ u ∈ rs, rangeOK s.cfg.regCap (startRef s.cfg u.recordNo) u.recordLen.toNat = false) →
      exec (.rdFile rs) s = .next (rejected s r 0x14 .illegalDataAddress)) ∧
    ((ws = [] ∨ (∃ u ∈ ws, u.refType ≠ 6 ∨ u.fileNo ∉ s.cfg.fileSet ∨ u.data = [])) →
      exec (.wrFile ws) s = .next (rejected s r 0x15 .illegalDataValue)) ∧
    (ws ≠ [] → (∀ u ∈ ws, u.refType = 6 ∧ u.fileNo ∈ s.cfg.fileSet ∧ u.data ≠ []) →
      (∃ u ∈ ws, rangeOK s.cfg.regCap (startRef s.cfg u.recordNo) u.data.length = false) →
      exec (.wrFile ws) s = .next (rejected s r 0x15 .illegalDataAddress))

/-- R50, R184: an operation is performed, unless STORAGE_MAY_FAIL is true and the storage answers it with
DEVICE_FAILURE (the free value Config.storageFails, log entry 5): then it has no effect, the request ends with exception 4,
or with Drop(BROADCAST), and its other operations are not performed. -/
def Obligations.DeviceFailureEndsRequestWithException4 : Prop :=
  ∀ (s : State) (a : Agent) (x : Xq) (op : StorageOp) (rest : List StorageOp),
    s.xqOf a = some x → x.ops = op :: rest → opInRange s.cfg op = true →
    ∃ t, executeStep a s = .next t ∧
      if s.cfg.storageMayFail = true ∧ Config.storageFails s.draws = true then
        t.mem = s.mem ∧ t.xqOf a = none ∧
          t.out = s.out ++ [if x.finish = none then .drop a .broadcast
            else .tx a (adu s.cfg.transport ⟨a, x.addr, x.ctx⟩ [x.fc ||| 0x80, 4])]
      else t.mem = (performOp s.cfg s.mem op).2

/-- R179: a broadcast request puts nothing on the transmit port, when it is executed, when it is rejected
and while its operations are performed. -/
def Obligations.BroadcastNeverTransmits : Prop :=
  (∀ (s : State) (r : Request) (i : Instr), Broadcast s r → s.xqOf r.agent = none →
    ∃ t, exec i s = .next t ∧ Silent (newOutputs s t) ∧
      ∀ x, t.xqOf r.agent = some x → x.finish = none) ∧
  (∀ (s : State) (r : Request) (fc : Byte) (p : List Byte) (e : DecodeError), Broadcast s r →
    decode (fc :: p) = .error e →
    rejectRequest e s = .next { s with req := none, out := s.out ++ [.drop r.agent .broadcast] }) ∧
  (∀ (s t : State) (a : Agent) (x : Xq), s.xqOf a = some x → x.finish = none →
    executeStep a s = .next t → Silent (newOutputs s t) ∧
      ∀ y, t.xqOf a = some y → y.finish = none)

/-- R178, R179, R183: a broadcast request, of every instruction, queues the operations of all registered
tables whose plan is accepted, in ascending address order; with no operation it ends at once. -/
def Obligations.BroadcastQueuesEveryRegisteredTable : Prop :=
  ∀ (s : State) (r : Request) (i : Instr), Broadcast s r →
    (∀ t, t ∈ broadcastTargets s.cfg ↔ isRegistered s.cfg t = true) ∧
    ((broadcastTargets s.cfg).map BitVec.toNat).Pairwise (· < ·) ∧
    ∃ ops, ops = (broadcastTargets s.cfg).flatMap (fun t => planOps (planOf s.cfg t i)) ∧
      exec i s = .next (if ops = [] then
          { s with req := none, out := s.out ++ [.drop r.agent .broadcast] }
        else ({ s with req := none } : State).setXq r.agent
          (some ⟨0, functionCode i, r.ctx, ops, [], none⟩))

/-- R179, R183 to R185: a broadcast WR_REG in range writes the register in every registered table, in
one step for each; then the agent's execution register is empty (R175: as it was before), and Drop(BROADCAST) is
the one output. -/
def Obligations.BroadcastWriteReachesEveryTable : Prop :=
  ∀ (s : State) (r : Request) (w v : Word), Broadcast s r → s.cfg.storageMayFail = false →
    configLegal s.cfg = true → Memory.wf s.mem = true →
    rangeOK s.cfg.regCap (startRef s.cfg w) 1 = true →
    ∃ u t, exec (.wrReg w v) s = .next u ∧
      performAll r.agent (broadcastTargets s.cfg).length u = some t ∧
      Silent (newOutputs s t) ∧ newOutputs s t = [.drop r.agent .broadcast] ∧
      (s.xqOf r.agent = none ∨ broadcastTargets s.cfg ≠ [] → t.xqOf r.agent = none) ∧
      ∀ a, isRegistered s.cfg a = true → readWord s.cfg t.mem a .holding (offset s.cfg w) = v

/-! ### Results -/

/-- R200, R201, R205: a read of bits answers the byte count and the packed elements, and changes no other
state. -/
def Obligations.BitReadsAnswerPackedElements : Prop :=
  ∀ (s : State) (r : Request) (w n : Word), Unicast s r → deviceFails s = false →
    1 ≤ n.toNat → n.toNat ≤ 2000 → rangeOK s.cfg.coilCap (startRef s.cfg w) n.toNat = true →
    (∃ u, exec (.rdCoils w n) s = .next u ∧
      executeStep r.agent u = .next (answered s r s.mem
        (0x01 :: countByte ((n.toNat + 7) / 8) ::
          pack (readBits s.cfg s.mem r.addr .coils (offset s.cfg w) n.toNat)))) ∧
    (∃ u, exec (.rdDiscretes w n) s = .next u ∧
      executeStep r.agent u = .next (answered s r s.mem
        (0x02 :: countByte ((n.toNat + 7) / 8) ::
          pack (readBits s.cfg s.mem r.addr .discretes (offset s.cfg w) n.toNat))))

/-- R225, R226, R230: a read of registers answers the byte count and the words, high byte first, and changes
no other state. -/
def Obligations.RegisterReadsAnswerWords : Prop :=
  ∀ (s : State) (r : Request) (w n : Word), Unicast s r → deviceFails s = false →
    1 ≤ n.toNat → n.toNat ≤ 125 → rangeOK s.cfg.regCap (startRef s.cfg w) n.toNat = true →
    (∃ u, exec (.rdHolding w n) s = .next u ∧
      executeStep r.agent u = .next (answered s r s.mem
        (0x03 :: countByte (2 * n.toNat) ::
          (readWords s.cfg s.mem r.addr .holding (offset s.cfg w) n.toNat).flatMap toBE16))) ∧
    (∃ u, exec (.rdInput w n) s = .next u ∧
      executeStep r.agent u = .next (answered s r s.mem
        (0x04 :: countByte (2 * n.toNat) ::
          (readWords s.cfg s.mem r.addr .input (offset s.cfg w) n.toNat).flatMap toBE16)))

/-- R202, R227: the single writes set their one element, change no other cell of the storage and no other
state, and answer with the echo of the request. -/
def Obligations.SingleWritesSetOneElementAndEcho : Prop :=
  ∀ (s : State) (r : Request) (w v : Word), Unicast s r → deviceFails s = false →
    Memory.wf s.mem = true →
    ((v = 0xFF00 ∨ v = 0x0000) → rangeOK s.cfg.coilCap (startRef s.cfg w) 1 = true →
      ∃ u m, exec (.wrCoil w v) s = .next u ∧
        executeStep r.agent u = .next (answered s r m (0x05 :: toBE16 w ++ toBE16 v)) ∧
        readBit s.cfg m r.addr .coils (offset s.cfg w) = decide (v = 0xFF00) ∧
        SameOutside s.mem m (bitAddr s.cfg r.addr .coils (offset s.cfg w)) 1) ∧
    (rangeOK s.cfg.regCap (startRef s.cfg w) 1 = true →
      ∃ u m, exec (.wrReg w v) s = .next u ∧
        executeStep r.agent u = .next (answered s r m (0x06 :: toBE16 w ++ toBE16 v)) ∧
        readWord s.cfg m r.addr .holding (offset s.cfg w) = v ∧
        SameOutside s.mem m (wordAddr s.cfg r.addr .holding (offset s.cfg w)) 2)

/-- R203, R206: WR_COILS sets its n coils to the packed values, changes no other cell of the storage and no
other state, and echoes start and count. -/
def Obligations.WriteCoilsSetsPackedValues : Prop :=
  ∀ (s : State) (r : Request) (w n : Word) (values : List Byte), Unicast s r → deviceFails s = false →
    Memory.wf s.mem = true → 1 ≤ n.toNat → n.toNat ≤ 1968 → values.length = (n.toNat + 7) / 8 →
    rangeOK s.cfg.coilCap (startRef s.cfg w) n.toNat = true →
    ∃ u m, exec (.wrCoils w n values) s = .next u ∧
      executeStep r.agent u = .next (answered s r m (0x0F :: toBE16 w ++ toBE16 n)) ∧
      (∀ i, i < n.toNat →
        readBit s.cfg m r.addr .coils (offset s.cfg w + i) =
          (values.getD (i / 8) 0).getLsbD (i % 8)) ∧
      SameOutside s.mem m (bitAddr s.cfg r.addr .coils (offset s.cfg w)) n.toNat

/-- R228: WR_REGS sets its n registers, changes no other cell of the storage and no other state, and echoes
start and count. -/
def Obligations.WriteRegistersSetsValues : Prop :=
  ∀ (s : State) (r : Request) (w n : Word) (values : List Word), Unicast s r → deviceFails s = false →
    Memory.wf s.mem = true → 1 ≤ n.toNat → n.toNat ≤ 123 → values.length = n.toNat →
    rangeOK s.cfg.regCap (startRef s.cfg w) n.toNat = true →
    ∃ u m, exec (.wrRegs w n values) s = .next u ∧
      executeStep r.agent u = .next (answered s r m (0x10 :: toBE16 w ++ toBE16 n)) ∧
      readWords s.cfg m r.addr .holding (offset s.cfg w) n.toNat = values ∧
      SameOutside s.mem m (wordAddr s.cfg r.addr .holding (offset s.cfg w)) (2 * n.toNat)

/-- R250, R253: RD_FILE reads each sub-request's registers in order, one step for each, and answers respLen
and a part for each sub-request; no other state changes. -/
def Obligations.ReadFileAnswersEverySubRequest : Prop :=
  ∀ (s : State) (r : Request) (subs : List ReadSub), Unicast s r → s.cfg.storageMayFail = false →
    subs ≠ [] → (∀ u ∈ subs, u.refType = 6 ∧ u.fileNo ∈ s.cfg.fileSet ∧ u.recordLen ≠ 0) →
    2 + (subs.map fun u => 2 + 2 * u.recordLen.toNat).sum ≤ pduMax →
    (∀ u ∈ subs, rangeOK s.cfg.regCap (startRef s.cfg u.recordNo) u.recordLen.toNat = true) →
    ∃ v, exec (.rdFile subs) s = .next v ∧
      performAll r.agent subs.length v = some (answered s r s.mem
        (0x14 :: countByte (subs.map fun u => 2 + 2 * u.recordLen.toNat).sum ::
          subs.flatMap fun u => countByte (1 + 2 * u.recordLen.toNat) :: 0x06 ::
            (readWords s.cfg s.mem r.addr .holding (offset s.cfg u.recordNo)
              u.recordLen.toNat).flatMap toBE16))

/-- R251, R253: WR_FILE writes each sub-request's registers in order, one step for each, so that a later
sub-request wins where two overlap, and echoes the request; no other state changes. -/
def Obligations.WriteFileWritesEverySubRequestInOrder : Prop :=
  ∀ (s : State) (r : Request) (subs : List WriteSub), Unicast s r → s.cfg.storageMayFail = false →
    subs ≠ [] → (∀ u ∈ subs, u.refType = 6 ∧ u.fileNo ∈ s.cfg.fileSet ∧ u.data ≠ []) →
    (∀ u ∈ subs, rangeOK s.cfg.regCap (startRef s.cfg u.recordNo) u.data.length = true) →
    ∃ v, exec (.wrFile subs) s = .next v ∧
      performAll r.agent subs.length v = some (answered s r
        (subs.foldl (fun m u => writeWords s.cfg m r.addr .holding (offset s.cfg u.recordNo) u.data)
          s.mem)
        (encode (.wrFile subs)))

/-- R275, R276, R277, R279: the identification functions answer from the configuration in the step that
completes the frame; an object that is not defined has length 0. No other state changes. -/
def Obligations.IdentificationAnswersFromConfiguration : Prop :=
  ∀ (s : State) (r : Request) (id : Byte), Unicast s r →
    (∀ b, (r.addr, b) ∈ s.cfg.excStatus → (∀ b', (r.addr, b') ∈ s.cfg.excStatus → b' = b) →
      exec .rdExcStatus s = .next { s with
        req := none, out := s.out ++ [.tx r.agent (adu s.cfg.transport r [0x07, b])] }) ∧
    (∀ v, (r.addr, v) ∈ s.cfg.slaveId → (∀ v', (r.addr, v') ∈ s.cfg.slaveId → v' = v) →
      exec .reportSlaveId s = .next { s with
        req := none
        out := s.out ++ [.tx r.agent (adu s.cfg.transport r (0x11 :: countByte v.length :: v))] }) ∧
    (∀ v, ((r.addr, id), v) ∈ s.cfg.devId → (∀ v', ((r.addr, id), v') ∈ s.cfg.devId → v' = v) →
      exec (.rdDevId id) s = .next { s with
        req := none
        out := s.out ++ [.tx r.agent (adu s.cfg.transport r (0x2B :: id :: countByte v.length :: v))] }) ∧
    ((∀ v, ((r.addr, id), v) ∉ s.cfg.devId) →
      exec (.rdDevId id) s = .next { s with
        req := none, out := s.out ++ [.tx r.agent (adu s.cfg.transport r [0x2B, id, 0x00])] })

/-! ### Storage -/

/-- R49, R230: a write followed by a read over the same range returns exactly the written values, for
registers and for bits. -/
def Obligations.ReadAfterWriteReturnsTheValues : Prop :=
  ∀ (cfg : Config) (m : Memory) (t : Byte) (off : Nat), Memory.wf m = true →
    (∀ (space : WordSpace) (ws : List Word),
      readWords cfg (writeWords cfg m t space off ws) t space off ws.length = ws) ∧
    (∀ (space : BitSpace) (bs : List Bool),
      readBits cfg (writeBits cfg m t space off bs) t space off bs.length = bs)

/-- R45 to R47, R49, R61: an in-range register write leaves every bit, every register of another table, and
every register outside its range as it was; INPUT is HOLDING when the spaces are shared, and untouched when
they are not. -/
def Obligations.RegisterWritesStayInTheirTable : Prop :=
  ∀ (cfg : Config) (m : Memory) (t t' : Byte) (off off' : Nat) (ws : List Word) (bspace : BitSpace),
    configLegal cfg = true → Memory.wf m = true → off + ws.length ≤ cfg.regCap →
    (off' < cfg.coilCap →
      readBit cfg (writeWords cfg m t .holding off ws) t' bspace off' = readBit cfg m t' bspace off') ∧
    (off' < cfg.regCap → (t' ≠ t ∨ off' < off ∨ off + ws.length ≤ off') →
      readWord cfg (writeWords cfg m t .holding off ws) t' .holding off' =
        readWord cfg m t' .holding off') ∧
    (cfg.sharedSpaces = true → readWord cfg m t' .input off' = readWord cfg m t' .holding off') ∧
    (cfg.sharedSpaces = false → off' < cfg.regCap →
      readWord cfg (writeWords cfg m t .holding off ws) t' .input off' = readWord cfg m t' .input off')

/-- The same for coils (R45 to R47, R49, R61): an in-range coil write leaves every register, every coil of
another table and every coil outside its range as it was; DISCRETES is COILS when the spaces are shared, and
untouched when they are not. -/
def Obligations.CoilWritesStayInTheirTable : Prop :=
  ∀ (cfg : Config) (m : Memory) (t t' : Byte) (off off' : Nat) (bs : List Bool) (wspace : WordSpace),
    configLegal cfg = true → Memory.wf m = true → off + bs.length ≤ cfg.coilCap →
    (off' < cfg.regCap →
      readWord cfg (writeBits cfg m t .coils off bs) t' wspace off' = readWord cfg m t' wspace off') ∧
    (off' < cfg.coilCap → (t' ≠ t ∨ off' < off ∨ off + bs.length ≤ off') →
      readBit cfg (writeBits cfg m t .coils off bs) t' .coils off' = readBit cfg m t' .coils off') ∧
    (cfg.sharedSpaces = true → readBit cfg m t' .discretes off' = readBit cfg m t' .coils off') ∧
    (cfg.sharedSpaces = false → off' < cfg.coilCap →
      readBit cfg (writeBits cfg m t .coils off bs) t' .discretes off' =
        readBit cfg m t' .discretes off')

/-- R205, R206: bit `k` of byte `j` of packed bits is element `8j + k`, and 0 past the last one; element `i`
of unpacked bits is bit `i mod 8` of byte `i div 8`, and no further bit is read, so that unpacking gives packed
bits back. -/
def Obligations.PackingPutsElementsInOrder : Prop :=
  ∀ (b : List Bool) (y : List Byte) (n : Nat),
    (pack b).length = (b.length + 7) / 8 ∧
    (∀ j k, j < (b.length + 7) / 8 → k < 8 →
      ((pack b).getD j 0).getLsbD k = b.getD (8 * j + k) false) ∧
    (unpack y n).length = n ∧
    (∀ i, i < n → (unpack y n).getD i false = (y.getD (i / 8) 0).getLsbD (i % 8)) ∧
    unpack (pack b) b.length = b

/-! ### Frames and completion -/

/-- R176, R180, R183: whenever a request is in the dispatcher, exec answers a next state, whatever the
instruction. It takes the request out of the dispatcher, and it either emits one output or loads the agent's
execution register: every configuration register, receiver and buffer, every cell of the storage, every
other agent's execution register, the Status and the waiting events are unchanged. -/
def Obligations.ExecChangesOnlyOutputOrOwnRegister : Prop :=
  ∀ (s : State) (r : Request) (i : Instr), s.req = some r →
    ∃ t, exec i s = .next t ∧ t.req = none ∧ t.cfg = s.cfg ∧ t.rtu = s.rtu ∧ t.asc = s.asc ∧
      t.nextSess = s.nextSess ∧ (∀ a, memGet t.mem a = memGet s.mem a) ∧ t.status = s.status ∧
      t.inq = s.inq ∧ t.draws = s.draws ∧
      t.sess.map (fun p => (p.1, p.2.buf)) = s.sess.map (fun p => (p.1, p.2.buf)) ∧
      (∀ a, a ≠ r.agent → t.xqOf a = s.xqOf a) ∧
      ((t.xqOf r.agent = s.xqOf r.agent ∧ ∃ o, t.out = s.out ++ [o]) ∨ t.out = s.out)

/-- R58, R59, R184: an execution step changes nothing but the outputs, its own agent's execution register,
and the cells of the operation it performs: no cell for a read, the cells of the elements for a write. -/
def Obligations.ExecutionStepChangesOnlyItsCells : Prop :=
  ∀ (s t : State) (a : Agent) (x : Xq) (op : StorageOp) (rest : List StorageOp),
    Memory.wf s.mem = true → s.xqOf a = some x → x.ops = op :: rest → executeStep a s = .next t →
    t.cfg = s.cfg ∧ t.rtu = s.rtu ∧ t.asc = s.asc ∧ t.nextSess = s.nextSess ∧ t.status = s.status ∧
    t.inq = s.inq ∧ t.draws = s.draws ∧ t.req = s.req ∧
    t.sess.map (fun p => (p.1, p.2.buf)) = s.sess.map (fun p => (p.1, p.2.buf)) ∧
    (∀ b, b ≠ a → t.xqOf b = s.xqOf b) ∧
    match op with
    | .readBits _ _ _ _ => ∀ c, memGet t.mem c = memGet s.mem c
    | .readWords _ _ _ _ => ∀ c, memGet t.mem c = memGet s.mem c
    | .writeBits tab space off vs => SameOutside s.mem t.mem (bitAddr s.cfg tab space off) vs.length
    | .writeWords tab space off vs =>
      SameOutside s.mem t.mem (wordAddr s.cfg tab space off) (2 * vs.length)

/-- R176, R184, R185, R341: a queued request whose operations are in range completes in exactly one step for
each operation; the earlier steps emit nothing, and the last one emits exactly one output. -/
def Obligations.QueuedRequestCompletesInOneStepPerOperation : Prop :=
  ∀ (s : State) (a : Agent) (x : Xq) (n : Nat), s.cfg.storageMayFail = false → s.xqOf a = some x →
    x.ops.length = n + 1 → (∀ op ∈ x.ops, opInRange s.cfg op = true) →
    ∃ u t, performAll a n s = some u ∧ u.out = s.out ∧ (u.xqOf a).isSome = true ∧
      executeStep a u = .next t ∧ t.xqOf a = none ∧ ∃ o, t.out = s.out ++ [o]
end

