-- ==== Sys2Proof/Laws/State.lean ====
section
/-! SUPPORT. What each named update of the state does to each field, so that no proof unfolds a record
update. -/

namespace Sys2Proof.Machine

variable (s : State)

/-! ### State.emit -/

@[simp] theorem State.emit_cfg (o : Output) : (s.emit o).cfg = s.cfg := rfl
@[simp] theorem State.emit_rtu (o : Output) : (s.emit o).rtu = s.rtu := rfl
@[simp] theorem State.emit_asc (o : Output) : (s.emit o).asc = s.asc := rfl
@[simp] theorem State.emit_sess (o : Output) : (s.emit o).sess = s.sess := rfl
@[simp] theorem State.emit_nextSess (o : Output) : (s.emit o).nextSess = s.nextSess := rfl
@[simp] theorem State.emit_xq (o : Output) : (s.emit o).xq = s.xq := rfl
@[simp] theorem State.emit_mem (o : Output) : (s.emit o).mem = s.mem := rfl
@[simp] theorem State.emit_out (o : Output) : (s.emit o).out = s.out ++ [o] := rfl
@[simp] theorem State.emit_status (o : Output) : (s.emit o).status = s.status := rfl
@[simp] theorem State.emit_inq (o : Output) : (s.emit o).inq = s.inq := rfl
@[simp] theorem State.emit_req (o : Output) : (s.emit o).req = s.req := rfl
@[simp] theorem State.emit_draws (o : Output) : (s.emit o).draws = s.draws := rfl

/-! ### State.emitTimeout -/

@[simp] theorem State.emitTimeout_cfg (a : Agent) : (s.emitTimeout a).cfg = s.cfg := rfl
@[simp] theorem State.emitTimeout_rtu (a : Agent) : (s.emitTimeout a).rtu = s.rtu := rfl
@[simp] theorem State.emitTimeout_asc (a : Agent) : (s.emitTimeout a).asc = s.asc := rfl
@[simp] theorem State.emitTimeout_sess (a : Agent) : (s.emitTimeout a).sess = s.sess := rfl
@[simp] theorem State.emitTimeout_nextSess (a : Agent) : (s.emitTimeout a).nextSess = s.nextSess := rfl
@[simp] theorem State.emitTimeout_xq (a : Agent) : (s.emitTimeout a).xq = s.xq := rfl
@[simp] theorem State.emitTimeout_mem (a : Agent) : (s.emitTimeout a).mem = s.mem := rfl
@[simp] theorem State.emitTimeout_out (a : Agent) : (s.emitTimeout a).out = s.out ++ [.status a .timeout] := rfl
@[simp] theorem State.emitTimeout_status (a : Agent) : (s.emitTimeout a).status = .timeout := rfl
@[simp] theorem State.emitTimeout_inq (a : Agent) : (s.emitTimeout a).inq = s.inq := rfl
@[simp] theorem State.emitTimeout_req (a : Agent) : (s.emitTimeout a).req = s.req := rfl
@[simp] theorem State.emitTimeout_draws (a : Agent) : (s.emitTimeout a).draws = s.draws := rfl

/-! ### State.setBuf -/

@[simp] theorem State.setBuf_cfg (k : Nat) (buf : List Byte) : (s.setBuf k buf).cfg = s.cfg := rfl
@[simp] theorem State.setBuf_rtu (k : Nat) (buf : List Byte) : (s.setBuf k buf).rtu = s.rtu := rfl
@[simp] theorem State.setBuf_asc (k : Nat) (buf : List Byte) : (s.setBuf k buf).asc = s.asc := rfl
@[simp] theorem State.setBuf_sess (k : Nat) (buf : List Byte) : (s.setBuf k buf).sess = updateSession k (fun x => { x with buf := buf }) s.sess := rfl
@[simp] theorem State.setBuf_nextSess (k : Nat) (buf : List Byte) : (s.setBuf k buf).nextSess = s.nextSess := rfl
@[simp] theorem State.setBuf_xq (k : Nat) (buf : List Byte) : (s.setBuf k buf).xq = s.xq := rfl
@[simp] theorem State.setBuf_mem (k : Nat) (buf : List Byte) : (s.setBuf k buf).mem = s.mem := rfl
@[simp] theorem State.setBuf_out (k : Nat) (buf : List Byte) : (s.setBuf k buf).out = s.out := rfl
@[simp] theorem State.setBuf_status (k : Nat) (buf : List Byte) : (s.setBuf k buf).status = s.status := rfl
@[simp] theorem State.setBuf_inq (k : Nat) (buf : List Byte) : (s.setBuf k buf).inq = s.inq := rfl
@[simp] theorem State.setBuf_req (k : Nat) (buf : List Byte) : (s.setBuf k buf).req = s.req := rfl
@[simp] theorem State.setBuf_draws (k : Nat) (buf : List Byte) : (s.setBuf k buf).draws = s.draws := rfl

/-! ### State.removeSession -/

@[simp] theorem State.removeSession_cfg (k : Nat) : (s.removeSession k).cfg = s.cfg := rfl
@[simp] theorem State.removeSession_rtu (k : Nat) : (s.removeSession k).rtu = s.rtu := rfl
@[simp] theorem State.removeSession_asc (k : Nat) : (s.removeSession k).asc = s.asc := rfl
@[simp] theorem State.removeSession_sess (k : Nat) : (s.removeSession k).sess = s.sess.filter fun p => decide (p.1 ≠ k) := rfl
@[simp] theorem State.removeSession_nextSess (k : Nat) : (s.removeSession k).nextSess = s.nextSess := rfl
@[simp] theorem State.removeSession_xq (k : Nat) : (s.removeSession k).xq = s.xq := rfl
@[simp] theorem State.removeSession_mem (k : Nat) : (s.removeSession k).mem = s.mem := rfl
@[simp] theorem State.removeSession_out (k : Nat) : (s.removeSession k).out = s.out := rfl
@[simp] theorem State.removeSession_status (k : Nat) : (s.removeSession k).status = s.status := rfl
@[simp] theorem State.removeSession_inq (k : Nat) : (s.removeSession k).inq = s.inq := rfl
@[simp] theorem State.removeSession_req (k : Nat) : (s.removeSession k).req = s.req := rfl
@[simp] theorem State.removeSession_draws (k : Nat) : (s.removeSession k).draws = s.draws := rfl

/-! ### State.setRtu -/

@[simp] theorem State.setRtu_cfg (rx : RtuRx) : (s.setRtu rx).cfg = s.cfg := rfl
@[simp] theorem State.setRtu_rtu (rx : RtuRx) : (s.setRtu rx).rtu = rx := rfl
@[simp] theorem State.setRtu_asc (rx : RtuRx) : (s.setRtu rx).asc = s.asc := rfl
@[simp] theorem State.setRtu_sess (rx : RtuRx) : (s.setRtu rx).sess = s.sess := rfl
@[simp] theorem State.setRtu_nextSess (rx : RtuRx) : (s.setRtu rx).nextSess = s.nextSess := rfl
@[simp] theorem State.setRtu_xq (rx : RtuRx) : (s.setRtu rx).xq = s.xq := rfl
@[simp] theorem State.setRtu_mem (rx : RtuRx) : (s.setRtu rx).mem = s.mem := rfl
@[simp] theorem State.setRtu_out (rx : RtuRx) : (s.setRtu rx).out = s.out := rfl
@[simp] theorem State.setRtu_status (rx : RtuRx) : (s.setRtu rx).status = s.status := rfl
@[simp] theorem State.setRtu_inq (rx : RtuRx) : (s.setRtu rx).inq = s.inq := rfl
@[simp] theorem State.setRtu_req (rx : RtuRx) : (s.setRtu rx).req = s.req := rfl
@[simp] theorem State.setRtu_draws (rx : RtuRx) : (s.setRtu rx).draws = s.draws := rfl

/-! ### State.setAsc -/

@[simp] theorem State.setAsc_cfg (rx : AscRx) : (s.setAsc rx).cfg = s.cfg := rfl
@[simp] theorem State.setAsc_rtu (rx : AscRx) : (s.setAsc rx).rtu = s.rtu := rfl
@[simp] theorem State.setAsc_asc (rx : AscRx) : (s.setAsc rx).asc = rx := rfl
@[simp] theorem State.setAsc_sess (rx : AscRx) : (s.setAsc rx).sess = s.sess := rfl
@[simp] theorem State.setAsc_nextSess (rx : AscRx) : (s.setAsc rx).nextSess = s.nextSess := rfl
@[simp] theorem State.setAsc_xq (rx : AscRx) : (s.setAsc rx).xq = s.xq := rfl
@[simp] theorem State.setAsc_mem (rx : AscRx) : (s.setAsc rx).mem = s.mem := rfl
@[simp] theorem State.setAsc_out (rx : AscRx) : (s.setAsc rx).out = s.out := rfl
@[simp] theorem State.setAsc_status (rx : AscRx) : (s.setAsc rx).status = s.status := rfl
@[simp] theorem State.setAsc_inq (rx : AscRx) : (s.setAsc rx).inq = s.inq := rfl
@[simp] theorem State.setAsc_req (rx : AscRx) : (s.setAsc rx).req = s.req := rfl
@[simp] theorem State.setAsc_draws (rx : AscRx) : (s.setAsc rx).draws = s.draws := rfl

/-! ### State.deliver -/

@[simp] theorem State.deliver_cfg (es : List Event) : (s.deliver es).cfg = s.cfg := rfl
@[simp] theorem State.deliver_rtu (es : List Event) : (s.deliver es).rtu = s.rtu := rfl
@[simp] theorem State.deliver_asc (es : List Event) : (s.deliver es).asc = s.asc := rfl
@[simp] theorem State.deliver_sess (es : List Event) : (s.deliver es).sess = s.sess := rfl
@[simp] theorem State.deliver_nextSess (es : List Event) : (s.deliver es).nextSess = s.nextSess := rfl
@[simp] theorem State.deliver_xq (es : List Event) : (s.deliver es).xq = s.xq := rfl
@[simp] theorem State.deliver_mem (es : List Event) : (s.deliver es).mem = s.mem := rfl
@[simp] theorem State.deliver_out (es : List Event) : (s.deliver es).out = s.out := rfl
@[simp] theorem State.deliver_status (es : List Event) : (s.deliver es).status = s.status := rfl
@[simp] theorem State.deliver_inq (es : List Event) : (s.deliver es).inq = s.inq ++ es := rfl
@[simp] theorem State.deliver_req (es : List Event) : (s.deliver es).req = s.req := rfl
@[simp] theorem State.deliver_draws (es : List Event) : (s.deliver es).draws = s.draws := rfl

/-! ### State.begin -/

@[simp] theorem State.begin_cfg (rest : List Event) : (s.begin rest).cfg = s.cfg := rfl
@[simp] theorem State.begin_rtu (rest : List Event) : (s.begin rest).rtu = s.rtu := rfl
@[simp] theorem State.begin_asc (rest : List Event) : (s.begin rest).asc = s.asc := rfl
@[simp] theorem State.begin_sess (rest : List Event) : (s.begin rest).sess = s.sess := rfl
@[simp] theorem State.begin_nextSess (rest : List Event) : (s.begin rest).nextSess = s.nextSess := rfl
@[simp] theorem State.begin_xq (rest : List Event) : (s.begin rest).xq = s.xq := rfl
@[simp] theorem State.begin_mem (rest : List Event) : (s.begin rest).mem = s.mem := rfl
@[simp] theorem State.begin_out (rest : List Event) : (s.begin rest).out = s.out := rfl
@[simp] theorem State.begin_status (rest : List Event) : (s.begin rest).status = .none := rfl
@[simp] theorem State.begin_inq (rest : List Event) : (s.begin rest).inq = rest := rfl
@[simp] theorem State.begin_req (rest : List Event) : (s.begin rest).req = s.req := rfl
@[simp] theorem State.begin_draws (rest : List Event) : (s.begin rest).draws = s.draws + 1 := rfl

/-! ### State.setXq_serial -/

@[simp] theorem State.setXq_serial_cfg (x : Option Xq) : (s.setXq .serial x).cfg = s.cfg := rfl
@[simp] theorem State.setXq_serial_rtu (x : Option Xq) : (s.setXq .serial x).rtu = s.rtu := rfl
@[simp] theorem State.setXq_serial_asc (x : Option Xq) : (s.setXq .serial x).asc = s.asc := rfl
@[simp] theorem State.setXq_serial_sess (x : Option Xq) : (s.setXq .serial x).sess = s.sess := rfl
@[simp] theorem State.setXq_serial_nextSess (x : Option Xq) : (s.setXq .serial x).nextSess = s.nextSess := rfl
@[simp] theorem State.setXq_serial_xq (x : Option Xq) : (s.setXq .serial x).xq = x := rfl
@[simp] theorem State.setXq_serial_mem (x : Option Xq) : (s.setXq .serial x).mem = s.mem := rfl
@[simp] theorem State.setXq_serial_out (x : Option Xq) : (s.setXq .serial x).out = s.out := rfl
@[simp] theorem State.setXq_serial_status (x : Option Xq) : (s.setXq .serial x).status = s.status := rfl
@[simp] theorem State.setXq_serial_inq (x : Option Xq) : (s.setXq .serial x).inq = s.inq := rfl
@[simp] theorem State.setXq_serial_req (x : Option Xq) : (s.setXq .serial x).req = s.req := rfl
@[simp] theorem State.setXq_serial_draws (x : Option Xq) : (s.setXq .serial x).draws = s.draws := rfl

/-! ### State.setXq_session -/

@[simp] theorem State.setXq_session_cfg (k : Nat) (x : Option Xq) : (s.setXq (.session k) x).cfg = s.cfg := rfl
@[simp] theorem State.setXq_session_rtu (k : Nat) (x : Option Xq) : (s.setXq (.session k) x).rtu = s.rtu := rfl
@[simp] theorem State.setXq_session_asc (k : Nat) (x : Option Xq) : (s.setXq (.session k) x).asc = s.asc := rfl
@[simp] theorem State.setXq_session_sess (k : Nat) (x : Option Xq) : (s.setXq (.session k) x).sess = updateSession k (fun y => { y with xq := x }) s.sess := rfl
@[simp] theorem State.setXq_session_nextSess (k : Nat) (x : Option Xq) : (s.setXq (.session k) x).nextSess = s.nextSess := rfl
@[simp] theorem State.setXq_session_xq (k : Nat) (x : Option Xq) : (s.setXq (.session k) x).xq = s.xq := rfl
@[simp] theorem State.setXq_session_mem (k : Nat) (x : Option Xq) : (s.setXq (.session k) x).mem = s.mem := rfl
@[simp] theorem State.setXq_session_out (k : Nat) (x : Option Xq) : (s.setXq (.session k) x).out = s.out := rfl
@[simp] theorem State.setXq_session_status (k : Nat) (x : Option Xq) : (s.setXq (.session k) x).status = s.status := rfl
@[simp] theorem State.setXq_session_inq (k : Nat) (x : Option Xq) : (s.setXq (.session k) x).inq = s.inq := rfl
@[simp] theorem State.setXq_session_req (k : Nat) (x : Option Xq) : (s.setXq (.session k) x).req = s.req := rfl
@[simp] theorem State.setXq_session_draws (k : Nat) (x : Option Xq) : (s.setXq (.session k) x).draws = s.draws := rfl

/-! ### State.setXq, any agent -/

@[simp] theorem State.setXq_cfg (a : Agent) (x : Option Xq) : (s.setXq a x).cfg = s.cfg := by
  cases a <;> rfl
@[simp] theorem State.setXq_rtu (a : Agent) (x : Option Xq) : (s.setXq a x).rtu = s.rtu := by
  cases a <;> rfl
@[simp] theorem State.setXq_asc (a : Agent) (x : Option Xq) : (s.setXq a x).asc = s.asc := by
  cases a <;> rfl
@[simp] theorem State.setXq_nextSess (a : Agent) (x : Option Xq) : (s.setXq a x).nextSess = s.nextSess := by
  cases a <;> rfl
@[simp] theorem State.setXq_mem (a : Agent) (x : Option Xq) : (s.setXq a x).mem = s.mem := by
  cases a <;> rfl
@[simp] theorem State.setXq_out (a : Agent) (x : Option Xq) : (s.setXq a x).out = s.out := by
  cases a <;> rfl
@[simp] theorem State.setXq_status (a : Agent) (x : Option Xq) : (s.setXq a x).status = s.status := by
  cases a <;> rfl
@[simp] theorem State.setXq_inq (a : Agent) (x : Option Xq) : (s.setXq a x).inq = s.inq := by
  cases a <;> rfl
@[simp] theorem State.setXq_req (a : Agent) (x : Option Xq) : (s.setXq a x).req = s.req := by
  cases a <;> rfl
@[simp] theorem State.setXq_draws (a : Agent) (x : Option Xq) : (s.setXq a x).draws = s.draws := by
  cases a <;> rfl

end Sys2Proof.Machine
end

