-- ==== Sys2Proof/Laws/Memory.lean ====
section
/-! SUPPORT. The laws of the storage: reading after writing, the canonical form, and that every memory
operation keeps it. -/

namespace Sys2Proof.Machine

/-! ### The canonical form -/

theorem memWfFrom_mono {lo lo' : Nat} (h : lo' ≤ lo) :
    ∀ {m : Memory}, memWfFrom lo m = true → memWfFrom lo' m = true
  | [], _ => rfl
  | (k, v) :: m, hm => by
    simp only [memWfFrom, Bool.and_eq_true, decide_eq_true_eq] at hm ⊢
    exact ⟨⟨by omega, hm.1.2⟩, hm.2⟩

theorem memGet_of_lt {lo : Nat} : ∀ {m : Memory} {a : Nat}, memWfFrom lo m = true → a < lo →
    memGet m a = unlisted
  | [], _, _, _ => rfl
  | (k, v) :: m, a, hm, ha => by
    simp only [memWfFrom, Bool.and_eq_true, decide_eq_true_eq] at hm
    have hak : a ≠ k := by omega
    simp only [memGet, hak, if_false]
    exact memGet_of_lt hm.2 (by omega)

/-- Writing a byte keeps the canonical form. -/
theorem memSet_wfFrom {lo : Nat} : ∀ {m : Memory} {a : Nat} (v : Byte), memWfFrom lo m = true →
    lo ≤ a → memWfFrom lo (memSet m a v) = true
  | [], a, v, _, ha => by
    by_cases hv : v = unlisted <;> simp [memSet, memWfFrom, hv, ha]
  | (k, x) :: m, a, v, hm, ha => by
    have hm' := hm
    simp only [memWfFrom, Bool.and_eq_true, decide_eq_true_eq] at hm'
    obtain ⟨⟨hk, hx⟩, hrest⟩ := hm'
    unfold memSet
    split
    · split
      · exact hm
      · simp only [memWfFrom, Bool.and_eq_true, decide_eq_true_eq]
        exact ⟨⟨ha, ‹_›⟩, ⟨by omega, hx⟩, hrest⟩
    · split
      · subst_vars
        split
        · exact memWfFrom_mono (by omega) hrest
        · simp only [memWfFrom, Bool.and_eq_true, decide_eq_true_eq]
          exact ⟨⟨hk, ‹_›⟩, hrest⟩
      · simp only [memWfFrom, Bool.and_eq_true, decide_eq_true_eq]
        exact ⟨⟨hk, hx⟩, memSet_wfFrom v hrest (by omega)⟩

/-- Reading after writing one byte: the byte written at its address, every other one as before. -/
theorem memGet_memSetFrom {lo : Nat} : ∀ {m : Memory} (a : Nat) (v : Byte) (b : Nat),
    memWfFrom lo m = true → memGet (memSet m a v) b = if b = a then v else memGet m b
  | [], a, v, b, _ => by
    by_cases hv : v = unlisted <;> by_cases hb : b = a <;> simp [memSet, memGet, hv, hb]
  | (k, x) :: m, a, v, b, hm => by
    have hm' := hm
    simp only [memWfFrom, Bool.and_eq_true, decide_eq_true_eq] at hm'
    obtain ⟨⟨hk, hx⟩, hrest⟩ := hm'
    unfold memSet
    split
    · split
      · by_cases hb : b = a
        · subst hb; subst_vars
          have hbk : b ≠ k := by omega
          simp [memGet, hbk, memGet_of_lt hrest (show b < k + 1 by omega)]
        · simp [hb]
      · simp only [memGet]
    · split
      · subst_vars
        split
        · by_cases hb : b = a
          · subst hb; subst_vars
            simp [memGet_of_lt hrest (show b < b + 1 by omega)]
          · simp [memGet, hb]
        · by_cases hb : b = a <;> simp [memGet, hb]
      · by_cases hb : b = k
        · have hba : b ≠ a := by omega
          simp [memGet, hb, show k ≠ a by omega]
        · simp [memGet, hb, memGet_memSetFrom a v b hrest]

theorem memSet_wf {m : Memory} (a : Nat) (v : Byte) (h : Memory.wf m = true) :
    Memory.wf (memSet m a v) = true := memSet_wfFrom v h (Nat.zero_le a)

theorem memGet_memSet {m : Memory} (a : Nat) (v : Byte) (b : Nat) (h : Memory.wf m = true) :
    memGet (memSet m a v) b = if b = a then v else memGet m b := memGet_memSetFrom a v b h

/-! ### Consecutive bytes -/

theorem memSetBytes_wf : ∀ {m : Memory} (a : Nat) (bs : List Byte), Memory.wf m = true →
    Memory.wf (memSetBytes m a bs) = true
  | _, _, [], h => h
  | _, a, b :: bs, h => memSetBytes_wf (a + 1) bs (memSet_wf a b h)

/-- Reading after writing consecutive bytes. -/
theorem memGet_memSetBytes : ∀ {m : Memory} (a : Nat) (bs : List Byte) (c : Nat), Memory.wf m = true →
    memGet (memSetBytes m a bs) c =
      if a ≤ c ∧ c < a + bs.length then bs.getD (c - a) 0 else memGet m c
  | m, a, [], c, _ => by
    have : ¬ (a ≤ c ∧ c < a + ([] : List Byte).length) := by simp
    simp only [this, if_false]; rfl
  | m, a, b :: bs, c, h => by
    rw [memSetBytes, memGet_memSetBytes (a + 1) bs c (memSet_wf a b h), memGet_memSet a b c h]
    by_cases hca : c = a
    · subst hca
      simp
    · by_cases hin : a + 1 ≤ c ∧ c < a + 1 + bs.length
      · have h2 : a ≤ c ∧ c < a + (b :: bs).length := by simp; omega
        have h3 : c - a = (c - (a + 1)) + 1 := by omega
        rw [if_pos hin, if_pos h2, h3, List.getD_cons_succ]
      · have h2 : ¬ (a ≤ c ∧ c < a + (b :: bs).length) := by simp; omega
        rw [if_neg hin, if_neg h2, if_neg hca]

/-! ### Elements -/

theorem writeBits_wf {cfg : Config} {m : Memory} (t : Byte) (space : BitSpace) (off : Nat)
    (vs : List Bool) (h : Memory.wf m = true) : Memory.wf (writeBits cfg m t space off vs) = true :=
  memSetBytes_wf _ _ h

theorem writeWords_wf {cfg : Config} {m : Memory} (t : Byte) (space : WordSpace) (off : Nat)
    (vs : List Word) (h : Memory.wf m = true) : Memory.wf (writeWords cfg m t space off vs) = true :=
  memSetBytes_wf _ _ h

/-- Every storage operation keeps the canonical form. -/
theorem performOp_wf {cfg : Config} {m : Memory} (op : StorageOp) (h : Memory.wf m = true) :
    Memory.wf (performOp cfg m op).2 = true := by
  cases op with
  | readBits t space off n => exact h
  | writeBits t space off vs => exact writeBits_wf t space off vs h
  | readWords t space off n => exact h
  | writeWords t space off vs => exact writeWords_wf t space off vs h

/-- The storage of every machine is canonical at its creation. -/
theorem boot_mem_wf (cfg : Config) : Memory.wf (State.boot cfg).mem = true := rfl

theorem reset_mem_wf : Memory.wf State.reset.mem = true := rfl

theorem bitCell_getLsbD_zero (v : Bool) : (bitCell v).getLsbD 0 = v := by
  cases v <;> rfl

@[simp] theorem wordsToBytes_nil : wordsToBytes [] = [] := rfl

@[simp] theorem wordsToBytes_cons (w : Word) (ws : List Word) :
    wordsToBytes (w :: ws) = w.extractLsb' 8 8 :: w.extractLsb' 0 8 :: wordsToBytes ws := rfl

@[simp] theorem wordsToBytes_length (ws : List Word) : (wordsToBytes ws).length = 2 * ws.length := by
  induction ws with
  | nil => rfl
  | cons w ws ih => simp [ih]; omega

theorem wordsToBytes_getD (ws : List Word) (i : Nat) :
    (wordsToBytes ws).getD (2 * i) 0 = (ws.getD i 0).extractLsb' 8 8 ∧
      (wordsToBytes ws).getD (2 * i + 1) 0 = (ws.getD i 0).extractLsb' 0 8 := by
  induction ws generalizing i with
  | nil => simp
  | cons w ws ih =>
    cases i with
    | zero => simp
    | succ i =>
      have h := ih i
      rw [show 2 * (i + 1) = 2 * i + 1 + 1 from by omega]
      simp only [wordsToBytes_cons, List.getD_cons_succ]
      exact h

theorem be16_getLsbD (hi lo : Byte) (i : Nat) :
    (be16 hi lo).getLsbD i = if i < 8 then lo.getLsbD i else hi.getLsbD (i - 8) := by
  have h := BitVec.getLsbD_append (x := hi) (y := lo) (i := i)
  simpa [be16, cond_eq_ite] using h

@[simp] theorem be16_extract (w : Word) : be16 (w.extractLsb' 8 8) (w.extractLsb' 0 8) = w := by
  apply BitVec.eq_of_getLsbD_eq
  intro i hi
  rw [be16_getLsbD]
  by_cases h : i < 8
  · simp [h]
  · have h2 : i - 8 < 8 := by omega
    simp [h, h2, show 8 + (i - 8) = i by omega]

@[simp] theorem extract_hi_be16 (hi lo : Byte) : (be16 hi lo).extractLsb' 8 8 = hi := by
  apply BitVec.eq_of_getLsbD_eq
  intro i h
  simp [be16_getLsbD, h]

@[simp] theorem extract_lo_be16 (hi lo : Byte) : (be16 hi lo).extractLsb' 0 8 = lo := by
  apply BitVec.eq_of_getLsbD_eq
  intro i h
  simp [be16_getLsbD, h]

@[simp] theorem toBE16_be16 (hi lo : Byte) : toBE16 (be16 hi lo) = [hi, lo] := by
  simp [toBE16]

/-- A bit element after a write of bits to the array it lies in. -/
theorem readBit_writeBits {cfg : Config} {m : Memory} (t : Byte) (space : BitSpace) (off : Nat)
    (vs : List Bool) (i : Nat) (h : Memory.wf m = true) (hi : i < vs.length) :
    readBit cfg (writeBits cfg m t space off vs) t space (off + i) = vs.getD i false := by
  unfold readBit writeBits
  rw [memGet_memSetBytes _ _ _ h, if_pos (by simp [bitAddr]; omega)]
  rw [show bitAddr cfg t space (off + i) - bitAddr cfg t space off = i by simp [bitAddr]; omega]
  rw [List.getD_eq_getElem _ _ (by simpa using hi), List.getElem_map, bitCell_getLsbD_zero,
    List.getD_eq_getElem _ _ hi]

/-- A word element after a write of words to the array it lies in. -/
theorem readWord_writeWords {cfg : Config} {m : Memory} (t : Byte) (space : WordSpace) (off : Nat)
    (vs : List Word) (i : Nat) (h : Memory.wf m = true) (hi : i < vs.length) :
    readWord cfg (writeWords cfg m t space off vs) t space (off + i) = vs.getD i 0 := by
  have hw := wordsToBytes_getD vs i
  unfold readWord writeWords
  rw [memGet_memSetBytes _ _ _ h, memGet_memSetBytes _ _ _ h,
    if_pos (by simp [wordAddr]; omega), if_pos (by simp [wordAddr]; omega)]
  rw [show wordAddr cfg t space (off + i) - wordAddr cfg t space off = 2 * i by
      simp [wordAddr]; omega,
    show wordAddr cfg t space (off + i) + 1 - wordAddr cfg t space off = 2 * i + 1 by
      simp [wordAddr]; omega, hw.1, hw.2, be16_extract]

end Sys2Proof.Machine
end

