-- ==== Sys2Proof/Laws/Ops.lean ====
section
/-! SUPPORT. The laws of the shared operations: sessions and execution registers, what executing a request
can do, and what performing an operation can do. -/

namespace Sys2Proof.Machine

open Sys2Proof.Safety

/-! ### Sessions -/

theorem lookup_updateSession (k j : Nat) (f : Session → Session) (l : List (Nat × Session)) :
    (updateSession k f l).lookup j = if j = k then (l.lookup j).map f else l.lookup j := by
  induction l with
  | nil => simp [updateSession]
  | cons p l ih =>
    obtain ⟨i, x⟩ := p
    simp only [updateSession, List.map_cons] at ih ⊢
    by_cases hjk : j = k
    · subst hjk
      by_cases hi : i = j
      · subst hi; simp
      · have : (j == i) = false := by simp; omega
        simp [hi, List.lookup_cons, this] at ih ⊢
        exact ih
    · by_cases hi : i = k
      · subst hi
        have : (j == i) = false := by simp; omega
        simp [List.lookup_cons, this, hjk] at ih ⊢
        exact ih
      · by_cases hj : j = i
        · subst hj; simp [hi]
        · have : (j == i) = false := by simp; omega
          simp [hi, List.lookup_cons, this, hjk] at ih ⊢
          exact ih

@[simp] theorem updateSession_updateSession (k : Nat) (f g : Session → Session)
    (l : List (Nat × Session)) :
    updateSession k g (updateSession k f l) = updateSession k (fun x => g (f x)) l := by
  simp only [updateSession, List.map_map]
  apply List.map_congr_left
  intro p _
  by_cases h : p.1 = k <;> simp [h]

@[simp] theorem updateSession_keys (k : Nat) (f : Session → Session) (l : List (Nat × Session)) :
    (updateSession k f l).map Prod.fst = l.map Prod.fst := by
  simp only [updateSession, List.map_map]
  apply List.map_congr_left
  intro p _
  by_cases h : p.1 = k <;> simp [h]

/-- Setting an execution register leaves every buffer as it is. -/
theorem setXq_bufs (s : State) (a : Agent) (x : Option Xq) :
    (s.setXq a x).sess.map (fun p => (p.1, p.2.buf)) = s.sess.map (fun p => (p.1, p.2.buf)) := by
  cases a with
  | serial => rfl
  | session k =>
    simp only [State.setXq_session_sess, updateSession, List.map_map]
    apply List.map_congr_left
    intro p _
    by_cases h : p.1 = k <;> simp [h]

theorem mem_updateSession {k : Nat} {f : Session → Session} {l : List (Nat × Session)}
    {p : Nat × Session} (h : p ∈ updateSession k f l) :
    ∃ q ∈ l, (q.1 = k ∧ p = (q.1, f q.2)) ∨ (q.1 ≠ k ∧ p = q) := by
  simp only [updateSession, List.mem_map] at h
  obtain ⟨q, hq, rfl⟩ := h
  by_cases hk : q.1 = k
  · exact ⟨q, hq, .inl ⟨hk, by simp [hk]⟩⟩
  · exact ⟨q, hq, .inr ⟨hk, by simp [hk]⟩⟩

/-! ### Execution registers -/

theorem setXq_setXq (s : State) (a : Agent) (x y : Option Xq) :
    (s.setXq a x).setXq a y = s.setXq a y := by
  cases a with
  | serial => rfl
  | session k => simp [State.setXq]

theorem xqOf_setXq_self {s : State} {a : Agent} (x : Option Xq) (h : Present s a) :
    (s.setXq a x).xqOf a = x := by
  cases a with
  | serial => rfl
  | session k =>
    obtain ⟨y, hy⟩ := Option.isSome_iff_exists.mp h
    unfold State.session at hy
    simp [State.xqOf, State.session, State.setXq, lookup_updateSession, hy]

theorem xqOf_setXq_none (s : State) (a : Agent) : (s.setXq a none).xqOf a = none := by
  cases a with
  | serial => rfl
  | session k =>
    simp only [State.xqOf, State.session, State.setXq, lookup_updateSession, if_true]
    cases s.sess.lookup k <;> rfl

theorem xqOf_setXq_other (s : State) {a b : Agent} (x : Option Xq) (h : b ≠ a) :
    (s.setXq a x).xqOf b = s.xqOf b := by
  cases a with
  | serial =>
    cases b with
    | serial => exact absurd rfl h
    | session j => rfl
  | session k =>
    cases b with
    | serial => rfl
    | session j =>
      have hj : j ≠ k := fun e => h (by rw [e])
      simp [State.xqOf, State.session, State.setXq, lookup_updateSession, hj]

/-- An agent whose execution register holds a request is present. -/
theorem present_of_xqOf {s : State} {a : Agent} {x : Xq} (h : s.xqOf a = some x) : Present s a := by
  cases a with
  | serial => trivial
  | session k =>
    unfold State.xqOf at h
    cases hk : s.session k with
    | none => simp [hk] at h
    | some y => simp [Present, hk]

/-! ### Executing a request -/

/-- Every meaning is its plan under the shared execution of a request. -/
theorem exec_eq_execRequest (i : Instr) (s : State) :
    exec i s = execRequest (functionCode i) (fun t => planOf s.cfg t i) s := by
  cases i <;> rfl

/-- Address 0..255 is a broadcast target exactly when it is registered. -/
theorem mem_broadcastTargets (cfg : Config) (t : Byte) :
    t ∈ broadcastTargets cfg ↔ isRegistered cfg t = true := by
  simp only [broadcastTargets, List.mem_filter, List.mem_map, List.mem_range, and_iff_right_iff_imp]
  exact fun _ => ⟨t.toNat, t.isLt, by simp⟩

/-- What executing a request does, when one is in the dispatcher: it ends at once with an answer, or it
loads an execution register with operations of the plans of its targets. -/
theorem execRequest_cases {s : State} {r : Request} (fc : Byte) (plan : Byte → Plan)
    (h : s.req = some r) :
    (∃ pdu, execRequest fc plan s = .next (answer r pdu { s with req := none }) ∧
      (r.addr = 0 → pdu = none)) ∨
    (∃ x, execRequest fc plan s = .next (({ s with req := none } : State).setXq r.agent (some x)) ∧
      x.ops ≠ [] ∧ (r.addr = 0 → x.finish = none) ∧
      ∀ op ∈ x.ops, ∃ t, op ∈ planOps (plan t) ∧
        ((r.addr = 0 ∧ isRegistered s.cfg t = true) ∨ (r.addr ≠ 0 ∧ t = r.addr))) := by
  unfold execRequest
  rw [h]
  dsimp only
  by_cases h0 : r.addr = 0
  · rw [if_pos h0]
    generalize hops : ((broadcastTargets s.cfg).flatMap fun t => planOps (plan t)) = ops
    cases ops with
    | nil => exact .inl ⟨none, rfl, fun _ => rfl⟩
    | cons op rest =>
      refine .inr ⟨_, rfl, by simp, fun _ => rfl, ?_⟩
      intro o ho
      have ho : o ∈ ((broadcastTargets s.cfg).flatMap fun t => planOps (plan t)) := by rw [hops]; exact ho
      simp only [List.mem_flatMap, mem_broadcastTargets] at ho
      obtain ⟨t, ht, hot⟩ := ho
      exact ⟨t, hot, .inl ⟨h0, ht⟩⟩
  · rw [if_neg h0]
    cases hp : plan r.addr with
    | reject code => exact .inl ⟨some (excPdu fc code), rfl, fun e => absurd e h0⟩
    | exec ops finish =>
      cases ops with
      | nil => exact .inl ⟨some (buildResponse [] finish), rfl, fun e => absurd e h0⟩
      | cons op rest =>
        refine .inr ⟨_, rfl, by simp, fun e => absurd e h0, ?_⟩
        intro o ho
        exact ⟨r.addr, by rw [hp]; exact ho, .inr ⟨h0, rfl⟩⟩

/-- A PDU that is no instruction is executed as a request that every target rejects. -/
theorem rejectRequest_eq (e : DecodeError) (s : State) :
    (e = .noFunctionCode ∧ rejectRequest e s = .fault .emptyPdu) ∨
      ∃ fc code, rejectRequest e s = execRequest fc (fun _ => .reject code) s := by
  cases e with
  | noFunctionCode => exact .inl ⟨rfl, rfl⟩
  | illegalFunction fc => exact .inr ⟨fc, _, rfl⟩
  | illegalDataValue fc => exact .inr ⟨fc, _, rfl⟩

/-! ### Performing an operation -/

/-- What an execution step of an agent with an operation does. -/
theorem executeStep_of_ops {s : State} {a : Agent} {x : Xq} {op : StorageOp} {rest : List StorageOp}
    (hx : s.xqOf a = some x) (ho : x.ops = op :: rest) :
    executeStep a s =
      if opInRange s.cfg op = false then .fault .storageOutOfRange
      else if deviceFails s = true then
        .next ((raiseException ⟨a, x.addr, x.ctx⟩ x.fc .slaveDeviceFailure x.finish.isNone s).setXq a none)
      else
        .next (afterOp a x (performOp s.cfg s.mem op).1 rest
          { s with mem := (performOp s.cfg s.mem op).2 }) := by
  unfold executeStep
  rw [hx]
  simp only [ho]
  cases opInRange s.cfg op <;> rfl

/-- The next states of an execution step: the request has ended with one output, or it goes on with the
operations that are left. -/
theorem executeStep_cases {s t : State} {a : Agent} (h : executeStep a s = .next t) :
    ∃ x op rest, s.xqOf a = some x ∧ x.ops = op :: rest ∧ opInRange s.cfg op = true ∧
      ((∃ pdu, t = (answer ⟨a, x.addr, x.ctx⟩ pdu s).setXq a none ∧ (x.finish = none → pdu = none)) ∨
       (∃ pdu, t = (answer ⟨a, x.addr, x.ctx⟩ pdu
            { s with mem := (performOp s.cfg s.mem op).2 }).setXq a none ∧
          (x.finish = none → pdu = none)) ∨
       (rest ≠ [] ∧ t = ({ s with mem := (performOp s.cfg s.mem op).2 } : State).setXq a
          (some { x with ops := rest, done := x.done ++ [(performOp s.cfg s.mem op).1] }))) := by
  cases hx : s.xqOf a with
  | none => simp [executeStep, hx] at h
  | some x =>
    cases ho : x.ops with
    | nil => simp [executeStep, hx, ho] at h
    | cons op rest =>
      rw [executeStep_of_ops hx ho] at h
      split at h
      · cases h
      · rename_i hr
        refine ⟨x, op, rest, rfl, ho, by simpa using hr, ?_⟩
        split at h
        · injection h with h
          exact .inl ⟨_, h.symm, fun hf => by simp [hf]⟩
        · injection h with h
          cases rest with
          | nil => exact .inr (.inl ⟨_, h.symm, fun hf => by simp [hf]⟩)
          | cons o os => exact .inr (.inr ⟨by simp, h.symm⟩)

@[simp] theorem answer_cfg (r : Request) (p : Option (List Byte)) (s : State) :
    (answer r p s).cfg = s.cfg := by cases p <;> rfl
@[simp] theorem answer_rtu (r : Request) (p : Option (List Byte)) (s : State) :
    (answer r p s).rtu = s.rtu := by cases p <;> rfl
@[simp] theorem answer_asc (r : Request) (p : Option (List Byte)) (s : State) :
    (answer r p s).asc = s.asc := by cases p <;> rfl
@[simp] theorem answer_sess (r : Request) (p : Option (List Byte)) (s : State) :
    (answer r p s).sess = s.sess := by cases p <;> rfl
@[simp] theorem answer_nextSess (r : Request) (p : Option (List Byte)) (s : State) :
    (answer r p s).nextSess = s.nextSess := by cases p <;> rfl
@[simp] theorem answer_xq (r : Request) (p : Option (List Byte)) (s : State) :
    (answer r p s).xq = s.xq := by cases p <;> rfl
@[simp] theorem answer_mem (r : Request) (p : Option (List Byte)) (s : State) :
    (answer r p s).mem = s.mem := by cases p <;> rfl
@[simp] theorem answer_status (r : Request) (p : Option (List Byte)) (s : State) :
    (answer r p s).status = s.status := by cases p <;> rfl
@[simp] theorem answer_inq (r : Request) (p : Option (List Byte)) (s : State) :
    (answer r p s).inq = s.inq := by cases p <;> rfl
@[simp] theorem answer_req (r : Request) (p : Option (List Byte)) (s : State) :
    (answer r p s).req = s.req := by cases p <;> rfl
@[simp] theorem answer_draws (r : Request) (p : Option (List Byte)) (s : State) :
    (answer r p s).draws = s.draws := by cases p <;> rfl

/-- An answer emits exactly one output, a transmission only where there is a PDU. -/
theorem answer_out (r : Request) (p : Option (List Byte)) (s : State) :
    (answer r p s).out = s.out ++ [match p with
      | some bytes => .tx r.agent (adu s.cfg.transport r bytes)
      | none => .drop r.agent .broadcast] := by
  cases p <;> rfl

/-! ### Plans -/

/-- Every operation of an instruction's plan is in range, on a registered table (R52, R180). -/
theorem planOf_inRange {cfg : Config} {t : Byte} (h : isRegistered cfg t = true) (i : Instr) :
    ∀ op ∈ planOps (planOf cfg t i), opInRange cfg op = true := by
  intro op hop
  cases i with
  | rdCoils w n =>
    simp only [planOf, planRdBits] at hop
    split at hop <;> [skip; split at hop] <;>
      simp_all [planOps, opInRange, rangeOK, offset, bitCap]
  | rdDiscretes w n =>
    simp only [planOf, planRdBits] at hop
    split at hop <;> [skip; split at hop] <;>
      simp_all [planOps, opInRange, rangeOK, offset, bitCap]
  | rdHolding w n =>
    simp only [planOf, planRdRegs] at hop
    split at hop <;> [skip; split at hop] <;>
      simp_all [planOps, opInRange, rangeOK, offset, wordCap]
  | rdInput w n =>
    simp only [planOf, planRdRegs] at hop
    split at hop <;> [skip; split at hop] <;>
      simp_all [planOps, opInRange, rangeOK, offset, wordCap]
  | wrCoil w v =>
    simp only [planOf, planWrCoil] at hop
    split at hop <;> [skip; split at hop] <;>
      simp_all [planOps, opInRange, rangeOK, offset, bitCap]
  | wrReg w v =>
    simp only [planOf, planWrReg] at hop
    split at hop <;> simp_all [planOps, opInRange, rangeOK, offset, wordCap]
  | rdExcStatus => simp [planOf, planExcStatus, planOps] at hop
  | wrCoils w n values =>
    simp only [planOf, planWrCoils] at hop
    split at hop <;> [skip; split at hop <;> [skip; split at hop]] <;>
      simp_all [planOps, opInRange, rangeOK, offset, bitCap, unpack]
    rename_i hr
    exact of_decide_eq_true hr.2
  | wrRegs w n values =>
    simp only [planOf, planWrRegs] at hop
    split at hop <;> [skip; split at hop <;> [skip; split at hop]] <;>
      simp_all [planOps, opInRange, rangeOK, offset, wordCap]
    rename_i hr
    exact of_decide_eq_true hr.2
  | reportSlaveId => simp [planOf, planSlaveId, planOps] at hop
  | rdFile subs =>
    simp only [planOf, planRdFile] at hop
    split at hop <;> [skip; split at hop <;> [skip; split at hop <;> [skip; split at hop]]] <;>
      simp only [planOps, List.not_mem_nil, List.mem_map] at hop
    obtain ⟨u, hu, rfl⟩ := hop
    simp_all [opInRange, readSubInRange, rangeOK, offset]
  | wrFile subs =>
    simp only [planOf, planWrFile] at hop
    split at hop <;> [skip; split at hop <;> [skip; split at hop]] <;>
      simp only [planOps, List.not_mem_nil, List.mem_map] at hop
    obtain ⟨u, hu, rfl⟩ := hop
    simp_all [opInRange, writeSubInRange, rangeOK, offset]
  | rdDevId id => simp [planOf, planDevId, planOps] at hop

end Sys2Proof.Machine
end

