-- ==== Sys2Proof/Laws/PerInstr.lean ====
section
/-! SUPPORT. Statements about every instruction as a request, one lemma for each constructor: the length of
its PDU (R76), and its function code (R79). -/

open Sys2Proof Sys2Proof.Machine

namespace Sys2Proof.Laws

theorem encodeReadSub_length (s : ReadSub) : (encodeReadSub s).length = 7 := by
  simp [encodeReadSub, toBE16]

theorem encodeWriteSub_length (s : WriteSub) : (encodeWriteSub s).length = s.size := by
  simp [encodeWriteSub, toBE16, WriteSub.size]; omega

theorem flatMap_encodeReadSub_length (subs : List ReadSub) :
    (subs.flatMap encodeReadSub).length = 7 * subs.length := by
  induction subs with
  | nil => rfl
  | cons s subs ih => simp [encodeReadSub_length, ih]; omega

theorem flatMap_encodeWriteSub_length (subs : List WriteSub) :
    (subs.flatMap encodeWriteSub).length = (subs.map WriteSub.size).sum := by
  induction subs with
  | nil => rfl
  | cons s subs ih => simp [encodeWriteSub_length, ih]

/-! ### The length of the PDU -/

/-- The PDU of the instruction is as long as its operands say (R76). -/
def EncodedLength.Statement (i : Instr) : Prop := (encode i).length = i.pduLength

theorem EncodedLength.rdCoils (w n : Word) : EncodedLength.Statement (.rdCoils w n) := rfl
theorem EncodedLength.rdDiscretes (w n : Word) : EncodedLength.Statement (.rdDiscretes w n) := rfl
theorem EncodedLength.rdHolding (w n : Word) : EncodedLength.Statement (.rdHolding w n) := rfl
theorem EncodedLength.rdInput (w n : Word) : EncodedLength.Statement (.rdInput w n) := rfl
theorem EncodedLength.wrCoil (w v : Word) : EncodedLength.Statement (.wrCoil w v) := rfl
theorem EncodedLength.wrReg (w v : Word) : EncodedLength.Statement (.wrReg w v) := rfl
theorem EncodedLength.rdExcStatus : EncodedLength.Statement .rdExcStatus := rfl
theorem EncodedLength.wrCoils (w n : Word) (values : List Byte) :
    EncodedLength.Statement (.wrCoils w n values) := by
  simp [EncodedLength.Statement, encode, encodePayload, toBE16, Instr.pduLength]; omega
theorem EncodedLength.wrRegs (w n : Word) (values : List Word) :
    EncodedLength.Statement (.wrRegs w n values) := by
  simp [EncodedLength.Statement, encode, encodePayload, toBE16, Instr.pduLength]; omega
theorem EncodedLength.reportSlaveId : EncodedLength.Statement .reportSlaveId := rfl
theorem EncodedLength.rdFile (subs : List ReadSub) : EncodedLength.Statement (.rdFile subs) := by
  unfold EncodedLength.Statement encode encodePayload Instr.pduLength
  simp only [List.length_cons, flatMap_encodeReadSub_length]; omega
theorem EncodedLength.wrFile (subs : List WriteSub) : EncodedLength.Statement (.wrFile subs) := by
  unfold EncodedLength.Statement encode encodePayload Instr.pduLength
  simp only [List.length_cons, flatMap_encodeWriteSub_length]; omega
theorem EncodedLength.rdDevId (id : Byte) : EncodedLength.Statement (.rdDevId id) := rfl

/-! ### The function code -/

/-- The PDU begins with the instruction's function code, and bit 7 of it is 0, so that no exception response
reads as a request for the same function (R78, R79). -/
def LeadingCode.Statement (i : Instr) : Prop :=
  (encode i).head? = some (functionCode i) ∧ (functionCode i).getLsbD 7 = false

theorem LeadingCode.rdCoils (w n : Word) : LeadingCode.Statement (.rdCoils w n) :=
  ⟨rfl, by simp [functionCode]⟩
theorem LeadingCode.rdDiscretes (w n : Word) : LeadingCode.Statement (.rdDiscretes w n) :=
  ⟨rfl, by simp [functionCode]⟩
theorem LeadingCode.rdHolding (w n : Word) : LeadingCode.Statement (.rdHolding w n) :=
  ⟨rfl, by simp [functionCode]⟩
theorem LeadingCode.rdInput (w n : Word) : LeadingCode.Statement (.rdInput w n) :=
  ⟨rfl, by simp [functionCode]⟩
theorem LeadingCode.wrCoil (w v : Word) : LeadingCode.Statement (.wrCoil w v) :=
  ⟨rfl, by simp [functionCode]⟩
theorem LeadingCode.wrReg (w v : Word) : LeadingCode.Statement (.wrReg w v) :=
  ⟨rfl, by simp [functionCode]⟩
theorem LeadingCode.rdExcStatus : LeadingCode.Statement .rdExcStatus :=
  ⟨rfl, by simp [functionCode]⟩
theorem LeadingCode.wrCoils (w n : Word) (values : List Byte) :
    LeadingCode.Statement (.wrCoils w n values) :=
  ⟨rfl, by simp [functionCode]⟩
theorem LeadingCode.wrRegs (w n : Word) (values : List Word) :
    LeadingCode.Statement (.wrRegs w n values) :=
  ⟨rfl, by simp [functionCode]⟩
theorem LeadingCode.reportSlaveId : LeadingCode.Statement .reportSlaveId :=
  ⟨rfl, by simp [functionCode]⟩
theorem LeadingCode.rdFile (subs : List ReadSub) : LeadingCode.Statement (.rdFile subs) :=
  ⟨rfl, by simp [functionCode]⟩
theorem LeadingCode.wrFile (subs : List WriteSub) : LeadingCode.Statement (.wrFile subs) :=
  ⟨rfl, by simp [functionCode]⟩
theorem LeadingCode.rdDevId (id : Byte) : LeadingCode.Statement (.rdDevId id) :=
  ⟨rfl, by simp [functionCode]⟩

end Sys2Proof.Laws
end

