-- ==== Sys2Proof/Laws/Receive.lean ====
section
/-! SUPPORT. The laws of the receivers: what consuming an event can change, and what a complete frame is. -/

namespace Sys2Proof.Machine

open Sys2Proof.Safety

/-! ### Frame checks -/

/-- A frame that passes the check of RTU holds a function code (R105). -/
theorem rtuDecode_ok {f : List Byte} {lost : Bool} {a : Byte} {pdu : List Byte}
    (h : rtuDecode f lost = .ok (a, pdu)) : lost = false ∧ pdu.length + 3 = f.length ∧ pdu ≠ [] := by
  unfold rtuDecode at h
  split at h
  · cases h
  · split at h
    · cases h
    · dsimp only at h
      split at h
      · cases h
      · split at h
        · rename_i hl hn _ _ addr rest hb
          injection h with h
          injection h with h1 h2
          subst h1; subst h2
          have := congrArg List.length hb
          simp at this
          refine ⟨by simpa using hl, by omega, ?_⟩
          intro e
          subst e
          simp at this
          omega
        · cases h

theorem hexBytes_length : ∀ h : List Nibble, (hexBytes h).length = h.length / 2
  | [] => rfl
  | [_] => by simp [hexBytes]
  | _ :: _ :: rest => by simp only [hexBytes, List.length_cons, hexBytes_length rest]; omega

/-- A digit sequence that passes the check of ASCII holds a function code (R131). -/
theorem asciiDecode_ok {h : List Nibble} {a : Byte} {pdu : List Byte}
    (hd : asciiDecode h = .ok (a, pdu)) : pdu.length + 2 = h.length / 2 ∧ pdu ≠ [] := by
  unfold asciiDecode at hd
  split at hd
  · cases hd
  · split at hd
    · cases hd
    · dsimp only at hd
      split at hd
      · cases hd
      · split at hd
        · rename_i ho hn _ _ addr rest hb
          injection hd with hd
          injection hd with h1 h2
          subst h1; subst h2
          have := congrArg List.length hb
          simp [hexBytes_length] at this
          refine ⟨by omega, ?_⟩
          intro e
          subst e
          simp at this
          omega
        · cases hd

/-- A complete ADU holds a function code, and its address is the unitId (R153). -/
theorem tcpExtract_complete {u : List Byte} {ctx : TcpCtx} {pdu : List Byte}
    (h : tcpExtract u = .complete ctx pdu) : pdu ≠ [] := by
  unfold tcpExtract at h
  split at h
  · cases h
  · split at h
    · cases h
    · dsimp only at h
      split at h
      · cases h
      · split at h
        · cases h
        · rename_i hl hn
          injection h with _ h
          intro e
          have := congrArg List.length (h.trans e)
          simp [tcpLenMin] at this hl
          omega

/-- An incomplete buffer waits as R28 says. -/
theorem tcpExtract_incomplete {u : List Byte} (h : tcpExtract u = .incomplete) : BufOk u := by
  unfold tcpExtract at h
  split at h
  · exact .inl ‹_›
  · split at h
    · cases h
    · dsimp only at h
      split at h
      · cases h
      · split at h
        · rename_i hp hl hn
          refine .inr ⟨by simpa using hp, ?_, ?_, hn⟩ <;> omega
        · cases h

/-! ### The RTU receiver -/

theorem rtuOk_idle : RtuOk rtuIdle := ⟨by simp [rtuIdle], by simp [rtuIdle], by simp [rtuIdle]⟩

theorem rtuOk_start (b : Byte) : RtuOk ⟨.recv, [b], false⟩ := ⟨by simp, by simp [rtuAduMax], by simp⟩

/-- Consuming an event on an RTU port with no frame complete changes the receiver, the outputs and the
Status alone. -/
theorem rtuReceive_quiet {e : Event} {s t : State} (h : rtuReceive e s = .quiet t) :
    ∃ rx out st, t = { s with rtu := rx, out := out, status := st } ∧ (RtuOk s.rtu → RtuOk rx) := by
  cases e with
  | rxByte b =>
    simp only [rtuReceive, rtuRxByte] at h
    split at h
    · cases h; exact ⟨_, _, _, rfl, fun _ => rtuOk_start b⟩
    · split at h
      · cases h
        refine ⟨_, _, _, rfl, fun hs => ⟨by simp, by simp only [List.length_append, List.length_singleton]; omega, ?_⟩⟩
        intro ho
        have := hs.full ho
        omega
      · cases h
        refine ⟨_, _, _, rfl, fun hs => ⟨?_, hs.length_le, fun _ => ?_⟩⟩
        · have := hs.idle_iff
          simp_all
        · have := hs.length_le
          simp only at *
          omega
    · cases h; exact ⟨_, _, _, rfl, fun _ => rtuOk_start b⟩
  | t15 =>
    simp only [rtuReceive, rtuT15] at h
    split at h
    · cases h; exact ⟨_, _, _, rfl, id⟩
    · cases h
      refine ⟨_, _, _, rfl, fun hs => ⟨?_, hs.length_le, hs.full⟩⟩
      have := hs.idle_iff
      simp_all
    · cases h; exact ⟨_, _, _, rfl, id⟩
  | t35 =>
    simp only [rtuReceive, rtuT35, rtuFrameEnd] at h
    split at h
    · cases h; exact ⟨_, _, _, rfl, id⟩
    · split at h
      · cases h; exact ⟨_, _, _, rfl, fun _ => rtuOk_idle⟩
      · cases h
    · split at h
      · cases h; exact ⟨_, _, _, rfl, fun _ => rtuOk_idle⟩
      · cases h
  | actTimeout =>
    simp only [rtuReceive, rtuActTimeout] at h
    split at h <;> (cases h; exact ⟨_, _, _, rfl, fun _ => rtuOk_idle⟩)
  | accept => cases h
  | sessRxByte k b => cases h
  | sessActTimeout k => cases h
  | idleTimeout k => cases h
  | peerClose k => cases h

/-- A complete RTU frame leaves the receiver idle and everything else as it was. -/
theorem rtuReceive_frame {e : Event} {s t : State} {r : Request} {pdu : List Byte}
    (h : rtuReceive e s = .frame r pdu t) :
    t = s.setRtu rtuIdle ∧ r.agent = .serial ∧ pdu ≠ [] := by
  cases e with
  | rxByte b => simp only [rtuReceive, rtuRxByte] at h; split at h <;> [skip; split at h; skip] <;> cases h
  | t15 => simp only [rtuReceive, rtuT15] at h; split at h <;> cases h
  | t35 =>
    simp only [rtuReceive, rtuT35, rtuFrameEnd] at h
    split at h
    · cases h
    · split at h
      · cases h
      · rename_i hd; cases h; exact ⟨rfl, rfl, (rtuDecode_ok hd).2.2⟩
    · split at h
      · cases h
      · rename_i hd; cases h; exact ⟨rfl, rfl, (rtuDecode_ok hd).2.2⟩
  | actTimeout => simp only [rtuReceive, rtuActTimeout] at h; split at h <;> cases h
  | accept => cases h
  | sessRxByte k b => cases h
  | sessActTimeout k => cases h
  | idleTimeout k => cases h
  | peerClose k => cases h

/-! ### The ASCII receiver -/

theorem ascOk_hunt : AscOk ascHunt := ⟨by simp [ascHunt], by simp [ascHunt]⟩

theorem ascOk_start : AscOk ascStart := ⟨by simp [ascStart], by simp [ascStart]⟩

/-- Consuming an event on an ASCII port with no frame complete changes the receiver, the outputs and the
Status alone. -/
theorem ascReceive_quiet {e : Event} {s t : State} (h : ascReceive e s = .quiet t) :
    ∃ rx out st, t = { s with asc := rx, out := out, status := st } ∧ (AscOk s.asc → AscOk rx) := by
  cases e with
  | rxByte c =>
    simp only [ascReceive, ascRxByte] at h
    split at h
    · split at h
      · cases h; exact ⟨_, _, _, rfl, fun _ => ascOk_start⟩
      · cases h; exact ⟨_, _, _, rfl, id⟩
    · unfold ascBodyByte at h
      split at h
      · split at h
        · cases h
          refine ⟨_, _, _, rfl, fun _ => ⟨by simp, ?_⟩⟩
          simp only [List.length_append, List.length_singleton]; omega
        · cases h; exact ⟨_, _, _, rfl, fun _ => ascOk_hunt⟩
      · split at h
        · cases h; exact ⟨_, _, _, rfl, fun _ => ascOk_start⟩
        · split at h
          · cases h
            exact ⟨_, _, _, rfl, fun hs => ⟨by simp, hs.length_le⟩⟩
          · cases h; exact ⟨_, _, _, rfl, fun _ => ascOk_hunt⟩
    · split at h
      · unfold ascFrameEnd at h
        split at h
        · cases h; exact ⟨_, _, _, rfl, fun _ => ascOk_hunt⟩
        · cases h
      · cases h
        refine ⟨_, _, _, rfl, fun _ => ?_⟩
        split
        · exact ascOk_start
        · exact ascOk_hunt
  | t15 => cases h; exact ⟨_, _, _, rfl, id⟩
  | t35 => cases h; exact ⟨_, _, _, rfl, id⟩
  | actTimeout =>
    simp only [ascReceive, ascActTimeout] at h
    split at h <;> (cases h; exact ⟨_, _, _, rfl, fun _ => ascOk_hunt⟩)
  | accept => cases h
  | sessRxByte k b => cases h
  | sessActTimeout k => cases h
  | idleTimeout k => cases h
  | peerClose k => cases h

/-- A complete ASCII frame leaves the receiver hunting and everything else as it was. -/
theorem ascReceive_frame {e : Event} {s t : State} {r : Request} {pdu : List Byte}
    (h : ascReceive e s = .frame r pdu t) :
    t = s.setAsc ascHunt ∧ r.agent = .serial ∧ pdu ≠ [] := by
  cases e with
  | rxByte c =>
    simp only [ascReceive, ascRxByte] at h
    split at h
    · split at h <;> cases h
    · unfold ascBodyByte at h
      split at h
      · split at h <;> cases h
      · split at h
        · cases h
        · split at h <;> cases h
    · split at h
      · unfold ascFrameEnd at h
        split at h
        · cases h
        · rename_i hd; cases h; exact ⟨rfl, rfl, (asciiDecode_ok hd).2⟩
      · cases h
  | t15 => cases h
  | t35 => cases h
  | actTimeout => simp only [ascReceive, ascActTimeout] at h; split at h <;> cases h
  | accept => cases h
  | sessRxByte k b => cases h
  | sessActTimeout k => cases h
  | idleTimeout k => cases h
  | peerClose k => cases h

/-! ### The TCP framer -/

/-- Consuming an event of a TCP block with no frame complete: a session's buffer is replaced, a session is
opened, or one is removed; the outputs and the Status may change. -/
theorem tcpReceive_quiet {e : Event} {s t : State} (h : tcpReceive e s = .quiet t) :
    ∃ out st sess next, t = { s with out := out, status := st, sess := sess, nextSess := next } ∧
      ((sess = s.sess ∧ next = s.nextSess) ∨
       (sess = s.sess ++ [(s.nextSess, ⟨[], none⟩)] ∧ next = s.nextSess + 1) ∨
       (next = s.nextSess ∧ ∃ k, sess = s.sess.filter fun p => decide (p.1 ≠ k)) ∨
       (next = s.nextSess ∧ ∃ k u, BufOk u ∧
         sess = updateSession k (fun x => { x with buf := u }) s.sess ∧
         (u = [] ∨ ∃ b, e = .sessRxByte k b))) := by
  cases e with
  | rxByte b => cases h
  | t15 => cases h
  | t35 => cases h
  | actTimeout => cases h
  | accept =>
    simp only [tcpReceive, tcpAccept] at h
    split at h
    · cases h; exact ⟨_, _, _, _, rfl, .inl ⟨rfl, rfl⟩⟩
    · cases h; exact ⟨_, _, _, _, rfl, .inr (.inl ⟨rfl, rfl⟩)⟩
  | sessRxByte k b =>
    simp only [tcpReceive, onSession] at h
    split at h
    · unfold tcpRxByte at h
      split at h
      · rename_i hx
        cases h
        exact ⟨_, _, _, _, rfl, .inr (.inr (.inr ⟨rfl, k, _, tcpExtract_incomplete hx, rfl, .inr ⟨b, rfl⟩⟩))⟩
      · cases h; exact ⟨_, _, _, _, rfl, .inr (.inr (.inl ⟨rfl, k, rfl⟩))⟩
      · cases h
    · cases h
  | sessActTimeout k =>
    simp only [tcpReceive, onSession] at h
    split at h
    · unfold tcpActTimeout at h
      split at h <;>
        (cases h; exact ⟨_, _, _, _, rfl, .inr (.inr (.inr ⟨rfl, k, [], .inl (by simp), rfl, .inl rfl⟩))⟩)
    · cases h
  | idleTimeout k =>
    simp only [tcpReceive, onSession, tcpIdleTimeout] at h
    split at h
    · cases h; exact ⟨_, _, _, _, rfl, .inr (.inr (.inl ⟨rfl, k, rfl⟩))⟩
    · cases h
  | peerClose k =>
    simp only [tcpReceive, onSession, tcpPeerClose] at h
    split at h
    · cases h; exact ⟨_, _, _, _, rfl, .inr (.inr (.inl ⟨rfl, k, rfl⟩))⟩
    · cases h

/-- A complete TCP frame leaves its session's buffer empty and everything else as it was. -/
theorem tcpReceive_frame {e : Event} {s t : State} {r : Request} {pdu : List Byte}
    (h : tcpReceive e s = .frame r pdu t) :
    ∃ k b, e = .sessRxByte k b ∧ t = s.setBuf k [] ∧ r.agent = .session k ∧ (s.session k).isSome = true ∧
      pdu ≠ [] := by
  cases e with
  | rxByte b => cases h
  | t15 => cases h
  | t35 => cases h
  | actTimeout => cases h
  | accept => simp only [tcpReceive, tcpAccept] at h; split at h <;> cases h
  | sessRxByte k b =>
    simp only [tcpReceive, onSession] at h
    split at h
    · rename_i x hx
      unfold tcpRxByte at h
      split at h
      · cases h
      · cases h
      · rename_i he
        cases h
        exact ⟨k, b, rfl, rfl, rfl, by rw [hx]; rfl, tcpExtract_complete he⟩
    · cases h
  | sessActTimeout k =>
    simp only [tcpReceive, onSession] at h
    split at h
    · unfold tcpActTimeout at h; split at h <;> cases h
    · cases h
  | idleTimeout k => simp only [tcpReceive, onSession, tcpIdleTimeout] at h; split at h <;> cases h
  | peerClose k => simp only [tcpReceive, onSession, tcpPeerClose] at h; split at h <;> cases h

end Sys2Proof.Machine
end

