-- ==== Sys2Proof/Laws/Step.lean ====
section
/-! SUPPORT. The laws of a step: the ways a step can end in a next state, and what a move says of the agent
that makes it. -/

namespace Sys2Proof.Machine

open Sys2Proof.Safety

/-! ### Moves -/

theorem pick_mem {l : List Move} {n : Nat} {m : Move} (h : pick l n = some m) : m ∈ l := by
  match l, h with
  | [_], h => injection h with h; simp [h]
  | _ :: _ :: _, h => exact List.mem_of_getElem? h

/-- Where there is a move, one is made. -/
theorem pick_isSome {l : List Move} (n : Nat) (h : l ≠ []) : (pick l n).isSome = true := by
  match l, h with
  | [_], _ => rfl
  | _ :: _ :: ms, _ =>
    have h : n % (ms.length + 2) < ms.length + 2 := Nat.mod_lt _ (by omega)
    simp [pick, h]

theorem mem_readyEvents {s : State} {m : Move} : ∀ {earlier l : List Event},
    m ∈ readyEvents s earlier l →
      ∃ before e later, l = before ++ e :: later ∧ eventReady s (earlier ++ before) e = true ∧
        m = .consume e (earlier ++ before ++ later)
  | _, [], h => by simp [readyEvents] at h
  | earlier, e :: later, h => by
    unfold readyEvents at h
    split at h
    · rename_i hr
      rcases List.mem_cons.mp h with h | h
      · exact ⟨[], e, later, rfl, by simpa using hr, by simpa using h⟩
      · obtain ⟨before, e', later', rfl, h1, h2⟩ := mem_readyEvents h
        exact ⟨e :: before, e', later', rfl, by simpa using h1, by simpa using h2⟩
    · obtain ⟨before, e', later', rfl, h1, h2⟩ := mem_readyEvents h
      exact ⟨e :: before, e', later', rfl, by simpa using h1, by simpa using h2⟩

/-- An agent that performs has a request in its execution register. -/
theorem xqOf_of_perform {s : State} {a : Agent} (h : .perform a ∈ moves s)
    (hs : (s.sess.map Prod.fst).Pairwise (· < ·)) : ∃ x, s.xqOf a = some x := by
  have serial : .perform a ∈ serialMoves s → ∃ x, s.xqOf a = some x := by
    intro h
    unfold serialMoves at h
    split at h
    · rename_i x hx
      simp only [List.mem_singleton, Move.perform.injEq] at h
      subst h
      exact ⟨x, hx⟩
    · split at h <;> simp at h
  unfold moves at h
  split at h
  · exact serial h
  · exact serial h
  · rcases List.mem_append.mp h with h | h
    · simp only [executingSessions, List.mem_map, List.mem_filter, Move.perform.injEq] at h
      obtain ⟨p, ⟨hp, hx⟩, rfl⟩ := h
      obtain ⟨k, y⟩ := p
      obtain ⟨x, hx⟩ := Option.isSome_iff_exists.mp hx
      refine ⟨x, ?_⟩
      have key : ∀ l : List (Nat × Session), (l.map Prod.fst).Pairwise (· < ·) → (k, y) ∈ l →
          l.lookup k = some y := by
        intro l hl hm
        induction l with
        | nil => cases hm
        | cons q l ih =>
          obtain ⟨j, z⟩ := q
          simp only [List.map_cons, List.pairwise_cons] at hl
          rcases List.mem_cons.mp hm with e | hm
          · cases e; simp
          · have hlt : j < k := hl.1 k (List.mem_map.mpr ⟨(k, y), hm, rfl⟩)
            have hjk : (k == j) = false := by simp; omega
            simp only [List.lookup_cons, hjk]
            exact ih hl.2 hm
      simp only [State.xqOf, State.session, key _ hs hp, Option.bind_some]
      exact hx
    · obtain ⟨_, _, _, _, _, h⟩ := mem_readyEvents h
      cases h

/-- A serial port consumes its first event, when it does not execute. -/
theorem consume_serial {s : State} {e : Event} {rest : List Event} (h : .consume e rest ∈ moves s)
    (ht : s.cfg.transport ≠ .tcp) : s.xq = none ∧ s.inq = e :: rest := by
  have serial : .consume e rest ∈ serialMoves s → s.xq = none ∧ s.inq = e :: rest := by
    intro h
    unfold serialMoves at h
    split at h
    · simp at h
    · rename_i hx
      split at h
      · simp at h
      · rename_i hi
        simp only [List.mem_singleton, Move.consume.injEq] at h
        exact ⟨hx, by rw [hi, h.1, h.2]⟩
  unfold moves at h
  split at h
  · exact serial h
  · exact serial h
  · contradiction

/-- A TCP block consumes an event that is ready. -/
theorem consume_tcp {s : State} {e : Event} {rest : List Event} (h : .consume e rest ∈ moves s)
    (ht : s.cfg.transport = .tcp) :
    ∃ before later, s.inq = before ++ e :: later ∧ rest = before ++ later ∧
      eventReady s before e = true := by
  unfold moves at h
  rw [ht] at h
  rcases List.mem_append.mp h with h | h
  · simp [executingSessions] at h
  · obtain ⟨before, e', later, h1, h2, h3⟩ := mem_readyEvents h
    simp only [List.nil_append, Move.consume.injEq] at h2 h3
    obtain ⟨rfl, rfl⟩ := h3
    exact ⟨before, later, h1, rfl, h2⟩

/-- Where the events that wait include a ready one, consuming it is a move. -/
theorem consume_mem_readyEvents {s : State} {e : Event} {later : List Event} :
    ∀ {earlier before : List Event}, eventReady s (earlier ++ before) e = true →
      .consume e (earlier ++ before ++ later) ∈
        readyEvents s earlier (before ++ e :: later)
  | earlier, [], h => by
    simp only [List.append_nil] at h ⊢
    simp [readyEvents, h]
  | earlier, b :: before, h => by
    have ih := consume_mem_readyEvents (s := s) (e := e) (later := later)
      (earlier := earlier ++ [b]) (before := before) (by simpa using h)
    simp only [List.append_assoc, List.cons_append] at ih ⊢
    simp only [readyEvents]
    split
    · exact List.mem_cons_of_mem _ ih
    · exact ih

/-- Consuming an event takes that event out of the waiting ones, and loses no other (R31). -/
theorem consume_keeps_others {s : State} {e : Event} {rest : List Event} (h : .consume e rest ∈ moves s) :
    ∃ before later, s.inq = before ++ e :: later ∧ rest = before ++ later := by
  by_cases ht : s.cfg.transport = .tcp
  · obtain ⟨before, later, hi, hr, _⟩ := consume_tcp h ht
    exact ⟨before, later, hi, hr⟩
  · exact ⟨[], rest, (consume_serial h ht).2, rfl⟩

/-- The only event that an executing session consumes is PeerClose (R31, R158). -/
theorem overtakes_of_busy {s : State} {before : List Event} {e : Event}
    (h : eventReady s before e = true) (hb : sessionBusy s e = true) : overtakes e = true := by
  simp only [eventReady, hb, Bool.not_true, Bool.and_false, Bool.or_false, Bool.and_eq_true] at h
  exact h.1

/-- A session that receives a byte does not execute. -/
theorem idle_of_ready_rx {s : State} {before : List Event} {k : Nat} {b : Byte}
    (h : eventReady s before (.sessRxByte k b) = true) : s.xqOf (.session k) = none := by
  simp only [eventReady, overtakes, sessionBusy, eventSession, Bool.false_or, Bool.and_eq_true,
    Bool.not_eq_true'] at h
  simpa using h.1.2

/-! ### Steps -/

/-- A PDU with a function code is never rejected for having none. -/
theorem decodePayload_ne_noFunctionCode (fc : Byte) (p : List Byte) :
    decodePayload fc p ≠ .error .noFunctionCode := by
  have two (mk) : decodeTwoWords fc mk p ≠ .error .noFunctionCode := by
    unfold decodeTwoWords; split <;> simp
  have empty (i) : decodeEmpty fc i p ≠ .error .noFunctionCode := by
    unfold decodeEmpty; split <;> simp
  have coils : decodeWrCoils fc p ≠ .error .noFunctionCode := by
    unfold decodeWrCoils; split <;> [split; skip] <;> simp
  have regs : decodeWrRegs fc p ≠ .error .noFunctionCode := by
    unfold decodeWrRegs; split <;> [(split <;> [split; skip]); skip] <;> simp
  have rdFile : decodeRdFile fc p ≠ .error .noFunctionCode := by
    unfold decodeRdFile; split <;> [(split <;> [split; skip]); skip] <;> simp
  have wrFile : decodeWrFile fc p ≠ .error .noFunctionCode := by
    unfold decodeWrFile; split <;> [(split <;> [split; skip]); skip] <;> simp
  have devId : decodeDevId fc p ≠ .error .noFunctionCode := by
    unfold decodeDevId; split <;> [skip; (split <;> [split; skip])] <;> simp
  have ite (c : Prop) [Decidable c] (x y : Except DecodeError Instr) (hx : x ≠ .error .noFunctionCode)
      (hy : y ≠ .error .noFunctionCode) : (if c then x else y) ≠ .error .noFunctionCode := by
    split <;> assumption
  unfold decodePayload
  refine ite _ _ _ (two _) (ite _ _ _ (two _) (ite _ _ _ (two _) (ite _ _ _ (two _)
    (ite _ _ _ (two _) (ite _ _ _ (two _) (ite _ _ _ (empty _) (ite _ _ _ coils (ite _ _ _ regs
    (ite _ _ _ (empty _) (ite _ _ _ rdFile (ite _ _ _ wrFile (ite _ _ _ devId ?_))))))))))))
  simp

/-- What is done with the PDU of a request that is for this slave. -/
theorem serve_eq {pdu : List Byte} (h : pdu ≠ []) (s : State) :
    ∃ fc plan, serve pdu s = execRequest fc plan s ∧
      ∀ t, isRegistered s.cfg t = true → ∀ op ∈ planOps (plan t), opInRange s.cfg op = true := by
  unfold serve
  split
  · rename_i i _
    exact ⟨_, _, exec_eq_execRequest i s, fun t ht => planOf_inRange ht i⟩
  · rename_i e hd
    cases e with
    | noFunctionCode =>
      cases pdu with
      | nil => exact absurd rfl h
      | cons fc p => exact absurd hd (decodePayload_ne_noFunctionCode fc p)
    | illegalFunction fc => exact ⟨fc, _, rfl, fun _ _ _ ho => by simp [planOps] at ho⟩
    | illegalDataValue fc => exact ⟨fc, _, rfl, fun _ _ _ ho => by simp [planOps] at ho⟩

/-- A request that passes the address filter is a broadcast or names a registered address (R178). -/
theorem addressFilter_none {cfg : Config} {a : Byte} (h : addressFilter cfg a = none) :
    a = 0 ∨ isRegistered cfg a = true := by
  unfold addressFilter at h
  split at h
  · exact .inl ‹_›
  · split at h
    · cases h
    · split at h
      · exact .inr ‹_›
      · cases h

/-- Every way a step can go: a machine outside its legal parameters is refused, a machine with no move
holds its state, an agent performs an operation, or an event is consumed; a complete frame that is for this
slave is executed, another one dropped. -/
theorem step_cases (s : State) :
    (configLegal s.cfg = false ∧ step s = .refused .illegalConfiguration) ∨
    (configLegal s.cfg = true ∧
      ((pick (moves s) (Config.schedule s.draws) = none ∧ step s = .next s) ∨
       (∃ a, pick (moves s) (Config.schedule s.draws) = some (.perform a) ∧
          step s = executeStep a (s.begin s.inq)) ∨
       (∃ e rest, pick (moves s) (Config.schedule s.draws) = some (.consume e rest) ∧
          ((∃ r, receive e (s.begin rest) = .refused r ∧ step s = .refused r) ∨
           (∃ t, receive e (s.begin rest) = .quiet t ∧ step s = .next t) ∨
           (∃ r pdu u, receive e (s.begin rest) = .frame r pdu u ∧
              ((∃ reason, addressFilter u.cfg r.addr = some reason ∧
                  step s = .next (u.emit (.drop r.agent reason))) ∨
               (addressFilter u.cfg r.addr = none ∧
                  step s = serve pdu { u with req := some r }))))))) := by
  cases hc : configLegal s.cfg with
  | false => exact .inl ⟨rfl, by simp [step, fetch, hc]⟩
  | true =>
    refine .inr ⟨rfl, ?_⟩
    cases hp : pick (moves s) (Config.schedule s.draws) with
    | none => exact .inl ⟨rfl, by simp [step, fetch, hc, hp, makeMove]⟩
    | some m =>
      refine .inr ?_
      cases m with
      | perform a => exact .inl ⟨a, rfl, by simp [step, fetch, hc, hp, makeMove]⟩
      | consume e rest =>
        refine .inr ⟨e, rest, rfl, ?_⟩
        cases hr : receive e (s.begin rest) with
        | refused r =>
          exact .inl ⟨r, rfl, by simp [step, fetch, hc, hp, makeMove, hr, afterReceive]⟩
        | quiet t =>
          exact .inr (.inl ⟨t, rfl, by simp [step, fetch, hc, hp, makeMove, hr, afterReceive]⟩)
        | frame r pdu u =>
          refine .inr (.inr ⟨r, pdu, u, rfl, ?_⟩)
          cases ha : addressFilter u.cfg r.addr with
          | some reason =>
            exact .inl ⟨reason, rfl,
              by simp [step, fetch, hc, hp, makeMove, hr, afterReceive, filterRequest, ha]⟩
          | none =>
            exact .inr ⟨rfl, by simp [step, fetch, hc, hp, makeMove, hr, afterReceive, filterRequest, ha]⟩

end Sys2Proof.Machine
end

