-- ==== Sys2Proof/Tests/Slice0.lean ====
section
/-! SUPPORT. Tests of the model, with expected results from the worked examples of spec/ (95_test_vectors and
the examples of the rules), and witnesses for the hypotheses of the obligations. -/

namespace Sys2Proof.Tests

-- One theorem after the other: evaluations in the kernel that wait for one another take a thread each.
set_option Elab.async false

open Sys2Proof Sys2Proof.Machine Sys2Proof.Safety

/-! ### Helpers -/

/-- The configuration of 95_test_vectors section 0, with the identification data of its section 10. -/
def cfgOf (tr : Transport) : Config :=
  { Config.default with
    transport := tr
    excStatus := [(1, 0x6D)]
    slaveId := [(1, [0x44, 0x53, 0xFF])]
    devId := [((1, 0), [0x41, 0x43, 0x4D, 0x45]), ((1, 128), [0x58])] }

/-- A port of a transport with events waiting. -/
def port (tr : Transport) (es : List Event) : State := { State.boot (cfgOf tr) with inq := es }

/-- A TCP block with session 0 open and events waiting. -/
def tcpPort (buf : List Byte) (xq : Option Xq) (es : List Event) : State :=
  { port .tcp es with sess := [(0, ⟨buf, xq⟩)], nextSess := 1 }

/-- A request from the serial port to an address. -/
def request (a : Byte) : Request := ⟨.serial, a, none⟩

/-- An RTU block of configuration `cfg` and storage `m` with a request to address `a` in the dispatcher. -/
def holdingOf (cfg : Config) (m : Memory) (a : Byte) : State :=
  { State.boot cfg with mem := m, req := some (request a) }

/-- The same with the configuration of the tests and all storage zero. -/
def holding (a : Byte) : State := holdingOf (cfgOf .rtu) [] a

/-- 95_test_vectors section 0: "coil setup". -/
def coilSetup (cfg : Config) : Memory :=
  writeBits cfg [] 1 .coils 0 [true, false, true, true, false, false, true, true, true, false]

/-- 95_test_vectors section 0: "register setup". -/
def registerSetup (cfg : Config) : Memory := writeWords cfg [] 1 .holding 1 [0x000A, 0x0102]

/-- The next state of an outcome. -/
def nextOf (o : Host.Outcome State Fault Refusal) : Option State :=
  match o with
  | .next t => some t
  | .fault _ => none
  | .refused _ => none

/-- What a unicast request to address 1 comes to in `n` storage operations: its outputs and the storage. -/
def served (cfg : Config) (m : Memory) (i : Instr) (n : Nat) : Option (List Output × Memory) :=
  ((nextOf (exec i (holdingOf cfg m 1))).bind (performAll .serial n)).map fun t => (t.out, t.mem)

/-- The outputs of a request, and what the words of HOLDING from an offset on hold after it. -/
def servedWords (cfg : Config) (m : Memory) (i : Instr) (n off k : Nat) :
    Option (List Output × List Word) :=
  (served cfg m i n).map fun p => (p.1, readWords cfg p.2 1 .holding off k)

/-- The outputs of a request, and what the coils from an offset on hold after it. -/
def servedCoils (cfg : Config) (m : Memory) (i : Instr) (n off k : Nat) :
    Option (List Output × List Bool) :=
  (served cfg m i n).map fun p => (p.1, readBits cfg p.2 1 .coils off k)

/-- A response of address 1 on the serial port. -/
def reply (pdu : List Byte) : List Output := [.tx .serial (rtuEncode 1 pdu)]

theorem exists_next {o : Host.Outcome State Fault Refusal} (h : (nextOf o).isSome = true) :
    ∃ t, o = .next t := by
  cases o with
  | next t => exact ⟨t, rfl⟩
  | fault r => cases h
  | refused r => cases h

/-! ### Well-formed instructions (R74) -/

theorem test_wrCoils_too_long_refused :
    Instr.wellFormed (.wrCoils 0 0 (List.replicate 248 0)) = false := by decide +kernel
theorem test_wrRegs_too_long_refused :
    Instr.wellFormed (.wrRegs 0 0 (List.replicate 124 0)) = false := by decide +kernel
theorem test_rdFile_too_long_refused :
    Instr.wellFormed (.rdFile (List.replicate 36 ⟨6, 4, 0, 1⟩)) = false := by decide +kernel
theorem test_wrFile_too_long_refused :
    Instr.wellFormed (.wrFile [⟨6, 4, 0, List.replicate 123 0⟩]) = false := by decide +kernel
/-- The largest FC 21 PDU (RTU14): one sub-request of 122 words, 253 bytes. -/
theorem test_largest_wrFile_accepted :
    Instr.wellFormed (.wrFile [⟨6, 4, 0, List.replicate 122 0⟩]) = true := by decide +kernel

/-! ### Decoding, one word for each constructor, written from the layouts of R76 -/

/-- R200's example. -/
theorem test_decode_rdCoils : decode [0x01, 0x00, 0x00, 0x00, 0x0A] = .ok (.rdCoils 0 10) := by rfl
/-- R201's example. -/
theorem test_decode_rdDiscretes : decode [0x02, 0x00, 0x00, 0x00, 0x0A] = .ok (.rdDiscretes 0 10) := by rfl
/-- R83's example. -/
theorem test_decode_rdHolding : decode [0x03, 0x00, 0x00, 0x00, 0x0A] = .ok (.rdHolding 0 10) := by rfl
/-- R226's example. -/
theorem test_decode_rdInput : decode [0x04, 0x00, 0x01, 0x00, 0x01] = .ok (.rdInput 1 1) := by rfl
/-- R202's example, which R83 also writes as COIL_ON. -/
theorem test_decode_wrCoil : decode [0x05, 0x00, 0x03, 0xFF, 0x00] = .ok (Instr.coilOn 3) := by rfl
/-- R227's example. -/
theorem test_decode_wrReg : decode [0x06, 0x00, 0x01, 0x00, 0x03] = .ok (.wrReg 1 3) := by rfl
/-- R275's example. -/
theorem test_decode_rdExcStatus : decode [0x07] = .ok .rdExcStatus := by rfl
/-- R203's example. -/
theorem test_decode_wrCoils :
    decode [0x0F, 0x00, 0x00, 0x00, 0x0A, 0x02, 0xCD, 0x01] = .ok (.wrCoils 0 10 [0xCD, 0x01]) := by rfl
/-- R228's example. -/
theorem test_decode_wrRegs :
    decode [0x10, 0x00, 0x01, 0x00, 0x02, 0x04, 0x00, 0x0A, 0x01, 0x02] =
      .ok (.wrRegs 1 2 [0x000A, 0x0102]) := by rfl
/-- R276's example. -/
theorem test_decode_reportSlaveId : decode [0x11] = .ok .reportSlaveId := by rfl
/-- R250's example. -/
theorem test_decode_rdFile :
    decode [0x14, 0x07, 0x06, 0x00, 0x04, 0x00, 0x01, 0x00, 0x02] = .ok (.rdFile [⟨6, 4, 1, 2⟩]) := by rfl
/-- R251's example. -/
theorem test_decode_wrFile :
    decode [0x15, 0x0D, 0x06, 0x00, 0x04, 0x00, 0x07, 0x00, 0x03, 0x06, 0xAF, 0x04, 0xBE, 0x10, 0x0D] =
      .ok (.wrFile [⟨6, 4, 7, [0x06AF, 0x04BE, 0x100D]⟩]) := by rfl
/-- R277's example. -/
theorem test_decode_rdDevId : decode [0x2B, 0x0E, 0xC8] = .ok (.rdDevId 200) := by rfl
/-- FILE15: truncated data. -/
theorem test_decode_truncated_wrFile :
    decode [0x15, 0x0B, 0x06, 0x00, 0x04, 0x00, 0x07, 0x00, 0x03, 0x06, 0xAF, 0x04, 0xBE] =
      .error (.illegalDataValue 0x15) := by rfl
/-- FILE7: a byte count that is no multiple of 7. -/
theorem test_decode_rdFile_count_8 :
    decode [0x14, 0x08, 0x06, 0x00, 0x04, 0x00, 0x01, 0x00, 0x02, 0x00] =
      .error (.illegalDataValue 0x14) := by rfl
/-- The opcode table's row RD_DEVID, whose fixed bytes are 2B 0E. -/
theorem test_table_word_rdDevId : decodeTableWord 16 0x2B0E = some (.rdDevId 0) := by rfl
/-- The opcode table's row WR_FILE. -/
theorem test_table_word_wrFile : decodeTableWord 8 0x15 = some (.wrFile []) := by rfl

/-! ### Checksums and encoders (95_test_vectors section 2) -/

/-- CRC5 and CRC9. -/
theorem test_crc : crc16 [0x01, 0x03, 0x00, 0x00, 0x00, 0x0A] = 0xCDC5 ∧
    crc16 [0x31, 0x32, 0x33, 0x34, 0x35, 0x36, 0x37, 0x38, 0x39] = 0x4B37 := by decide +kernel
/-- LRC4 and LRC9. -/
theorem test_lrc : lrc [0x80, 0x80] = 0x00 ∧
    lrc [0x01, 0x10, 0x00, 0x01, 0x00, 0x02, 0x04, 0x00, 0x0A, 0x01, 0x02] = 0xDB := by decide +kernel
/-- ENC1, and the example of R159. -/
theorem test_encoders :
    rtuEncode 1 [0x83, 0x02] = [0x01, 0x83, 0x02, 0xC0, 0xF1] ∧
    asciiEncode 1 [0x83, 0x02] =
      [0x3A, 0x30, 0x31, 0x38, 0x33, 0x30, 0x32, 0x37, 0x41, 0x0D, 0x0A] ∧
    tcpEncode ⟨0x1234, 1⟩ [0x83, 0x02] = [0x12, 0x34, 0x00, 0x00, 0x00, 0x03, 0x01, 0x83, 0x02] := by
  decide +kernel

/-! ### Instructions -/

/-- R200's example. -/
theorem test_rdCoils : served (cfgOf .rtu) (coilSetup (cfgOf .rtu)) (.rdCoils 0 10) 1 =
    some (reply [0x01, 0x02, 0xCD, 0x01], coilSetup (cfgOf .rtu)) := by decide +kernel
/-- R182's corner case: count 0 out of range gives code 3, not 2. -/
theorem test_rdCoils_value_before_range : served (cfgOf .rtu) [] (.rdCoils 0xFFFF 0) 0 =
    some (reply [0x81, 0x03], []) := by decide +kernel
/-- R201's example. -/
theorem test_rdDiscretes_shared : served (cfgOf .rtu) (coilSetup (cfgOf .rtu)) (.rdDiscretes 0 10) 1 =
    some (reply [0x02, 0x02, 0xCD, 0x01], coilSetup (cfgOf .rtu)) := by decide +kernel
/-- R201's corner case: with SHARED_SPACES false every read returns zeros. -/
theorem test_rdDiscretes_not_shared :
    (served { cfgOf .rtu with sharedSpaces := false } (coilSetup (cfgOf .rtu)) (.rdDiscretes 0 10) 1).map
      Prod.fst = some (reply [0x02, 0x02, 0x00, 0x00]) := by decide +kernel
/-- S9, the response on the wire. -/
theorem test_rdHolding_wire :
    (served (cfgOf .rtu) (registerSetup (cfgOf .rtu)) (.rdHolding 1 2) 1).map Prod.fst =
      some [.tx .serial [0x01, 0x03, 0x04, 0x00, 0x0A, 0x01, 0x02, 0x5A, 0x60]] := by decide +kernel
/-- S2: offset 65535, count 2. -/
theorem test_rdHolding_range : served (cfgOf .rtu) [] (.rdHolding 0xFFFF 2) 0 =
    some (reply [0x83, 0x02], []) := by decide +kernel
/-- R226: with SHARED_SPACES true the HOLDING elements. -/
theorem test_rdInput :
    (served (cfgOf .rtu) (registerSetup (cfgOf .rtu)) (.rdInput 2 1) 1).map Prod.fst =
      some (reply [0x04, 0x02, 0x01, 0x02]) := by decide +kernel
/-- R225's corner case: 126 registers are too many. -/
theorem test_rdInput_quantity : served (cfgOf .rtu) [] (.rdInput 0 126) 0 =
    some (reply [0x84, 0x03], []) := by decide +kernel
/-- R202's example. -/
theorem test_wrCoil : servedCoils (cfgOf .rtu) [] (.wrCoil 3 0xFF00) 1 2 3 =
    some (reply [0x05, 0x00, 0x03, 0xFF, 0x00], [false, true, false]) := by decide +kernel
/-- R202's corner case. -/
theorem test_wrCoil_value : served (cfgOf .rtu) [] (.wrCoil 3 0x00FF) 0 =
    some (reply [0x85, 0x03], []) := by decide +kernel
/-- R227's example. -/
theorem test_wrReg : servedWords (cfgOf .rtu) [] (.wrReg 1 0x1203) 1 0 3 =
    some (reply [0x06, 0x00, 0x01, 0x12, 0x03], [0, 0x1203, 0]) := by decide +kernel
/-- R227's corner case: START_REF_BIAS 0, start 0. -/
theorem test_wrReg_bias_zero : served { cfgOf .rtu with startRefBias := 0 } [] (.wrReg 0 1) 0 =
    some (reply [0x86, 0x02], []) := by decide +kernel
/-- R275's example, with the CRC of P4. -/
theorem test_rdExcStatus : served (cfgOf .rtu) [] .rdExcStatus 0 =
    some ([.tx .serial [0x01, 0x07, 0x6D, 0xE3, 0xDD]], []) := by decide +kernel
/-- R203's example. -/
theorem test_wrCoils : servedCoils (cfgOf .rtu) [] (.wrCoils 0 10 [0xCD, 0x01]) 1 0 11 =
    some (reply [0x0F, 0x00, 0x00, 0x00, 0x0A],
      [true, false, true, true, false, false, true, true, true, false, false]) := by decide +kernel
/-- S2: coils 1991 to 2000. -/
theorem test_wrCoils_range : served (cfgOf .rtu) [] (.wrCoils 0x07C7 10 [0xCD, 0x01]) 0 =
    some (reply [0x8F, 0x02], []) := by decide +kernel
/-- R228's example. -/
theorem test_wrRegs : servedWords (cfgOf .rtu) [] (.wrRegs 1 2 [0x000A, 0x0102]) 1 0 4 =
    some (reply [0x10, 0x00, 0x01, 0x00, 0x02], [0, 0x000A, 0x0102, 0]) := by decide +kernel
/-- S2: registers 65535 and 65536. -/
theorem test_wrRegs_range : served (cfgOf .rtu) [] (.wrRegs 0xFFFF 2 [1, 2]) 0 =
    some (reply [0x90, 0x02], []) := by decide +kernel
/-- R276's example, with the CRC of P4. -/
theorem test_reportSlaveId : served (cfgOf .rtu) [] .reportSlaveId 0 =
    some ([.tx .serial [0x01, 0x11, 0x03, 0x44, 0x53, 0xFF, 0xC1, 0x28]], []) := by decide +kernel
/-- FILE3: two sub-requests. -/
theorem test_rdFile :
    (served (cfgOf .rtu) (registerSetup (cfgOf .rtu)) (.rdFile [⟨6, 4, 1, 1⟩, ⟨6, 3, 2, 1⟩]) 2).map
      Prod.fst = some (reply [0x14, 0x08, 0x03, 0x06, 0x00, 0x0A, 0x03, 0x06, 0x01, 0x02]) := by
  decide +kernel
/-- FILE12: refType 7 and out of range, class 3 wins. -/
theorem test_rdFile_class_three_first : served (cfgOf .rtu) [] (.rdFile [⟨7, 4, 0xFFFF, 2⟩]) 0 =
    some (reply [0x94, 0x03], []) := by decide +kernel
/-- FILE13. -/
theorem test_wrFile :
    servedWords (cfgOf .rtu) [] (.wrFile [⟨6, 4, 7, [0x06AF, 0x04BE, 0x100D]⟩]) 1 6 5 =
      some (reply [0x15, 0x0D, 0x06, 0x00, 0x04, 0x00, 0x07, 0x00, 0x03, 0x06, 0xAF, 0x04, 0xBE, 0x10, 0x0D],
        [0, 0x06AF, 0x04BE, 0x100D, 0]) := by decide +kernel
/-- FILE17: out of range. -/
theorem test_wrFile_range : served (cfgOf .rtu) [] (.wrFile [⟨6, 4, 0xFFFF, [1, 2]⟩]) 0 =
    some (reply [0x95, 0x02], []) := by decide +kernel
/-- ID6. -/
theorem test_rdDevId : served (cfgOf .rtu) [] (.rdDevId 0) 0 =
    some (reply [0x2B, 0x00, 0x04, 0x41, 0x43, 0x4D, 0x45], []) := by decide +kernel
/-- ID7, the document's example. -/
theorem test_rdDevId_unknown : served (cfgOf .rtu) [] (.rdDevId 200) 0 =
    some (reply [0x2B, 0xC8, 0x00], []) := by decide +kernel

/-! ### Steps -/

/-- RTU3: a frame with a wrong CRC. -/
theorem test_step_rtu_crc :
    (nextOf (step { port .rtu [.t35] with
      rtu := ⟨.gap, [0x01, 0x03, 0x00, 0x00, 0x00, 0x01, 0x84, 0x0B], false⟩ })).map
        (fun t => (t.out, t.rtu)) = some ([.drop .serial .rtuCrc], ⟨.idle, [], false⟩) := by decide +kernel
/-- RTU10: another slave's frame. -/
theorem test_step_rtu_unregistered :
    (nextOf (step { port .rtu [.t35] with
      rtu := ⟨.gap, [0x02, 0x03, 0x00, 0x00, 0x00, 0x01, 0x84, 0x39], false⟩ })).map
        (fun t => (t.out, t.xq)) = some ([.drop .serial .addrUnregistered], none) := by decide +kernel
/-- TCP6: protocolId 1. -/
theorem test_step_tcp_protocol_id :
    (nextOf (step (tcpPort [0x00, 0x01, 0x00, 0x01, 0x00] none [.sessRxByte 0 0x06]))).map
        (fun t => (t.out, t.sess)) =
      some ([.drop (.session 0) .tcpProtocolId, .close (some 0)], []) := by decide +kernel
/-- TCP9: the smallest ADU. -/
theorem test_step_tcp_smallest :
    (nextOf (step (tcpPort [0x00, 0x05, 0x00, 0x00, 0x00, 0x02, 0x01] none [.sessRxByte 0 0x63]))).map
        (fun t => t.out) =
      some [.tx (.session 0) [0x00, 0x05, 0x00, 0x00, 0x00, 0x03, 0x01, 0xE3, 0x01]] := by decide +kernel
/-- R333: registering an address twice leaves one table. -/
theorem test_addDataTable :
    isRegistered (addDataTable (addDataTable Config.default 7) 7) 7 = true ∧
    addDataTable (addDataTable Config.default 7) 7 = addDataTable Config.default 7 := by decide +kernel
/-- The environment's events wait behind those delivered before. -/
theorem test_deliver : ((port .rtu [.t15]).deliver [.t35]).inq = [.t15, .t35] := by decide +kernel

/-! ### Witnesses: concrete states and operands that meet the hypotheses of each obligation -/

theorem unicast_holding : Unicast (holding 1) (request 1) :=
  ⟨rfl, by decide, by decide +kernel, trivial⟩

theorem broadcast_holding : Broadcast (holding 0) (request 0) := ⟨rfl, rfl, trivial⟩

theorem legal_cfgOf (tr : Transport) : configLegal (cfgOf tr) = true := by cases tr <;> decide +kernel

theorem legal_tcpPort (buf : List Byte) (xq : Option Xq) (es : List Event) :
    configLegal (tcpPort buf xq es).cfg = true := legal_cfgOf .tcp

theorem serialNext_rtu (e : Event) : SerialNext (port .rtu [e]) .rtu e [] :=
  ⟨rfl, by decide, legal_cfgOf _, rfl, rfl⟩

theorem serialNext_ascii (e : Event) : SerialNext (port .ascii [e]) .ascii e [] :=
  ⟨rfl, by decide, legal_cfgOf _, rfl, rfl⟩

/-- An RTU port with a frame in progress and one event waiting. -/
def rtuPort (rx : RtuRx) (e : Event) : State := { port .rtu [e] with rtu := rx }

/-- An ASCII port with a frame in progress and one event waiting. -/
def ascPort (rx : AscRx) (e : Event) : State := { port .ascii [e] with asc := rx }

theorem serialNext_rtuPort (rx : RtuRx) (e : Event) : SerialNext (rtuPort rx e) .rtu e [] :=
  ⟨rfl, by decide, legal_cfgOf _, rfl, rfl⟩

theorem serialNext_ascPort (rx : AscRx) (e : Event) : SerialNext (ascPort rx e) .ascii e [] :=
  ⟨rfl, by decide, legal_cfgOf _, rfl, rfl⟩

/-- A register write that waits in the execution register of the serial port of a block. -/
def writingXq (fin : Option Finish) : Xq :=
  ⟨1, 0x06, none, [.writeWords 1 .holding 1 [3]], [], fin⟩

/-- A serial port that executes. -/
def executing (fin : Option Finish) : State := { port .rtu [] with xq := some (writingXq fin) }

theorem executing_inv : Inv (executing none) where
  rtu := ⟨by decide, by decide, by decide⟩
  asc := ⟨by decide, by decide⟩
  sess := ⟨by decide, by decide, by simp [executing, port, State.boot], by simp [executing, port, State.boot]⟩
  xq := by
    intro y hy
    cases hy
    refine ⟨by simp [writingXq], fun op hop => ?_⟩
    simp only [writingXq, List.mem_singleton] at hop
    subst hop
    decide +kernel
  mem := rfl
  req := rfl

theorem executing_exclusive : Exclusive (executing none) where
  rtu := fun h => absurd rfl h
  asc := fun _ => rfl
  sess := fun _ => ⟨rfl, rfl⟩
  xq := fun h => by cases h
  serialIdle := fun _ => ⟨rfl, rfl⟩
  sessIdle := fun p hp => by cases hp

theorem executing_next : ∃ t, step (executing none) = .next t := exists_next (by decide +kernel)

theorem witness_EveryStepKeepsInvariant :
    ∃ s t, Inv s ∧ step s = .next t :=
  ⟨_, executing_next.choose, executing_inv, executing_next.choose_spec⟩

theorem witness_EveryStepKeepsExclusiveReceivers :
    ∃ s t, Inv s ∧ Exclusive s ∧ step s = .next t :=
  ⟨_, executing_next.choose, executing_inv, executing_exclusive, executing_next.choose_spec⟩

theorem witness_NoStepFaultsUnderInvariant : Inv (executing none) := executing_inv

/-- The hypothesis of NoStepWritesConfiguration, StorageChangesOnlyByQueuedOperations,
StepAddsAtMostOneTransmission, SessionIdentifiersAreNeverReused and the last clause of
ExecutingSessionConsumesOnlyPeerClose. -/
theorem witness_step_next : ∃ s t, step s = .next t := ⟨_, executing_next⟩

theorem witness_TimeoutStatusExactlyOnActivityTimeout :
    ∃ t, configLegal (port .rtu [.actTimeout]).cfg = true ∧
      pick (moves (port .rtu [.actTimeout])) (Config.schedule (port .rtu [.actTimeout]).draws) =
        some (.consume .actTimeout []) ∧
      step (port .rtu [.actTimeout]) = .next t := by
  obtain ⟨t, h⟩ := exists_next (o := step (port .rtu [.actTimeout])) (by decide +kernel)
  exact ⟨t, by decide +kernel, rfl, h⟩

theorem witness_TimeoutStatus_other_event :
    ∃ t, configLegal (port .rtu [.t15]).cfg = true ∧
      pick (moves (port .rtu [.t15])) (Config.schedule (port .rtu [.t15]).draws) =
        some (.consume .t15 []) ∧
      step (port .rtu [.t15]) = .next t := by
  obtain ⟨t, h⟩ := exists_next (o := step (port .rtu [.t15])) (by decide +kernel)
  exact ⟨t, by decide +kernel, rfl, h⟩

theorem witness_ExecutingSerialAgentConsumesNoEvent :
    configLegal (executing none).cfg = true ∧ (executing none).cfg.transport ≠ .tcp ∧
      (executing none).xq = some (writingXq none) ∧ ∃ t, step (executing none) = .next t :=
  ⟨by decide +kernel, by decide, rfl, executing_next⟩

/-- A session that executes with no event waiting, and one with bytes before and behind its PeerClose. -/
theorem witness_ExecutingSessionConsumesOnlyPeerClose :
    (configLegal (tcpPort [] (some (writingXq none)) []).cfg = true ∧
      pick (moves (tcpPort [] (some (writingXq none)) []))
          (Config.schedule (tcpPort [] (some (writingXq none)) []).draws) =
        some (.perform (.session 0))) ∧
    ((tcpPort [] (some (writingXq none)) [.sessRxByte 0 1, .peerClose 0, .idleTimeout 0]).cfg.transport = .tcp ∧
      (tcpPort [] (some (writingXq none)) [.sessRxByte 0 1, .peerClose 0, .idleTimeout 0]).session 0 =
        some ⟨[], some (writingXq none)⟩ ∧ some (writingXq none) ≠ none ∧
      eventSession (.peerClose 0) = some 0 ∧
      .consume (.peerClose 0) [.sessRxByte 0 1, .idleTimeout 0] ∈
        moves (tcpPort [] (some (writingXq none)) [.sessRxByte 0 1, .peerClose 0, .idleTimeout 0])) :=
  ⟨⟨legal_tcpPort _ _ _, rfl⟩, by decide +kernel⟩

theorem witness_DecodeOfEncodeIsTheInstruction :
    Instr.wellFormed (.wrFile [⟨6, 4, 0, List.replicate 122 0⟩]) = true := by decide +kernel

theorem witness_EncodeOfDecodeIsThePdu :
    ([0x2B, 0x0E, 0xC8] : List Byte).length ≤ pduMax ∧ decode [0x2B, 0x0E, 0xC8] = .ok (.rdDevId 200) :=
  ⟨by decide, rfl⟩

theorem witness_UnsupportedFunctionCodesGetException1 :
    Unicast (holding 1) (request 1) ∧
      (0x08 : Byte) ∉ ([0x01, 0x02, 0x03, 0x04, 0x05, 0x06, 0x07, 0x0F, 0x10, 0x11, 0x14, 0x15, 0x2B] :
        List Byte) ∧
      (0x83 : Byte) ∉ ([0x01, 0x02, 0x03, 0x04, 0x05, 0x06, 0x07, 0x0F, 0x10, 0x11, 0x14, 0x15, 0x2B] :
        List Byte) :=
  ⟨unicast_holding, by decide, by decide⟩

theorem witness_DeviceIdentificationSubFunctionErrors :
    Unicast (holding 1) (request 1) ∧ (0x0D : Byte) ≠ 0x0E ∧ ([] : List Byte).length ≠ 1 ∧
      ([0x01, 0x00] : List Byte).length ≠ 1 :=
  ⟨unicast_holding, by decide, by decide, by decide⟩

/-- One payload for each clause: one byte from a length that fits; the lengths that fit of FC 16 with one byte,
FC 20 with a count of 8 (FILE7) and FC 21 with a header and with data cut off (FILE15). -/
theorem witness_WrongPayloadLengthGetsException3 :
    Unicast (holding 1) (request 1) ∧
    ((0x06 : Byte) ∈ ([0x01, 0x02, 0x03, 0x04, 0x05, 0x06] : List Byte) ∧
      ([0, 0, 0] : List Byte).length ≠ 4) ∧
    ((0x11 : Byte) ∈ ([0x07, 0x11] : List Byte) ∧ ([0] : List Byte).length ≠ 0) ∧
    ((0x0F : Byte) ∈ ([0x0F, 0x10] : List Byte) ∧ ([0, 0, 0, 1] : List Byte).length < 5) ∧
    ((0x10 : Byte) ∈ ([0x0F, 0x10] : List Byte) ∧
      ([0, 0, 0, 1, 2, 0] : List Byte).length ≠ 5 + (([0, 0, 0, 1, 2, 0] : List Byte).getD 4 0).toNat) ∧
    ((0x15 : Byte) ∈ ([0x14, 0x15] : List Byte) ∧ ([] : List Byte).length < 1) ∧
    ((0x14 : Byte) ∈ ([0x14, 0x15] : List Byte) ∧
      ([7, 6, 0, 4, 0, 1, 0] : List Byte).length ≠
        1 + (([7, 6, 0, 4, 0, 1, 0] : List Byte).getD 0 0).toNat) ∧
    (([0, 1, 0, 1, 1, 0] : List Byte).getD 4 0).toNat % 2 = 1 ∧
    (([8, 6, 0, 4, 0, 1, 0, 2, 0] : List Byte).getD 0 0).toNat % 7 ≠ 0 ∧
    (([6, 6, 0, 4, 0, 7, 0] : List Byte).drop 1 =
        ([] : List WriteSub).flatMap encodeWriteSub ++ [6, 0, 4, 0, 7, 0] ∧
      ([6, 0, 4, 0, 7, 0] : List Byte).length < 7) ∧
    (([18, 6, 0, 4, 0, 7, 0, 1, 0, 9, 6, 0, 4, 0, 7, 0, 1, 0xAF] : List Byte).drop 1 =
        ([⟨6, 4, 7, [9]⟩] : List WriteSub).flatMap encodeWriteSub ++ [6, 0, 4, 0, 7, 0, 1, 0xAF] ∧
      (∀ u ∈ ([⟨6, 4, 7, [9]⟩] : List WriteSub), u.data.length < 65536) ∧
      ([6, 0, 4, 0, 7, 0, 1, 0xAF] : List Byte).length <
        7 + 2 * (wordAt [6, 0, 4, 0, 7, 0, 1, 0xAF] 5).toNat) ∧
    (∀ i, decode [0x10, 0, 1, 0, 1, 1, 0] ≠ .ok i) :=
  ⟨unicast_holding, by decide, by decide, by decide, by decide, by decide, by decide, by decide, by decide,
    by decide, by decide, fun i h => by cases h⟩

/-- An RTU port at the end of a frame that holds a PDU. -/
def rtuComplete (a : Byte) (pdu : List Byte) : State := rtuPort ⟨.gap, rtuEncode a pdu, false⟩ .t35

/-- A good frame reaches the decoder. -/
theorem fetch_rtuComplete (a : Byte) (pdu : List Byte)
    (h : rtuDecode (rtuEncode a pdu) false = .ok (a, pdu)) (ha : addressFilter (cfgOf .rtu) a = none) :
    fetch (rtuComplete a pdu) = .request pdu
      { (rtuComplete a pdu).begin [] with rtu := rtuIdle, req := some ⟨.serial, a, none⟩ } := by
  have h1 : configLegal (rtuComplete a pdu).cfg = true := legal_cfgOf .rtu
  have h2 : pick (moves (rtuComplete a pdu)) (Config.schedule (rtuComplete a pdu).draws) =
      some (.consume .t35 []) := rfl
  have h3 : receive .t35 ((rtuComplete a pdu).begin []) =
      .frame ⟨.serial, a, none⟩ pdu (((rtuComplete a pdu).begin []).setRtu rtuIdle) := by
    show rtuFrameEnd ((rtuComplete a pdu).begin []) = _
    unfold rtuFrameEnd
    rw [show rtuDecode ((rtuComplete a pdu).begin []).rtu.buf ((rtuComplete a pdu).begin []).rtu.ovf =
      .ok (a, pdu) from h]
  unfold fetch
  rw [h1, h2]
  simp only [if_true, makeMove, h3, afterReceive, filterRequest]
  rw [show addressFilter (((rtuComplete a pdu).begin []).setRtu rtuIdle).cfg a = none from ha]
  rfl

/-- RD_EXC_STATUS, and function code 0x63, which is no instruction. -/
theorem witness_StepRunsDecodedInstruction :
    (∃ t, fetch (rtuComplete 1 [0x07]) = .request [0x07] t) ∧ decode [0x07] = .ok .rdExcStatus ∧
    (∃ t, fetch (rtuComplete 1 [0x63]) = .request [0x63] t) ∧
      decode [0x63] = .error (.illegalFunction 0x63) :=
  ⟨⟨_, fetch_rtuComplete 1 [0x07] (by decide +kernel) (by decide +kernel)⟩, rfl,
    ⟨_, fetch_rtuComplete 1 [0x63] (by decide +kernel) (by decide +kernel)⟩, rfl⟩

theorem witness_RtuFrameRunsItsInstruction :
    (∀ pdu, SerialNext (rtuComplete 1 pdu) .rtu .t35 [] ∧ (rtuComplete 1 pdu).rtu.st ≠ .idle ∧
      (rtuComplete 1 pdu).rtu.ovf = false ∧ (rtuComplete 1 pdu).rtu.buf = rtuEncode 1 pdu ∧
      addressFilter (rtuComplete 1 pdu).cfg 1 = none) ∧
    (1 ≤ (encode .rdExcStatus).length ∧ Instr.rdExcStatus.wellFormed = true) ∧
    (1 ≤ ([0x63] : List Byte).length ∧ decode [0x63] = .error (.illegalFunction 0x63)) :=
  ⟨fun _ => ⟨serialNext_rtuPort _ _, by simp [rtuComplete, rtuPort], rfl, rfl,
    show addressFilter (cfgOf .rtu) 1 = none by decide +kernel⟩, ⟨by decide, rfl⟩, by decide, rfl⟩

/-- An ASCII port at the end of a frame that holds a PDU. -/
def ascComplete (a : Byte) (pdu : List Byte) : State :=
  ascPort ⟨.cr, (a :: pdu ++ [lrc (a :: pdu)]).flatMap hexDigits⟩ (.rxByte 0x0A)

theorem witness_AsciiFrameRunsItsInstruction :
    (∀ pdu, SerialNext (ascComplete 1 pdu) .ascii (.rxByte 0x0A) [] ∧ (ascComplete 1 pdu).asc.st = .cr ∧
      (ascComplete 1 pdu).asc.hex = (1 :: pdu ++ [lrc (1 :: pdu)]).flatMap hexDigits ∧
      addressFilter (ascComplete 1 pdu).cfg 1 = none) ∧
    (1 ≤ (encode .reportSlaveId).length ∧ Instr.reportSlaveId.wellFormed = true) ∧
    (1 ≤ ([0x63] : List Byte).length ∧ decode [0x63] = .error (.illegalFunction 0x63)) :=
  ⟨fun _ => ⟨serialNext_ascPort _ _, rfl, rfl,
    show addressFilter (cfgOf .ascii) 1 = none by decide +kernel⟩, ⟨by decide, rfl⟩, by decide, rfl⟩

/-- Session 0 but for the last byte of an ADU of one PDU byte (TCP9). -/
theorem witness_TcpFrameRunsItsInstruction :
    (∀ b, TcpNext (tcpPort [0, 5, 0, 0, 0, 2, 1] none [.sessRxByte 0 b]) (.sessRxByte 0 b) [] ∧
      (tcpPort [0, 5, 0, 0, 0, 2, 1] none [.sessRxByte 0 b]).session 0 =
        some ⟨[0, 5, 0, 0, 0, 2, 1], none⟩ ∧
      ([0, 5, 0, 0, 0, 2, 1] ++ [b] : List Byte) = tcpEncode ⟨5, 1⟩ [b] ∧
      addressFilter (tcpPort [0, 5, 0, 0, 0, 2, 1] none [.sessRxByte 0 b]).cfg 1 = none) ∧
    (encode .rdExcStatus = [0x07] ∧ 1 ≤ ([0x07] : List Byte).length ∧ ([0x07] : List Byte).length ≤ pduMax ∧
      Instr.rdExcStatus.wellFormed = true) ∧
    (1 ≤ ([0x63] : List Byte).length ∧ ([0x63] : List Byte).length ≤ pduMax ∧
      decode [0x63] = .error (.illegalFunction 0x63)) :=
  ⟨fun b => ⟨⟨rfl, legal_tcpPort _ _ _, rfl⟩, rfl,
    congrArg (· ++ [b]) (show [0, 5, 0, 0, 0, 2, 1] = toBE16 5 ++ [0, 0] ++ toBE16 2 ++ [1] by decide),
    show addressFilter (cfgOf .tcp) 1 = none by decide +kernel⟩,
    ⟨rfl, by decide, by decide, rfl⟩, by decide, by decide, rfl⟩

/-- The step clause of TcpFramerDecodesEncodedFrames: a byte of the header, the byte that completes a good
header, and the last byte but one of the ADU. -/
theorem witness_TcpFramer_incomplete :
    (TcpNext (tcpPort [0, 5] none [.sessRxByte 0 0]) (.sessRxByte 0 0) [] ∧
      (tcpPort [0, 5] none [.sessRxByte 0 0]).session 0 = some ⟨[0, 5], none⟩ ∧
      BufOk ([0, 5] ++ [0])) ∧
    (TcpNext (tcpPort [0, 5, 0, 0, 0] none [.sessRxByte 0 2]) (.sessRxByte 0 2) [] ∧
      BufOk ([0, 5, 0, 0, 0] ++ [2])) ∧
    (TcpNext (tcpPort [0, 5, 0, 0, 0, 2] none [.sessRxByte 0 1]) (.sessRxByte 0 1) [] ∧
      BufOk ([0, 5, 0, 0, 0, 2] ++ [1]) ∧ tcpExtract ([0, 5, 0, 0, 0, 2] ++ [1]) = .incomplete) :=
  ⟨⟨⟨rfl, legal_tcpPort _ _ _, rfl⟩, rfl, .inl (by decide)⟩,
    ⟨⟨rfl, legal_tcpPort _ _ _, rfl⟩, .inr (by decide)⟩,
    ⟨⟨rfl, legal_tcpPort _ _ _, rfl⟩, .inr (by decide), by decide⟩⟩

/-- The hypotheses of RtuDecodeOfEncode, AsciiReceiverDecodesEncodedFrames and TcpFramerDecodesEncodedFrames:
the shortest and the longest PDU. -/
theorem witness_codec_lengths :
    1 ≤ ([0x07] : List Byte).length ∧ 1 ≤ (List.replicate 253 (0 : Byte)).length ∧
      (List.replicate 253 (0 : Byte)).length ≤ pduMax ∧ (port .ascii []).asc.st = .hunt := by
  decide +kernel

theorem witness_HexDigitsAndLrc :
    0x41 ≤ (0x41 : Byte).toNat ∧ (0x41 : Byte).toNat ≤ 0x46 ∧
      0x41 ≤ (0x46 : Byte).toNat ∧ (0x46 : Byte).toNat ≤ 0x46 := by decide

/-- One state for each clause; the buffer is one byte short of full, and full. -/
theorem witness_RtuReceiverTakesBytesAndGaps :
    (SerialNext (rtuPort ⟨.idle, [], false⟩ (.rxByte 1)) .rtu (.rxByte 1) [] ∧
      SerialNext (rtuPort ⟨.recv, List.replicate 255 1, false⟩ (.rxByte 1)) .rtu (.rxByte 1) [] ∧
      (List.replicate 255 (1 : Byte)).length < rtuAduMax) ∧
    (SerialNext (rtuPort ⟨.recv, List.replicate 256 1, false⟩ (.rxByte 1)) .rtu (.rxByte 1) [] ∧
      rtuAduMax ≤ (List.replicate 256 (1 : Byte)).length) ∧
    SerialNext (rtuPort ⟨.gap, [1], false⟩ (.rxByte 1)) .rtu (.rxByte 1) [] ∧
    SerialNext (rtuPort ⟨.recv, [1], false⟩ .t15) .rtu .t15 [] :=
  ⟨⟨serialNext_rtuPort _ _, serialNext_rtuPort _ _, by decide +kernel⟩,
    ⟨serialNext_rtuPort _ _, by decide +kernel⟩, serialNext_rtuPort _ _, serialNext_rtuPort _ _⟩

/-- A frame of 3 bytes, one of 4 with a wrong CRC (RTU15), and one that overflowed. -/
theorem witness_RtuBadFramesAreDropped :
    (∀ rx, SerialNext (rtuPort rx .t35) .rtu .t35 []) ∧
    (rtuPort ⟨.gap, [1, 3, 0xC0], false⟩ .t35).rtu.buf.length < 4 ∧
    (4 ≤ ([1, 2, 3, 4] : List Byte).length ∧
      ([1, 2, 3, 4] : List Byte).drop 2 ≠ toLE16 (crc16 (([1, 2, 3, 4] : List Byte).take 2))) ∧
    (rtuPort ⟨.gap, List.replicate 256 1, true⟩ .t35).rtu.ovf = true :=
  ⟨fun rx => serialNext_rtuPort rx _, by decide +kernel, by decide +kernel, rfl⟩

theorem witness_SerialTimeoutDiscardsPartialFrame :
    SerialNext (rtuPort ⟨.idle, [], false⟩ .actTimeout) .rtu .actTimeout [] ∧
    SerialNext (rtuPort ⟨.recv, [1, 3, 0], false⟩ .actTimeout) .rtu .actTimeout [] ∧
    SerialNext (ascPort ⟨.hunt, []⟩ .actTimeout) .ascii .actTimeout [] ∧
    SerialNext (ascPort ⟨.body, [0, 1]⟩ .actTimeout) .ascii .actTimeout [] :=
  ⟨serialNext_rtuPort _ _, serialNext_rtuPort _ _, serialNext_ascPort _ _, serialNext_ascPort _ _⟩

/-- One byte for each clause; the digits are one short of ASCII_BODY_MAX, and ASCII_BODY_MAX. -/
theorem witness_AsciiByteInHuntAndBody :
    (∀ rx c, SerialNext (ascPort rx (.rxByte c)) .ascii (.rxByte c) []) ∧
    hexVal 0x47 = none ∧ hexVal 0x3A = none ∧ hexVal 0x0A = none ∧ hexVal 0x66 = some 15 ∧
    (List.replicate 509 (0 : Nibble)).length < asciiBodyMax ∧
    asciiBodyMax ≤ (List.replicate 510 (0 : Nibble)).length :=
  ⟨fun rx c => serialNext_ascPort rx _, by decide +kernel⟩

/-- No digit, 5 digits, and 6 digits with a wrong LRC. -/
theorem witness_AsciiBadFramesAreDropped :
    (∀ hex c, SerialNext (ascPort ⟨.cr, hex⟩ (.rxByte c)) .ascii (.rxByte c) []) ∧
    (([] : List Nibble).length % 2 = 0 ∧ ([] : List Nibble).length < 6) ∧
    ([0, 1, 0, 3, 0] : List Nibble).length % 2 = 1 ∧
    (([0, 1, 0, 7, 0, 0] : List Nibble).length % 2 = 0 ∧ 6 ≤ ([0, 1, 0, 7, 0, 0] : List Nibble).length ∧
      (hexBytes [0, 1, 0, 7, 0, 0]).getLast? ≠ some (lrc (hexBytes [0, 1, 0, 7, 0, 0]).dropLast)) :=
  ⟨fun hex c => serialNext_ascPort _ _, by decide +kernel⟩

/-- A TCP block that accepts at most one session. -/
def tcpOne (sess : List (Nat × Session)) (es : List Event) : State :=
  { port .tcp es with cfg := { cfgOf .tcp with maxSessions := some 1 }, sess := sess, nextSess := 1 }

theorem witness_AcceptOpensNextSession :
    TcpNext (tcpOne [] [.accept]) .accept [] ∧ ([] : List (Nat × Session)).length < 1 ∧
    TcpNext (tcpOne [(0, ⟨[], none⟩)] [.accept]) .accept [] ∧ 1 ≤ [((0 : Nat), (⟨[], none⟩ : Session))].length :=
  ⟨⟨rfl, by decide +kernel, rfl⟩, by decide, ⟨rfl, by decide +kernel, rfl⟩, by decide⟩

/-- Header lengths 1 and 255, and protocolId 1. -/
theorem witness_CorruptedHeaderClosesSession :
    (TcpNext (tcpPort [0, 1, 0, 0, 0] none [.sessRxByte 0 1]) (.sessRxByte 0 1) [] ∧
      (tcpPort [0, 1, 0, 0, 0] none [.sessRxByte 0 1]).session 0 = some ⟨[0, 1, 0, 0, 0], none⟩ ∧
      6 ≤ ([0, 1, 0, 0, 0] ++ [1] : List Byte).length ∧ wordAt ([0, 1, 0, 0, 0] ++ [1]) 2 = 0 ∧
      (wordAt ([0, 1, 0, 0, 0] ++ [1]) 4).toNat < 2) ∧
    (TcpNext (tcpPort [0, 1, 0, 0, 0] none [.sessRxByte 0 255]) (.sessRxByte 0 255) [] ∧
      254 < (wordAt ([0, 1, 0, 0, 0] ++ [255]) 4).toNat) ∧
    (TcpNext (tcpPort [0, 1, 0, 1, 0] none [.sessRxByte 0 6]) (.sessRxByte 0 6) [] ∧
      wordAt ([0, 1, 0, 1, 0] ++ [6]) 2 ≠ 0) :=
  ⟨⟨⟨rfl, legal_tcpPort _ _ _, rfl⟩, by decide +kernel⟩,
    ⟨⟨rfl, legal_tcpPort _ _ _, rfl⟩, by decide +kernel⟩,
    ⟨⟨rfl, legal_tcpPort _ _ _, rfl⟩, by decide +kernel⟩⟩

theorem witness_SessionTimeouts :
    (tcpPort [0, 1] none [.sessActTimeout 0]).session 0 = some ⟨[0, 1], none⟩ ∧
    TcpNext (tcpPort [0, 1] none [.sessActTimeout 0]) (.sessActTimeout 0) [] ∧
    TcpNext (tcpPort [] none [.sessActTimeout 0]) (.sessActTimeout 0) [] ∧
    TcpNext (tcpPort [0, 1] none [.idleTimeout 0]) (.idleTimeout 0) [] :=
  ⟨by decide +kernel, ⟨rfl, legal_tcpPort _ _ _, rfl⟩,
    ⟨rfl, legal_tcpPort _ _ _, rfl⟩, ⟨rfl, legal_tcpPort _ _ _, rfl⟩⟩

/-- An executing session, with a byte of it and one of another session before its PeerClose. -/
theorem witness_PeerCloseAbortsExecutingSession :
    (tcpPort [] (some (writingXq none)) [.sessRxByte 0 1, .sessRxByte 1 2, .peerClose 0]).cfg.transport = .tcp ∧
    (tcpPort [] (some (writingXq none)) [.sessRxByte 0 1, .sessRxByte 1 2, .peerClose 0]).session 0 =
      some ⟨[], some (writingXq none)⟩ ∧
    (tcpPort [] (some (writingXq none)) [.sessRxByte 0 1, .sessRxByte 1 2, .peerClose 0]).inq =
      [.sessRxByte 0 1, .sessRxByte 1 2] ++ .peerClose 0 :: [] := by decide +kernel

/-- R162, last row: while session 0 executes its byte waits, and is not lost (R31), and its PeerClose does not. -/
theorem test_moves_executing_session :
    moves (tcpPort [] (some (writingXq none)) [.sessRxByte 0 1, .peerClose 0]) =
      [.perform (.session 0), .consume (.peerClose 0) [.sessRxByte 0 1]] := by decide +kernel

/-- R161: a byte that still waits when its session is closed is an event of an absent session. -/
theorem test_moves_after_close :
    moves { port .tcp [.accept, .sessRxByte 0 1] with nextSess := 1 } =
      [.consume .accept [.sessRxByte 0 1], .consume (.sessRxByte 0 1) [.accept]] := by decide +kernel

/-- Where the session is idle its PeerClose is the only move. -/
theorem witness_PeerClose_next :
    TcpNext (tcpPort [0, 1] none [.peerClose 0]) (.peerClose 0) [] ∧
      (tcpPort [0, 1] none [.peerClose 0]).session 0 = some ⟨[0, 1], none⟩ :=
  ⟨⟨rfl, legal_tcpPort _ _ _, rfl⟩, by decide +kernel⟩

theorem witness_EventsAndConfigurationsWithoutStep :
    SerialNext (port .rtu [.accept]) .rtu .accept [] ∧
    SerialNext (port .ascii [.t15]) .ascii .t15 [] ∧
    TcpNext (tcpPort [] none [.t35]) .t35 [] ∧
    (TcpNext (tcpPort [] none [.idleTimeout 1]) (.idleTimeout 1) [] ∧
      (tcpPort [] none [.idleTimeout 1]).session 1 = none) ∧
    ({ State.reset with cfg := { cfgOf .rtu with coilCap := 0 } } : State).cfg.coilCap < 1 ∧
    2000 < ({ State.reset with cfg := { cfgOf .rtu with coilCap := 2001 } } : State).cfg.coilCap ∧
    ({ State.reset with cfg := { cfgOf .rtu with regCap := 0 } } : State).cfg.regCap < 1 ∧
    65536 < ({ State.reset with cfg := { cfgOf .rtu with regCap := 65537 } } : State).cfg.regCap ∧
    (∃ d ∈ ([(1, List.replicate 252 0)] : List (Byte × List Byte)), 251 < d.2.length) ∧
    (∃ d ∈ ([((1, 7), [])] : List ((Byte × Byte) × List Byte)), 6 < d.1.2.toNat ∧ d.1.2.toNat < 128) ∧
    (∃ d ∈ ([((1, 0), List.replicate 251 0)] : List ((Byte × Byte) × List Byte)), 250 < d.2.length) :=
  ⟨serialNext_rtu _, serialNext_ascii _, ⟨rfl, legal_tcpPort _ _ _, rfl⟩,
    ⟨⟨rfl, legal_tcpPort _ _ _, rfl⟩, by decide +kernel⟩, by decide +kernel⟩

/-- Addresses 0, 248, 247 with no table, and 1 with a table. -/
theorem witness_AddressFilterDropsForeignRequests :
    (request 0).addr = 0 ∧
    ((holding 248).cfg.transport ≠ .tcp ∧ 248 ≤ (request 248).addr.toNat ∧
      (holding 248).cfg.serialAcceptReserved = false) ∧
    ((request 247).addr ≠ 0 ∧ (request 247).addr.toNat < 248 ∧
      isRegistered (holding 247).cfg (request 247).addr = false) ∧
    ((request 1).addr ≠ 0 ∧ (request 1).addr.toNat < 248 ∧
      isRegistered (holding 1).cfg (request 1).addr = true) := by decide +kernel

/-- Its step clauses: good frames of address 2, which has no table, and of 248, which is reserved on serial. -/
theorem witness_AddressFilter_frames :
    (∀ a pdu, SerialNext (rtuComplete a pdu) .rtu .t35 [] ∧ (rtuComplete a pdu).rtu.st ≠ .idle ∧
      (rtuComplete a pdu).rtu.ovf = false ∧ (rtuComplete a pdu).rtu.buf = rtuEncode a pdu ∧
      SerialNext (ascComplete a pdu) .ascii (.rxByte 0x0A) [] ∧ (ascComplete a pdu).asc.st = .cr ∧
      (ascComplete a pdu).asc.hex = (a :: pdu ++ [lrc (a :: pdu)]).flatMap hexDigits) ∧
    (∀ tr, addressFilter (cfgOf tr) 2 = some .addrUnregistered) ∧
    addressFilter (cfgOf .rtu) 248 = some .addrReserved ∧
    addressFilter (cfgOf .ascii) 248 = some .addrReserved ∧
    addressFilter (cfgOf .tcp) 248 = some .addrUnregistered ∧
    (TcpNext (tcpPort [0, 5, 0, 0, 0, 2, 2] none [.sessRxByte 0 7]) (.sessRxByte 0 7) [] ∧
      (tcpPort [0, 5, 0, 0, 0, 2, 2] none [.sessRxByte 0 7]).session 0 =
        some ⟨[0, 5, 0, 0, 0, 2, 2], none⟩ ∧
      [0, 5, 0, 0, 0, 2, 2] ++ [7] = tcpEncode ⟨5, 2⟩ [7]) ∧
    (1 ≤ ([7] : List Byte).length ∧ ([7] : List Byte).length ≤ pduMax) :=
  ⟨fun _ _ => ⟨serialNext_rtuPort _ _, by simp [rtuComplete, rtuPort], rfl, rfl, serialNext_ascPort _ _,
      rfl, rfl⟩,
    fun tr => by cases tr <;> decide +kernel, by decide +kernel, by decide +kernel, by decide +kernel,
    ⟨⟨rfl, legal_tcpPort _ _ _, rfl⟩, rfl, rfl⟩, by decide⟩

theorem witness_ReadsCheckQuantityThenRange :
    Unicast (holding 1) (request 1) ∧ (0 : Word).toNat < 1 ∧ 2000 < (2001 : Word).toNat ∧
    125 < (126 : Word).toNat ∧
    (1 ≤ (2000 : Word).toNat ∧ (2000 : Word).toNat ≤ 2000 ∧
      rangeOK (holding 1).cfg.coilCap (startRef (holding 1).cfg 1) (2000 : Word).toNat = false) ∧
    (1 ≤ (2 : Word).toNat ∧ (2 : Word).toNat ≤ 125 ∧
      rangeOK (holding 1).cfg.regCap (startRef (holding 1).cfg 0xFFFF) (2 : Word).toNat = false) :=
  ⟨unicast_holding, by decide +kernel⟩

theorem witness_WritesCheckValueThenRange :
    Unicast (holding 1) (request 1) ∧ ((0x00FF : Word) ≠ 0xFF00 ∧ (0x00FF : Word) ≠ 0x0000) ∧
    rangeOK (holding 1).cfg.coilCap (startRef (holding 1).cfg 2000) 1 = false ∧
    rangeOK 65535 (startRef (holding 1).cfg 0xFFFF) 1 = false ∧
    1968 < (1969 : Word).toNat ∧ 123 < (124 : Word).toNat ∧
    ([0] : List Byte).length ≠ ((9 : Word).toNat + 7) / 8 ∧
    2 * ([0] : List Word).length ≠ 2 * (2 : Word).toNat ∧
    (([0] : List Byte).length = ((8 : Word).toNat + 7) / 8 ∧
      rangeOK (holding 1).cfg.coilCap (startRef (holding 1).cfg 1993) (8 : Word).toNat = false) ∧
    (([0, 0] : List Word).length = (2 : Word).toNat ∧
      rangeOK (holding 1).cfg.regCap (startRef (holding 1).cfg 0xFFFF) (2 : Word).toNat = false) :=
  ⟨unicast_holding, by decide +kernel⟩

/-- The WR_REG clause: a unicast request to a machine of 65535 registers. -/
theorem witness_WriteReg_range :
    Unicast (holdingOf { cfgOf .rtu with regCap := 65535 } [] 1) (request 1) ∧
      rangeOK (holdingOf { cfgOf .rtu with regCap := 65535 } [] 1).cfg.regCap
        (startRef (holdingOf { cfgOf .rtu with regCap := 65535 } [] 1).cfg 0xFFFF) 1 = false :=
  ⟨⟨rfl, by decide, by decide +kernel, trivial⟩, by decide +kernel⟩

theorem witness_FileFunctionsCheckEverySubRequest :
    Unicast (holding 1) (request 1) ∧
    (∃ u ∈ ([⟨6, 4, 0, 1⟩, ⟨6, 5, 0, 1⟩] : List ReadSub), u.fileNo ∉ (holding 1).cfg.fileSet) ∧
    pduMax < 2 + (([⟨6, 4, 0, 125⟩] : List ReadSub).map fun u => 2 + 2 * u.recordLen.toNat).sum ∧
    ((∀ u ∈ ([⟨6, 4, 0xFFFF, 2⟩] : List ReadSub),
        u.refType = 6 ∧ u.fileNo ∈ (holding 1).cfg.fileSet ∧ u.recordLen ≠ 0) ∧
      2 + (([⟨6, 4, 0xFFFF, 2⟩] : List ReadSub).map fun u => 2 + 2 * u.recordLen.toNat).sum ≤ pduMax ∧
      ∃ u ∈ ([⟨6, 4, 0xFFFF, 2⟩] : List ReadSub),
        rangeOK (holding 1).cfg.regCap (startRef (holding 1).cfg u.recordNo) u.recordLen.toNat = false) ∧
    (∃ u ∈ ([⟨6, 4, 0, [1]⟩, ⟨7, 4, 0, [1]⟩] : List WriteSub), u.refType ≠ 6) ∧
    ((∀ u ∈ ([⟨6, 4, 0xFFFF, [1, 2]⟩] : List WriteSub),
        u.refType = 6 ∧ u.fileNo ∈ (holding 1).cfg.fileSet ∧ u.data ≠ []) ∧
      ∃ u ∈ ([⟨6, 4, 0xFFFF, [1, 2]⟩] : List WriteSub),
        rangeOK (holding 1).cfg.regCap (startRef (holding 1).cfg u.recordNo) u.data.length = false) :=
  ⟨unicast_holding, by decide +kernel⟩

/-- A storage that may fail, with and without a response to give. -/
theorem witness_DeviceFailureEndsRequestWithException4 :
    ∀ fin, ∃ s : State, s.cfg.storageMayFail = true ∧ s.xqOf .serial = some (writingXq fin) ∧
      (writingXq fin).ops = [.writeWords 1 .holding 1 [3]] ∧
      opInRange s.cfg (.writeWords 1 .holding 1 [3]) = true :=
  fun fin => ⟨{ executing fin with cfg := { cfgOf .rtu with storageMayFail := true } }, rfl, rfl, rfl,
    show opInRange { cfgOf .rtu with storageMayFail := true } (.writeWords 1 .holding 1 [3]) = true by
      decide +kernel⟩

theorem witness_BroadcastNeverTransmits :
    (Broadcast (holding 0) (request 0) ∧ (holding 0).xqOf (request 0).agent = none) ∧
    decode [0x63] = .error (.illegalFunction 0x63) ∧
    ((executing none).xqOf .serial = some (writingXq none) ∧ (writingXq none).finish = none ∧
      ∃ t, executeStep .serial (executing none) = .next t) :=
  ⟨⟨broadcast_holding, rfl⟩, rfl, rfl, rfl, exists_next (by decide +kernel)⟩

theorem witness_BroadcastQueuesEveryRegisteredTable : Broadcast (holding 0) (request 0) :=
  broadcast_holding

theorem witness_BroadcastWriteReachesEveryTable :
    Broadcast (holding 0) (request 0) ∧ (holding 0).cfg.storageMayFail = false ∧
      configLegal (holding 0).cfg = true ∧ Memory.wf (holding 0).mem = true ∧
      rangeOK (holding 0).cfg.regCap (startRef (holding 0).cfg 0xFFFF) 1 = true ∧
      (holding 0).xqOf (request 0).agent = none ∧ broadcastTargets (holding 0).cfg ≠ [] :=
  ⟨broadcast_holding, by decide +kernel⟩

/-- The hypotheses of BitReadsAnswerPackedElements and RegisterReadsAnswerWords: the largest reads, up to the
end of each space. -/
theorem witness_reads :
    Unicast (holding 1) (request 1) ∧ deviceFails (holding 1) = false ∧
    (1 ≤ (2000 : Word).toNat ∧ (2000 : Word).toNat ≤ 2000 ∧
      rangeOK (holding 1).cfg.coilCap (startRef (holding 1).cfg 0) (2000 : Word).toNat = true) ∧
    (1 ≤ (125 : Word).toNat ∧ (125 : Word).toNat ≤ 125 ∧
      rangeOK (holding 1).cfg.regCap (startRef (holding 1).cfg 65411) (125 : Word).toNat = true) :=
  ⟨unicast_holding, rfl, by decide +kernel⟩

theorem witness_SingleWritesSetOneElementAndEcho :
    Unicast (holding 1) (request 1) ∧ deviceFails (holding 1) = false ∧
      Memory.wf (holding 1).mem = true ∧
      rangeOK (holding 1).cfg.coilCap (startRef (holding 1).cfg 1999) 1 = true ∧
      rangeOK (holding 1).cfg.regCap (startRef (holding 1).cfg 0xFFFF) 1 = true :=
  ⟨unicast_holding, rfl, rfl, by decide +kernel⟩

theorem witness_WriteCoilsSetsPackedValues :
    Unicast (holding 1) (request 1) ∧ deviceFails (holding 1) = false ∧
      Memory.wf (holding 1).mem = true ∧
      (1 ≤ (1968 : Word).toNat ∧ (1968 : Word).toNat ≤ 1968 ∧
        (List.replicate 246 (0 : Byte)).length = ((1968 : Word).toNat + 7) / 8 ∧
        rangeOK (holding 1).cfg.coilCap (startRef (holding 1).cfg 32) (1968 : Word).toNat = true) :=
  ⟨unicast_holding, rfl, rfl, by decide +kernel⟩

theorem witness_WriteRegistersSetsValues :
    Unicast (holding 1) (request 1) ∧ deviceFails (holding 1) = false ∧
      Memory.wf (holding 1).mem = true ∧
      (1 ≤ (123 : Word).toNat ∧ (123 : Word).toNat ≤ 123 ∧
        (List.replicate 123 (0 : Word)).length = (123 : Word).toNat ∧
        rangeOK (holding 1).cfg.regCap (startRef (holding 1).cfg 65413) (123 : Word).toNat = true) :=
  ⟨unicast_holding, rfl, rfl, by decide +kernel⟩

theorem witness_ReadFileAnswersEverySubRequest :
    Unicast (holding 1) (request 1) ∧ (holding 1).cfg.storageMayFail = false ∧
      (∀ u ∈ ([⟨6, 4, 0, 124⟩] : List ReadSub),
        u.refType = 6 ∧ u.fileNo ∈ (holding 1).cfg.fileSet ∧ u.recordLen ≠ 0) ∧
      2 + (([⟨6, 4, 0, 124⟩] : List ReadSub).map fun u => 2 + 2 * u.recordLen.toNat).sum ≤ pduMax ∧
      (∀ u ∈ ([⟨6, 4, 0, 124⟩] : List ReadSub),
        rangeOK (holding 1).cfg.regCap (startRef (holding 1).cfg u.recordNo) u.recordLen.toNat = true) :=
  ⟨unicast_holding, rfl, by decide +kernel⟩

theorem witness_WriteFileWritesEverySubRequestInOrder :
    Unicast (holding 1) (request 1) ∧ (holding 1).cfg.storageMayFail = false ∧
      (∀ u ∈ ([⟨6, 4, 1, [1, 2]⟩, ⟨6, 3, 2, [3]⟩] : List WriteSub),
        u.refType = 6 ∧ u.fileNo ∈ (holding 1).cfg.fileSet ∧ u.data ≠ []) ∧
      (∀ u ∈ ([⟨6, 4, 1, [1, 2]⟩, ⟨6, 3, 2, [3]⟩] : List WriteSub),
        rangeOK (holding 1).cfg.regCap (startRef (holding 1).cfg u.recordNo) u.data.length = true) :=
  ⟨unicast_holding, rfl, by decide +kernel⟩

theorem witness_IdentificationAnswersFromConfiguration :
    Unicast (holding 1) (request 1) ∧
    ((1, 0x6D) ∈ (holding 1).cfg.excStatus ∧ ∀ e ∈ (holding 1).cfg.excStatus, e.2 = 0x6D) ∧
    ((1, [0x44, 0x53, 0xFF]) ∈ (holding 1).cfg.slaveId ∧
      ∀ e ∈ (holding 1).cfg.slaveId, e.2 = [0x44, 0x53, 0xFF]) ∧
    (((1, 128), [0x58]) ∈ (holding 1).cfg.devId ∧
      ∀ e ∈ (holding 1).cfg.devId, e.1 = (1, 128) → e.2 = [0x58]) ∧
    (∀ e ∈ (holding 1).cfg.devId, e.1 ≠ (1, 200)) :=
  ⟨unicast_holding, by simp [holding, holdingOf, State.boot, cfgOf]⟩

/-- The hypotheses of ReadAfterWriteReturnsTheValues, RegisterWritesStayInTheirTable and
CoilWritesStayInTheirTable, with a write to the last element. -/
theorem witness_storage_laws :
    configLegal (cfgOf .rtu) = true ∧ Memory.wf (registerSetup (cfgOf .rtu)) = true ∧
    65535 + ([3] : List Word).length ≤ (cfgOf .rtu).regCap ∧
    1999 + ([true] : List Bool).length ≤ (cfgOf .rtu).coilCap ∧
    (1999 < (cfgOf .rtu).coilCap ∧ 65535 < (cfgOf .rtu).regCap ∧ (2 : Byte) ≠ 1) ∧
    (cfgOf .rtu).sharedSpaces = true ∧
    ({ cfgOf .rtu with sharedSpaces := false } : Config).sharedSpaces = false :=
  ⟨legal_cfgOf _, writeWords_wf 1 .holding 1 _ rfl, by simp [cfgOf, Config.default], by simp [cfgOf, Config.default],
    by simp [cfgOf, Config.default], rfl, rfl⟩

theorem witness_ExecChangesOnlyOutputOrOwnRegister : (holding 1).req = some (request 1) := rfl

theorem witness_ExecutionStepChangesOnlyItsCells :
    Memory.wf (executing none).mem = true ∧ (executing none).xqOf .serial = some (writingXq none) ∧
      (writingXq none).ops = [.writeWords 1 .holding 1 [3]] ∧
      ∃ t, executeStep .serial (executing none) = .next t :=
  ⟨rfl, rfl, rfl, exists_next (by decide +kernel)⟩

theorem witness_QueuedRequestCompletesInOneStepPerOperation :
    (executing none).cfg.storageMayFail = false ∧ (executing none).xqOf .serial = some (writingXq none) ∧
      (writingXq none).ops.length = 0 + 1 ∧
      ∀ op ∈ (writingXq none).ops, opInRange (executing none).cfg op = true :=
  ⟨rfl, rfl, rfl, by decide +kernel⟩

end Sys2Proof.Tests
end

section
/-! SUPPORT. What a step emits (10_state R15, 60_exceptions R306): outputs are only appended, a receiver
transmits nothing, and the work on a request transmits at most once. -/

namespace Sys2Proof.Machine

/-! ### Appended outputs -/

/-- The output is on the transmit port (R15, R30). -/
@[simp] def Output.onTransmitPort : Output → Bool
  | .tx _ _ => true
  | _ => false

/-- `after` is `before` followed by outputs of which at most `n` are on the transmit port. -/
def AppendsAtMost (n : Nat) (before after : List Output) : Prop :=
  ∃ new, after = before ++ new ∧ (new.filter Output.onTransmitPort).length ≤ n

variable {n : Nat} {before middle after new : List Output}

@[simp] theorem appendsAtMost_append :
    AppendsAtMost n before (before ++ new) ↔ (new.filter Output.onTransmitPort).length ≤ n := by
  simp [AppendsAtMost]

@[simp] theorem appendsAtMost_self : AppendsAtMost n before before := ⟨[], by simp⟩

/-- One further output, after outputs that are not transmissions. -/
theorem AppendsAtMost.concat (h : AppendsAtMost 0 before after) (o : Output) :
    AppendsAtMost 1 before (after ++ [o]) := by
  obtain ⟨new, rfl, hn⟩ := h
  refine ⟨new ++ [o], by simp, ?_⟩
  have ho : ([o].filter Output.onTransmitPort).length ≤ 1 := List.length_filter_le ..
  simp only [List.filter_append, List.length_append]
  omega

theorem AppendsAtMost.mono {m : Nat} (h : AppendsAtMost m before after) (hmn : m ≤ n) :
    AppendsAtMost n before after := by
  obtain ⟨new, ha, hn⟩ := h
  exact ⟨new, ha, hn.trans hmn⟩

/-! ### Receivers -/

/-- Receiving leads to a state with no new output on the transmit port. -/
def ReceivesSilently (s : State) : Received → Prop
  | .quiet t => AppendsAtMost 0 s.out t.out
  | .frame _ _ t => AppendsAtMost 0 s.out t.out
  | .refused _ => True

variable (s : State)

@[simp] theorem receivesSilently_quiet (t : State) :
    ReceivesSilently s (.quiet t) ↔ AppendsAtMost 0 s.out t.out := Iff.rfl

@[simp] theorem receivesSilently_frame (r : Request) (pdu : List Byte) (t : State) :
    ReceivesSilently s (.frame r pdu t) ↔ AppendsAtMost 0 s.out t.out := Iff.rfl

@[simp] theorem receivesSilently_refused (r : Refusal) : ReceivesSilently s (.refused r) := trivial

theorem rtuRxByte_silent (b : Byte) : ReceivesSilently s (rtuRxByte b s) := by
  unfold rtuRxByte
  split
  · simp
  · split <;> simp
  · simp

theorem rtuT15_silent : ReceivesSilently s (rtuT15 s) := by
  unfold rtuT15
  split <;> simp

theorem rtuFrameEnd_silent : ReceivesSilently s (rtuFrameEnd s) := by
  unfold rtuFrameEnd
  split <;> simp

theorem rtuT35_silent : ReceivesSilently s (rtuT35 s) := by
  unfold rtuT35
  split
  · simp
  · exact rtuFrameEnd_silent s
  · exact rtuFrameEnd_silent s

theorem rtuActTimeout_silent : ReceivesSilently s (rtuActTimeout s) := by
  unfold rtuActTimeout
  split <;> simp

theorem rtuReceive_silent (e : Event) : ReceivesSilently s (rtuReceive e s) := by
  cases e with
  | rxByte b => exact rtuRxByte_silent s b
  | t15 => exact rtuT15_silent s
  | t35 => exact rtuT35_silent s
  | actTimeout => exact rtuActTimeout_silent s
  | _ => trivial

theorem ascDrop_silent (reason : DropReason) (rx : AscRx) : ReceivesSilently s (ascDrop reason rx s) := by
  simp [ascDrop]

theorem ascBodyByte_silent (c : Byte) : ReceivesSilently s (ascBodyByte c s) := by
  unfold ascBodyByte
  split
  · split
    · simp
    · exact ascDrop_silent s ..
  · split
    · exact ascDrop_silent s ..
    · split
      · simp
      · exact ascDrop_silent s ..

theorem ascFrameEnd_silent : ReceivesSilently s (ascFrameEnd s) := by
  unfold ascFrameEnd
  split <;> simp

theorem ascRxByte_silent (c : Byte) : ReceivesSilently s (ascRxByte c s) := by
  unfold ascRxByte
  split
  · split <;> simp
  · exact ascBodyByte_silent s c
  · split
    · exact ascFrameEnd_silent s
    · exact ascDrop_silent s ..

theorem ascActTimeout_silent : ReceivesSilently s (ascActTimeout s) := by
  unfold ascActTimeout
  split <;> simp

theorem ascReceive_silent (e : Event) : ReceivesSilently s (ascReceive e s) := by
  cases e with
  | rxByte c => exact ascRxByte_silent s c
  | t15 => exact appendsAtMost_self
  | t35 => exact appendsAtMost_self
  | actTimeout => exact ascActTimeout_silent s
  | _ => trivial

theorem tcpAccept_silent : ReceivesSilently s (tcpAccept s) := by
  unfold tcpAccept
  split <;> simp

theorem tcpRxByte_silent (k : Nat) (x : Session) (b : Byte) : ReceivesSilently s (tcpRxByte k x b s) := by
  unfold tcpRxByte
  split
  · simp
  · simp [tcpClose]
  · simp

theorem tcpActTimeout_silent (k : Nat) (x : Session) : ReceivesSilently s (tcpActTimeout k x s) := by
  unfold tcpActTimeout
  split <;> simp

theorem onSession_silent (k : Nat) {f : Session → Received} (hf : ∀ x, ReceivesSilently s (f x)) :
    ReceivesSilently s (onSession k s f) := by
  unfold onSession
  split
  · exact hf _
  · trivial

theorem tcpReceive_silent (e : Event) : ReceivesSilently s (tcpReceive e s) := by
  cases e with
  | accept => exact tcpAccept_silent s
  | sessRxByte k b => exact onSession_silent s k fun x => tcpRxByte_silent s k x b
  | sessActTimeout k => exact onSession_silent s k fun x => tcpActTimeout_silent s k x
  | idleTimeout k => exact onSession_silent s k fun _ => by simp [tcpIdleTimeout]
  | peerClose k => exact onSession_silent s k fun _ => by simp [tcpPeerClose]
  | _ => trivial

/-- No receiver transmits: what it emits is a Drop, a Status or a Close. -/
theorem receive_silent (e : Event) : ReceivesSilently s (receive e s) := by
  unfold receive
  split
  · exact rtuReceive_silent s e
  · exact ascReceive_silent s e
  · exact tcpReceive_silent s e

/-! ### The work on a request -/

variable {s} {t : State}

/-- An execution step emits the answer that ends the request, or nothing. -/
theorem executeStep_out {a : Agent} (h : executeStep a s = .next t) :
    t.out = s.out ∨ ∃ o, t.out = s.out ++ [o] := by
  obtain ⟨x, op, rest, -, -, -, h⟩ := executeStep_cases h
  rcases h with ⟨pdu, rfl, -⟩ | ⟨pdu, rfl, -⟩ | ⟨-, rfl⟩
  · exact .inr ⟨_, by rw [State.setXq_out, answer_out]⟩
  · exact .inr ⟨_, by rw [State.setXq_out, answer_out]⟩
  · exact .inl (by rw [State.setXq_out])

/-- Executing a request emits its answer, or loads an execution register and emits nothing. -/
theorem execRequest_out {fc : Byte} {plan : Byte → Plan} (h : execRequest fc plan s = .next t) :
    t.out = s.out ∨ ∃ o, t.out = s.out ++ [o] := by
  cases hr : s.req with
  | none => simp [execRequest, hr] at h
  | some r =>
    rcases execRequest_cases fc plan hr with ⟨pdu, he, -⟩ | ⟨x, he, -⟩ <;> (rw [he] at h; cases h)
    · exact .inr ⟨_, answer_out ..⟩
    · exact .inl (by rw [State.setXq_out])

/-- The dispatcher's work on any PDU emits at most one output. -/
theorem serve_out {pdu : List Byte} (h : serve pdu s = .next t) :
    t.out = s.out ∨ ∃ o, t.out = s.out ++ [o] := by
  unfold serve at h
  split at h
  · exact execRequest_out (exec_eq_execRequest _ s ▸ h)
  · rename_i e _
    rcases rejectRequest_eq e s with ⟨-, he⟩ | ⟨fc, code, he⟩ <;> rw [he] at h
    · cases h
    · exact execRequest_out h

/-! ### Steps -/

/-- At most one output after outputs that are not transmissions. -/
theorem AppendsAtMost.one_of_out (h : AppendsAtMost 0 before s.out)
    (ht : t.out = s.out ∨ ∃ o, t.out = s.out ++ [o]) : AppendsAtMost 1 before t.out := by
  rcases ht with ht | ⟨o, ht⟩ <;> rw [ht]
  · exact h.mono (Nat.zero_le 1)
  · exact h.concat o

theorem step_appendsAtMost_one (h : step s = .next t) : AppendsAtMost 1 s.out t.out := by
  rcases step_cases s with ⟨-, hs⟩ | ⟨-, hs⟩
  · rw [hs] at h; cases h
  rcases hs with ⟨-, hs⟩ | ⟨a, -, hs⟩ | ⟨e, rest, -, hs⟩
  · rw [hs] at h; cases h
    exact appendsAtMost_self
  · rw [hs] at h
    exact AppendsAtMost.one_of_out (s := s.begin s.inq) appendsAtMost_self (executeStep_out h)
  have silent := receive_silent (s.begin rest) e
  rcases hs with ⟨r, -, hs⟩ | ⟨u, hr, hs⟩ | ⟨r, pdu, u, hr, hs⟩
  · rw [hs] at h; cases h
  · rw [hs] at h; cases h
    rw [hr] at silent
    exact silent.mono (Nat.zero_le 1)
  rw [hr] at silent
  rcases hs with ⟨reason, -, hs⟩ | ⟨-, hs⟩
  · rw [hs] at h; cases h
    exact silent.concat _
  · exact AppendsAtMost.one_of_out (s := { u with req := some r }) silent (serve_out (hs ▸ h))

end Sys2Proof.Machine
end

section
/-! PROOF. The obligations of 00_scope.md. -/

namespace Sys2Proof.Proofs

open Sys2Proof.Machine

/-- Settles O8: a receiver transmits nothing, and the request it may complete is answered at most once. -/
theorem stepAddsAtMostOneTransmission : Obligations.StepAddsAtMostOneTransmission := by
  intro s t h
  obtain ⟨new, ht, hn⟩ := step_appendsAtMost_one h
  refine ⟨new, ht, ?_⟩
  rw [List.filter_congr (q := Output.onTransmitPort) fun o _ => by cases o <;> rfl]
  exact hn

end Sys2Proof.Proofs
end

section
/-! SUPPORT. What a step keeps (10_state R24, R27, R31): how an execution step, a receiver and the dispatcher
update the state, and what the updates leave as it was. -/

namespace Sys2Proof.Machine

open Sys2Proof.Safety

variable {s t u : State} {a : Agent} {e : Event} {r : Request} {pdu : List Byte}

/-! ### Updates -/

@[simp] theorem State.setXq_keys (s : State) (a : Agent) (y : Option Xq) :
    (s.setXq a y).sess.map Prod.fst = s.sess.map Prod.fst := by
  cases a with
  | serial => rfl
  | session k => rw [State.setXq_session_sess, updateSession_keys]

/-- Answering changes the outputs alone. -/
theorem answer_eq (r : Request) (p : Option (List Byte)) (s : State) :
    answer r p s = { s with out := (answer r p s).out } := by cases p <;> rfl

theorem xqOk_none (cfg : Config) : XqOk cfg none := nofun

theorem xqOk_some {cfg : Config} {x : Xq} :
    XqOk cfg (some x) ↔ x.ops ≠ [] ∧ ∀ op ∈ x.ops, opInRange cfg op = true := by
  simp [XqOk]

/-- An execution step of an agent changes the storage, the outputs and that agent's execution register alone. -/
theorem executeStep_updates (h : executeStep a s = .next t) :
    ∃ x mem out y, s.xqOf a = some x ∧ t = ({ s with mem := mem, out := out } : State).setXq a y ∧
      (Memory.wf s.mem = true → Memory.wf mem = true) ∧ (XqOk s.cfg (some x) → XqOk s.cfg y) := by
  obtain ⟨x, op, rest, hx, hops, -, h⟩ := executeStep_cases h
  rcases h with ⟨p, rfl, -⟩ | ⟨p, rfl, -⟩ | ⟨hrest, rfl⟩
  · exact ⟨x, s.mem, _, none, hx, by rw [answer_eq], id, fun _ => xqOk_none _⟩
  · exact ⟨x, _, _, none, hx, by rw [answer_eq], performOp_wf op, fun _ => xqOk_none _⟩
  · refine ⟨x, _, s.out, _, hx, rfl, performOp_wf op, fun hok => xqOk_some.mpr ⟨hrest, fun o ho => ?_⟩⟩
    exact (xqOk_some.mp hok).2 o (by simp [hops, ho])

/-- The dispatcher's work on a request that passed the address filter: it is answered, or its agent's execution
register is loaded with operations in range. -/
theorem serve_updates (hpdu : pdu ≠ []) (ha : addressFilter u.cfg r.addr = none)
    (h : serve pdu { u with req := some r } = .next t) :
    (∃ out, t = { u with req := none, out := out }) ∨
      ∃ x, XqOk u.cfg (some x) ∧ t = ({ u with req := none } : State).setXq r.agent (some x) := by
  obtain ⟨fc, plan, hserve, hplan⟩ := serve_eq hpdu { u with req := some r }
  rcases execRequest_cases fc plan (s := { u with req := some r }) rfl with
    ⟨p, hexec, -⟩ | ⟨x, hexec, hne, -, hops⟩ <;> (rw [hserve, hexec] at h; cases h)
  · exact .inl ⟨_, answer_eq ..⟩
  · refine .inr ⟨x, xqOk_some.mpr ⟨hne, fun op hop => ?_⟩, rfl⟩
    obtain ⟨target, hmem, htarget⟩ := hops op hop
    refine hplan target ?_ op hmem
    rcases htarget with ⟨-, hreg⟩ | ⟨hunicast, rfl⟩
    · exact hreg
    · exact (addressFilter_none ha).resolve_left hunicast

/-- A complete frame leaves the receiver of its agent empty, and everything else as it was. -/
theorem receive_frame (h : receive e s = .frame r pdu u) :
    pdu ≠ [] ∧
      ((s.cfg.transport = .rtu ∧ r.agent = .serial ∧ u = s.setRtu rtuIdle) ∨
       (s.cfg.transport = .ascii ∧ r.agent = .serial ∧ u = s.setAsc ascHunt) ∨
       (s.cfg.transport = .tcp ∧ ∃ k, r.agent = .session k ∧ u = s.setBuf k [])) := by
  unfold receive at h
  split at h
  next ht =>
    obtain ⟨hu, hr, hpdu⟩ := rtuReceive_frame h
    exact ⟨hpdu, .inl ⟨ht, hr, hu⟩⟩
  next ht =>
    obtain ⟨hu, hr, hpdu⟩ := ascReceive_frame h
    exact ⟨hpdu, .inr (.inl ⟨ht, hr, hu⟩)⟩
  next ht =>
    obtain ⟨k, b, -, hu, hr, -, hpdu⟩ := tcpReceive_frame h
    exact ⟨hpdu, .inr (.inr ⟨ht, k, hr, hu⟩)⟩

/-- Every way a step reaches a next state: the machine holds its state, an agent performs an operation, or an
event is consumed; then no frame is complete, or a frame is and its request is dropped or served. -/
theorem step_next_cases (h : step s = .next t) :
    (pick (moves s) (Config.schedule s.draws) = none ∧ t = s) ∨
    (∃ a, pick (moves s) (Config.schedule s.draws) = some (.perform a) ∧
      executeStep a (s.begin s.inq) = .next t) ∨
    (∃ e rest, pick (moves s) (Config.schedule s.draws) = some (.consume e rest) ∧
      (receive e (s.begin rest) = .quiet t ∨
       ∃ r pdu u, receive e (s.begin rest) = .frame r pdu u ∧
         ((∃ reason, t = u.emit (.drop r.agent reason)) ∨
          (addressFilter u.cfg r.addr = none ∧ serve pdu { u with req := some r } = .next t)))) := by
  rcases step_cases s with ⟨-, hs⟩ | ⟨-, hs⟩
  · rw [hs] at h; cases h
  rcases hs with ⟨hp, hs⟩ | ⟨a, hp, hs⟩ | ⟨e, rest, hp, hs⟩
  · rw [hs] at h; cases h
    exact .inl ⟨hp, rfl⟩
  · exact .inr (.inl ⟨a, hp, hs ▸ h⟩)
  refine .inr (.inr ⟨e, rest, hp, ?_⟩)
  rcases hs with ⟨_, -, hs⟩ | ⟨u, hr, hs⟩ | ⟨r, pdu, u, hr, hs⟩
  · rw [hs] at h; cases h
  · rw [hs] at h; cases h
    exact .inl hr
  refine .inr ⟨r, pdu, u, hr, ?_⟩
  rcases hs with ⟨reason, -, hs⟩ | ⟨ha, hs⟩
  · rw [hs] at h; cases h
    exact .inl ⟨reason, rfl⟩
  · exact .inr ⟨ha, hs ▸ h⟩

/-! ### The frame of a step -/

/-- The configuration, the waiting events and the identifiers of the session table are the same. -/
structure SameTable (s t : State) : Prop where
  cfg : t.cfg = s.cfg
  inq : t.inq = s.inq
  nextSess : t.nextSess = s.nextSess
  keys : t.sess.map Prod.fst = s.sess.map Prod.fst

/-- The configuration and the waiting events are the same, and a session that is new has the identifier that
was next (R27). -/
structure TableFollows (s t : State) : Prop where
  cfg : t.cfg = s.cfg
  inq : t.inq = s.inq
  next_le : s.nextSess ≤ t.nextSess
  opened : ∀ k ∈ t.sess.map Prod.fst, k ∈ s.sess.map Prod.fst ∨ (k = s.nextSess ∧ k < t.nextSess)

theorem SameTable.trans (h : SameTable s u) (h' : SameTable u t) : SameTable s t :=
  ⟨h'.cfg.trans h.cfg, h'.inq.trans h.inq, h'.nextSess.trans h.nextSess, h'.keys.trans h.keys⟩

theorem SameTable.follows (h : SameTable s t) : TableFollows s t :=
  ⟨h.cfg, h.inq, h.nextSess.ge, fun _ hk => .inl (h.keys ▸ hk)⟩

theorem emit_sameTable (s : State) (o : Output) : SameTable s (s.emit o) := ⟨rfl, rfl, rfl, rfl⟩

theorem executeStep_sameTable (h : executeStep a s = .next t) : SameTable s t := by
  obtain ⟨_, _, _, _, -, rfl, -, -⟩ := executeStep_updates h
  exact ⟨by simp, by simp, by simp, by simp⟩

theorem receive_frame_sameTable (h : receive e s = .frame r pdu u) : SameTable s u := by
  obtain ⟨-, ⟨-, -, rfl⟩ | ⟨-, -, rfl⟩ | ⟨-, k, -, rfl⟩⟩ := receive_frame h
  · exact ⟨rfl, rfl, rfl, rfl⟩
  · exact ⟨rfl, rfl, rfl, rfl⟩
  · exact ⟨rfl, rfl, rfl, by simp⟩

theorem serve_sameTable (hpdu : pdu ≠ []) (ha : addressFilter u.cfg r.addr = none)
    (h : serve pdu { u with req := some r } = .next t) : SameTable u t := by
  rcases serve_updates hpdu ha h with ⟨_, rfl⟩ | ⟨_, -, rfl⟩
  · exact ⟨rfl, rfl, rfl, rfl⟩
  · exact ⟨by simp, by simp, by simp, by simp⟩

/-- Only a receiver opens and closes sessions, and it opens none but the next one (R27, R151). -/
theorem tcpReceive_quiet_follows (h : tcpReceive e s = .quiet t) : TableFollows s t := by
  obtain ⟨_, _, sess, next, rfl, hsess⟩ := tcpReceive_quiet h
  rcases hsess with ⟨rfl, rfl⟩ | ⟨rfl, rfl⟩ | ⟨rfl, k, rfl⟩ | ⟨rfl, k, buf, -, rfl, -⟩
  · exact ⟨rfl, rfl, le_rfl, fun _ => .inl⟩
  · refine ⟨rfl, rfl, Nat.le_succ _, fun k hk => ?_⟩
    rw [List.map_append, List.mem_append] at hk
    exact hk.imp_right fun hk => by simp_all
  · refine ⟨rfl, rfl, le_rfl, fun j hj => .inl ?_⟩
    exact (List.filter_sublist.map Prod.fst).subset hj
  · exact ⟨rfl, rfl, le_rfl, fun j hj => .inl (by simpa using hj)⟩

theorem receive_quiet_follows (h : receive e s = .quiet t) : TableFollows s t := by
  unfold receive at h
  split at h
  · obtain ⟨_, _, _, rfl, -⟩ := rtuReceive_quiet h
    exact ⟨rfl, rfl, le_rfl, fun _ => .inl⟩
  · obtain ⟨_, _, _, rfl, -⟩ := ascReceive_quiet h
    exact ⟨rfl, rfl, le_rfl, fun _ => .inl⟩
  · exact tcpReceive_quiet_follows h

/-- A step that makes no move holds its state; any other one has the frame `TableFollows`, from the state in
which the events wait that its move leaves. -/
theorem step_frame (h : step s = .next t) :
    t = s ∨
    (∃ a, pick (moves s) (Config.schedule s.draws) = some (.perform a) ∧ TableFollows (s.begin s.inq) t) ∨
    (∃ e rest, pick (moves s) (Config.schedule s.draws) = some (.consume e rest) ∧
      TableFollows (s.begin rest) t) := by
  rcases step_next_cases h with ⟨-, rfl⟩ | ⟨a, hp, hs⟩ | ⟨e, rest, hp, hs⟩
  · exact .inl rfl
  · exact .inr (.inl ⟨a, hp, (executeStep_sameTable hs).follows⟩)
  refine .inr (.inr ⟨e, rest, hp, ?_⟩)
  rcases hs with hq | ⟨r, pdu, u, hf, ⟨reason, rfl⟩ | ⟨ha, hs⟩⟩
  · exact receive_quiet_follows hq
  · exact ((receive_frame_sameTable hf).trans (emit_sameTable u _)).follows
  · exact ((receive_frame_sameTable hf).trans (serve_sameTable (receive_frame hf).1 ha hs)).follows

/-- Whatever move a step makes, the session table follows that of the state before it. -/
theorem step_follows (h : step s = .next t) : ∃ rest, TableFollows (s.begin rest) t := by
  rcases step_frame h with rfl | ⟨_, -, hf⟩ | ⟨_, rest, -, hf⟩
  · exact ⟨t.inq, rfl, rfl, le_rfl, fun _ => .inl⟩
  · exact ⟨_, hf⟩
  · exact ⟨_, hf⟩

/-! ### Moves that settle a step -/

/-- Where the move made completes no frame, the step is that move. -/
theorem step_of_makeMove {m : Move} {o : Host.Outcome State Fault Refusal}
    (hc : configLegal s.cfg = true) (hp : pick (moves s) (Config.schedule s.draws) = some m)
    (hm : makeMove s (some m) = .settled o) : step s = o := by
  simp [step, fetch, hc, hp, hm]

theorem step_of_perform (hc : configLegal s.cfg = true)
    (hp : pick (moves s) (Config.schedule s.draws) = some (.perform a)) :
    step s = executeStep a (s.begin s.inq) :=
  step_of_makeMove hc hp rfl

/-- A serial port that executes has no other move (R31). -/
theorem moves_of_serial_busy {x : Xq} (ht : s.cfg.transport ≠ .tcp) (hx : s.xq = some x) :
    moves s = [.perform .serial] := by
  have hserial : serialMoves s = [.perform .serial] := by simp [serialMoves, hx]
  unfold moves
  split
  · exact hserial
  · exact hserial
  · contradiction

/-- A TCP block with an executing session can make that session's execution step. -/
theorem perform_mem_moves {k : Nat} {x : Session} (ht : s.cfg.transport = .tcp)
    (hk : s.session k = some x) (hx : x.xq ≠ none) : .perform (.session k) ∈ moves s := by
  obtain ⟨before, after, hsess, -⟩ := List.lookup_eq_some_iff.mp hk
  have hbusy : .perform (.session k) ∈ executingSessions s :=
    List.mem_map.mpr ⟨(k, x), by simp [hsess, Option.isSome_iff_ne_none, hx], rfl⟩
  simp [moves, ht, hbusy]

/-- A PeerClose of an open session is ready, whatever waits before it (R158; log entry 14). -/
theorem eventReady_peerClose {k : Nat} {x : Session} (before : List Event) (hk : s.session k = some x) :
    eventReady s before (.peerClose k) = true := by
  simp [eventReady, overtakes, awaitsAccept, eventSession, hk]

/-- The move that consumes a PeerClose of an open session makes the session absent and emits nothing (R158). -/
theorem makeMove_peerClose {k : Nat} {x : Session} (rest : List Event) (ht : s.cfg.transport = .tcp)
    (hk : s.session k = some x) :
    makeMove s (some (.consume (.peerClose k) rest)) = .settled (.next ((s.begin rest).removeSession k)) := by
  have hopen : (s.begin rest).session k = some x := hk
  simp [makeMove, receive, ht, tcpReceive, onSession, hopen, tcpPeerClose, afterReceive]

end Sys2Proof.Machine
end

section
/-! SUPPORT. Every step keeps the invariants (10_state R28, R20, R31): each update of the state that a step is
made of keeps them. -/

namespace Sys2Proof.Safety

open Sys2Proof.Machine

variable {s t u : State} {a : Agent} {e : Event} {r : Request} {pdu : List Byte}
variable {cfg : Config} {next : Nat} {l : List (Nat × Session)}

/-! ### The session table -/

theorem bufOk_nil : BufOk [] := .inl (by simp)

theorem sessOk_nil : SessOk cfg next [] := ⟨.nil, nofun, nofun, nofun⟩

/-- Opening a session under the next identifier keeps the table's invariant (R27, R151). -/
theorem SessOk.concat (h : SessOk cfg next l) : SessOk cfg (next + 1) (l ++ [(next, ⟨[], none⟩)]) where
  rising := by
    rw [List.map_append, List.pairwise_append]
    refine ⟨h.rising, List.pairwise_singleton .., fun k hk j hj => ?_⟩
    obtain ⟨p, hp, rfl⟩ := List.mem_map.mp hk
    rw [List.mem_singleton.mp hj]
    exact h.below p hp
  below := List.forall_mem_append.mpr ⟨fun p hp => (h.below p hp).trans (Nat.lt_succ_self _), by simp⟩
  bufs := List.forall_mem_append.mpr ⟨h.bufs, by simp [bufOk_nil]⟩
  xqs := List.forall_mem_append.mpr ⟨h.xqs, by simp [xqOk_none]⟩

/-- Closing sessions keeps the table's invariant. -/
theorem SessOk.filter (h : SessOk cfg next l) (keep : Nat × Session → Bool) :
    SessOk cfg next (l.filter keep) where
  rising := h.rising.sublist (List.filter_sublist.map _)
  below p hp := h.below p (List.mem_of_mem_filter hp)
  bufs p hp := h.bufs p (List.mem_of_mem_filter hp)
  xqs p hp := h.xqs p (List.mem_of_mem_filter hp)

/-- A change of a session that keeps its buffer and execution register good keeps the table's invariant. -/
theorem SessOk.update {k : Nat} {f : Session → Session} (h : SessOk cfg next l)
    (hbuf : ∀ x, BufOk x.buf → BufOk (f x).buf) (hxq : ∀ x, XqOk cfg x.xq → XqOk cfg (f x).xq) :
    SessOk cfg next (updateSession k f l) where
  rising := by rw [updateSession_keys]; exact h.rising
  below p hp := by
    obtain ⟨q, hq, ⟨-, rfl⟩ | ⟨-, rfl⟩⟩ := mem_updateSession hp
    · exact h.below q hq
    · exact h.below _ hq
  bufs p hp := by
    obtain ⟨q, hq, ⟨-, rfl⟩ | ⟨-, rfl⟩⟩ := mem_updateSession hp
    · exact hbuf _ (h.bufs _ hq)
    · exact h.bufs _ hq
  xqs p hp := by
    obtain ⟨q, hq, ⟨-, rfl⟩ | ⟨-, rfl⟩⟩ := mem_updateSession hp
    · exact hxq _ (h.xqs _ hq)
    · exact h.xqs _ hq

theorem mem_setBuf_sess {k : Nat} {buf : List Byte} {p : Nat × Session} (hp : p ∈ (s.setBuf k buf).sess) :
    (p.1 = k ∧ p.2.buf = buf) ∨ (p.1 ≠ k ∧ p ∈ s.sess) := by
  rw [State.setBuf_sess] at hp
  obtain ⟨q, hq, ⟨hk, rfl⟩ | ⟨hk, rfl⟩⟩ := mem_updateSession hp
  · exact .inl ⟨hk, rfl⟩
  · exact .inr ⟨hk, hq⟩

/-- Where identifiers rise, the session of an identifier is the only entry with it. -/
theorem session_eq_some_iff {k : Nat} {x : Session} (h : SessOk s.cfg s.nextSess s.sess) :
    s.session k = some x ↔ (k, x) ∈ s.sess := by
  unfold State.session
  rw [List.lookup_eq_some_iff]
  constructor
  · rintro ⟨before, after, hsess, -⟩
    simp [hsess]
  · intro hmem
    obtain ⟨before, after, hsess⟩ := List.append_of_mem hmem
    refine ⟨before, after, hsess, fun p hp => ?_⟩
    have hrise := h.rising
    rw [hsess, List.pairwise_map, List.pairwise_append] at hrise
    have hlt : p.1 < k := hrise.2.2 p hp (k, x) (by simp)
    simp [hlt.ne']

/-! ### The invariant -/

theorem inv_boot (cfg : Config) : Inv (State.boot cfg) :=
  ⟨rtuOk_idle, ascOk_hunt, sessOk_nil, xqOk_none _, boot_mem_wf cfg, rfl⟩

theorem Inv.begin (h : Inv s) (rest : List Event) : Inv (s.begin rest) := { h with }

theorem Inv.setXq {y : Option Xq} (h : Inv s) (hy : XqOk s.cfg y) : Inv (s.setXq a y) := by
  cases a with
  | serial => exact { h with xq := hy }
  | session k => exact { h with sess := h.sess.update (f := ({ · with xq := y })) (fun _ => id) fun _ _ => hy }

/-- Every execution register of a machine that meets the invariant is good. -/
theorem Inv.xqOf_ok {x : Xq} (h : Inv s) (hx : s.xqOf a = some x) : XqOk s.cfg (some x) := by
  cases a with
  | serial => exact hx ▸ h.xq
  | session k =>
    obtain ⟨y, hy, hyx⟩ := Option.bind_eq_some_iff.mp hx
    exact hyx ▸ h.sess.xqs _ ((session_eq_some_iff h.sess).mp hy)

theorem Inv.of_executeStep (h : Inv s) (hs : executeStep a s = .next t) : Inv t := by
  obtain ⟨x, mem, out, y, hx, rfl, hmem, hy⟩ := executeStep_updates hs
  exact Inv.setXq { h with mem := hmem h.mem } (hy (h.xqOf_ok hx))

theorem Inv.of_receive_quiet (h : Inv s) (hr : receive e s = .quiet t) : Inv t := by
  unfold receive at hr
  split at hr
  · obtain ⟨rx, _, _, rfl, hrx⟩ := rtuReceive_quiet hr
    exact { h with rtu := hrx h.rtu }
  · obtain ⟨rx, _, _, rfl, hrx⟩ := ascReceive_quiet hr
    exact { h with asc := hrx h.asc }
  · obtain ⟨_, _, sess, next, rfl, hsess⟩ := tcpReceive_quiet hr
    refine { h with sess := ?_ }
    rcases hsess with ⟨rfl, rfl⟩ | ⟨rfl, rfl⟩ | ⟨rfl, k, rfl⟩ | ⟨rfl, k, buf, hbuf, rfl, -⟩
    · exact h.sess
    · exact h.sess.concat
    · exact h.sess.filter _
    · exact h.sess.update (f := ({ · with buf := buf })) (fun _ _ => hbuf) fun _ => id

theorem Inv.of_receive_frame (h : Inv s) (hr : receive e s = .frame r pdu u) : Inv u := by
  obtain ⟨-, ⟨-, -, rfl⟩ | ⟨-, -, rfl⟩ | ⟨-, k, -, rfl⟩⟩ := receive_frame hr
  · exact { h with rtu := rtuOk_idle }
  · exact { h with asc := ascOk_hunt }
  · exact { h with sess := h.sess.update (f := ({ · with buf := [] })) (fun _ _ => bufOk_nil) fun _ => id }

theorem Inv.of_serve (h : Inv u) (hpdu : pdu ≠ []) (ha : addressFilter u.cfg r.addr = none)
    (hs : serve pdu { u with req := some r } = .next t) : Inv t := by
  rcases serve_updates hpdu ha hs with ⟨_, rfl⟩ | ⟨x, hx, rfl⟩
  · exact { h with req := rfl }
  · exact Inv.setXq { h with req := rfl } hx

theorem Inv.of_step (h : Inv s) (hs : step s = .next t) : Inv t := by
  rcases step_next_cases hs with ⟨-, rfl⟩ | ⟨a, -, hs⟩ | ⟨e, rest, -, hs⟩
  · exact h
  · exact (h.begin _).of_executeStep hs
  rcases hs with hq | ⟨r, pdu, u, hf, hs⟩
  · exact (h.begin _).of_receive_quiet hq
  have hu : Inv u := (h.begin _).of_receive_frame hf
  rcases hs with ⟨reason, rfl⟩ | ⟨ha, hs⟩
  · exact { hu with }
  · exact hu.of_serve (receive_frame hf).1 ha hs

/-! ### Receivers of agents that execute -/

/-- An agent's receiver exists and has no frame in progress. -/
def ReceiverEmpty (s : State) : Agent → Prop
  | .serial => s.cfg.transport ≠ .tcp ∧ s.rtu = rtuIdle ∧ s.asc = ascHunt
  | .session k => ∀ p ∈ s.sess, p.1 = k → p.2.buf = []

/-- The agent whose receiver takes the event's bytes does not execute (R31). -/
structure Receptive (s : State) (e : Event) : Prop where
  serial : s.cfg.transport ≠ .tcp → s.xq = none
  session : s.cfg.transport = .tcp → ∀ k b, e = .sessRxByte k b → s.xqOf (.session k) = none

theorem receptive_of_consume {rest : List Event} (h : .consume e rest ∈ moves s) : Receptive s e where
  serial ht := (consume_serial h ht).1
  session ht k b he := by
    obtain ⟨before, later, -, -, hready⟩ := consume_tcp h ht
    exact idle_of_ready_rx (he ▸ hready)

theorem exclusive_boot (cfg : Config) : Exclusive (State.boot cfg) where
  rtu _ := rfl
  asc _ := rfl
  sess _ := ⟨rfl, rfl⟩
  xq _ := rfl
  serialIdle h := absurd rfl h
  sessIdle := nofun

theorem Exclusive.begin (h : Exclusive s) (rest : List Event) : Exclusive (s.begin rest) := { h with }

/-- Loading the execution register of an agent is exclusive where the agent's receiver is empty. -/
theorem Exclusive.setXq {y : Option Xq} (h : Exclusive s) (hy : y ≠ none → ReceiverEmpty s a) :
    Exclusive (s.setXq a y) := by
  cases a with
  | serial =>
    refine { h with xq := fun ht => ?_, serialIdle := fun hne => (hy hne).2 }
    by_contra hne
    exact (hy hne).1 ht
  | session k =>
    refine { h with sess := fun ht => ?_, sessIdle := fun p hp hne => ?_ }
    · obtain ⟨hsess, hnext⟩ := h.sess ht
      exact ⟨by simp [hsess, updateSession], hnext⟩
    · rw [State.setXq_session_sess] at hp
      obtain ⟨q, hq, ⟨hk, rfl⟩ | ⟨-, rfl⟩⟩ := mem_updateSession hp
      · exact hy hne q hq hk
      · exact h.sessIdle _ hq hne

/-- An agent that executes has an empty receiver. -/
theorem Exclusive.receiverEmpty {x : Xq} (h : Exclusive s) (hinv : Inv s) (hx : s.xqOf a = some x) :
    ReceiverEmpty s a := by
  cases a with
  | serial =>
    have hne : s.xq ≠ none := by rw [show s.xq = some x from hx]; nofun
    exact ⟨fun ht => hne (h.xq ht), h.serialIdle hne⟩
  | session k =>
    rintro ⟨_, y⟩ hp rfl
    have hy := (session_eq_some_iff hinv.sess).mpr hp
    have hyx : y.xq = some x := by simpa [State.xqOf, hy] using hx
    exact h.sessIdle _ hp (by simp [hyx])

theorem Exclusive.of_executeStep (h : Exclusive s) (hinv : Inv s) (hs : executeStep a s = .next t) :
    Exclusive t := by
  obtain ⟨x, mem, out, y, hx, rfl, -, -⟩ := executeStep_updates hs
  exact Exclusive.setXq { h with } fun _ => by
    have := h.receiverEmpty hinv hx
    cases a <;> exact this

/-- Receiving with no frame complete: only a receiver whose agent does not execute takes bytes. -/
theorem Exclusive.of_receive_quiet (h : Exclusive s) (hinv : Inv s) (hidle : Receptive s e)
    (hr : receive e s = .quiet t) : Exclusive t := by
  unfold receive at hr
  split at hr
  next ht =>
    obtain ⟨rx, _, _, rfl, -⟩ := rtuReceive_quiet hr
    have hxq : s.xq = none := hidle.serial (by simp [ht])
    exact { h with rtu := absurd ht, serialIdle := absurd hxq }
  next ht =>
    obtain ⟨rx, _, _, rfl, -⟩ := ascReceive_quiet hr
    have hxq : s.xq = none := hidle.serial (by simp [ht])
    exact { h with asc := absurd ht, serialIdle := absurd hxq }
  next ht =>
    obtain ⟨_, _, sess, next, rfl, hsess⟩ := tcpReceive_quiet hr
    refine { h with sess := absurd ht, sessIdle := ?_ }
    rcases hsess with ⟨rfl, -⟩ | ⟨rfl, -⟩ | ⟨-, k, rfl⟩ | ⟨-, k, buf, -, rfl, hbuf⟩
    · exact h.sessIdle
    · exact List.forall_mem_append.mpr ⟨h.sessIdle, by simp⟩
    · exact fun p hp => h.sessIdle p (List.mem_of_mem_filter hp)
    · intro p hp hne
      dsimp only at hp
      obtain ⟨⟨j, y⟩, hq, ⟨rfl, rfl⟩ | ⟨-, rfl⟩⟩ := mem_updateSession hp
      · refine hbuf.resolve_right fun ⟨b, he⟩ => hne ?_
        have hy := (session_eq_some_iff hinv.sess).mpr hq
        simpa [State.xqOf, hy] using hidle.session ht j b he
      · exact h.sessIdle _ hq hne

/-- A complete frame leaves the receiver of its agent empty. -/
theorem Exclusive.of_receive_frame (h : Exclusive s) (hr : receive e s = .frame r pdu u) :
    Exclusive u ∧ ReceiverEmpty u r.agent := by
  obtain ⟨-, ⟨ht, hagent, rfl⟩ | ⟨ht, hagent, rfl⟩ | ⟨ht, k, hagent, rfl⟩⟩ := receive_frame hr <;>
    rw [hagent]
  · have hasc : s.asc = ascHunt := h.asc (by simp [ht])
    exact ⟨{ h with rtu := fun _ => rfl, serialIdle := fun _ => ⟨rfl, hasc⟩ }, by simp [ht], rfl, hasc⟩
  · have hrtu : s.rtu = rtuIdle := h.rtu (by simp [ht])
    exact ⟨{ h with asc := fun _ => rfl, serialIdle := fun _ => ⟨hrtu, rfl⟩ }, by simp [ht], hrtu, rfl⟩
  · refine ⟨{ h with sess := absurd ht, sessIdle := fun p hp hne => ?_ }, fun p hp hk => ?_⟩
    · exact (mem_setBuf_sess hp).elim And.right fun ⟨_, hold⟩ => h.sessIdle p hold hne
    · exact (mem_setBuf_sess hp).elim And.right fun ⟨hne, _⟩ => absurd hk hne

theorem Exclusive.of_serve (h : Exclusive u) (hempty : ReceiverEmpty u r.agent) (hpdu : pdu ≠ [])
    (ha : addressFilter u.cfg r.addr = none) (hs : serve pdu { u with req := some r } = .next t) :
    Exclusive t := by
  rcases serve_updates hpdu ha hs with ⟨_, rfl⟩ | ⟨x, -, rfl⟩
  · exact { h with }
  · exact Exclusive.setXq { h with } fun _ => by cases hr : r.agent <;> exact hr ▸ hempty

theorem Exclusive.of_step (h : Exclusive s) (hinv : Inv s) (hs : step s = .next t) : Exclusive t := by
  rcases step_next_cases hs with ⟨-, rfl⟩ | ⟨a, -, hs⟩ | ⟨e, rest, hp, hs⟩
  · exact h
  · exact (h.begin _).of_executeStep (hinv.begin _) hs
  rcases hs with hq | ⟨r, pdu, u, hf, hs⟩
  · have hidle : Receptive (s.begin rest) e := { receptive_of_consume (pick_mem hp) with }
    exact (h.begin _).of_receive_quiet (hinv.begin _) hidle hq
  obtain ⟨hu, hempty⟩ := (h.begin _).of_receive_frame hf
  rcases hs with ⟨reason, rfl⟩ | ⟨ha, hs⟩
  · exact { hu with }
  · exact hu.of_serve hempty (receive_frame hf).1 ha hs

end Sys2Proof.Safety
end

section
/-! PROOF. The obligations of 10_state.md. -/

namespace Sys2Proof.Proofs

open Sys2Proof.Machine Sys2Proof.Safety

/-- Settles O3: each way a step reaches a next state keeps every part of the invariant. -/
theorem everyStepKeepsInvariant : Obligations.EveryStepKeepsInvariant :=
  fun _ _ hinv hs => hinv.of_step hs

/-- Settles O4: bytes reach only the receiver of an agent that does not execute, and a frame that loads an
execution register has emptied its agent's receiver. -/
theorem everyStepKeepsExclusiveReceivers : Obligations.EveryStepKeepsExclusiveReceivers :=
  fun _ _ hinv hex hs => hex.of_step hinv hs

/-- Settles O6: no update that a step is made of touches the configuration. -/
theorem noStepWritesConfiguration : Obligations.NoStepWritesConfiguration := by
  intro s t hs
  obtain ⟨rest, hf⟩ := step_follows hs
  exact hf.cfg

/-- Settles O10: Accept alone opens a session, under the next identifier. -/
theorem sessionIdentifiersAreNeverReused : Obligations.SessionIdentifiersAreNeverReused := by
  intro s t hs
  obtain ⟨rest, hf⟩ := step_follows hs
  exact ⟨hf.next_le, hf.opened⟩

/-- Settles O12: a ready event of an executing session overtakes, and a step takes out of the waiting events
only the one that its move consumes. -/
theorem executingSessionConsumesOnlyPeerClose : Obligations.ExecutingSessionConsumesOnlyPeerClose := by
  refine ⟨fun s a hc hp => step_of_perform hc hp, fun s k x ht hk hx => ?_, fun s t hs => ?_⟩
  · refine ⟨perform_mem_moves ht hk hx, fun e rest he hmem => ?_⟩
    obtain ⟨before, later, -, -, hready⟩ := consume_tcp hmem ht
    have hbusy : sessionBusy s e = true := by
      simp [sessionBusy, he, State.xqOf, hk, Option.isSome_iff_ne_none, hx]
    have hover := overtakes_of_busy hready hbusy
    cases e with
    | peerClose j => cases he; rfl
    | _ => cases hover
  · rcases step_frame hs with rfl | ⟨a, -, hf⟩ | ⟨e, rest, hp, hf⟩
    · exact .inl rfl
    · exact .inl hf.inq
    · obtain ⟨before, later, hinq, rfl⟩ := consume_keeps_others (pick_mem hp)
      exact .inr ⟨before, e, later, hinq, hf.inq, hp⟩

/-- Settles O2: every part of the machine starts at its reset value. -/
theorem invariantsHoldAtReset : Obligations.InvariantsHoldAtReset :=
  fun cfg => ⟨inv_boot cfg, exclusive_boot cfg⟩

/-- Settles O11: the execution step is the one move of an executing serial port, and it touches neither the
waiting events nor a receiver. -/
theorem executingSerialAgentConsumesNoEvent : Obligations.ExecutingSerialAgentConsumesNoEvent := by
  intro s x hc ht hx
  have hstep : step s = executeStep .serial (s.begin s.inq) :=
    step_of_perform hc (by rw [moves_of_serial_busy ht hx]; rfl)
  refine ⟨hstep, fun t hs => ?_⟩
  obtain ⟨_, _, _, _, -, rfl, -, -⟩ := executeStep_updates (hstep ▸ hs)
  exact ⟨rfl, rfl, rfl⟩

/-- Settles O36: a PeerClose of an open session is always ready, and consuming it removes the session alone. -/
theorem peerCloseAbortsExecutingSession : Obligations.PeerCloseAbortsExecutingSession := by
  intro s before later rest k x ht hk
  have hmove := makeMove_peerClose rest ht hk
  refine ⟨fun hinq => ?_, hmove, fun hnext => step_of_makeMove hnext.legal hnext.chosen hmove⟩
  have hready : .consume (.peerClose k) ([] ++ before ++ later) ∈ readyEvents s [] s.inq :=
    hinq ▸ consume_mem_readyEvents (earlier := []) (eventReady_peerClose before hk)
  simpa [moves, ht] using Or.inr hready

end Sys2Proof.Proofs
end

section
/-! SUPPORT. The places of the elements (20_memory R45 to R49; log entry 6): what a read over a written range
returns, which cells a write leaves alone, and that different elements lie in different cells. -/

namespace Sys2Proof.Machine

open Sys2Proof.Safety

variable {cfg : Config} {m m' : Memory} {t t' : Byte} {off off' n : Nat}

/-! ### Reading a written range -/

theorem readBits_writeBits (space : BitSpace) (vs : List Bool) (h : Memory.wf m = true) :
    readBits cfg (writeBits cfg m t space off vs) t space off vs.length = vs := by
  refine List.ext_getElem (by simp [readBits]) fun i _ hi => ?_
  simp only [readBits, List.getElem_map, List.getElem_range]
  rw [readBit_writeBits t space off vs i h hi, List.getD_eq_getElem _ _ hi]

theorem readWords_writeWords (space : WordSpace) (vs : List Word) (h : Memory.wf m = true) :
    readWords cfg (writeWords cfg m t space off vs) t space off vs.length = vs := by
  refine List.ext_getElem (by simp [readWords]) fun i _ hi => ?_
  simp only [readWords, List.getElem_map, List.getElem_range]
  rw [readWord_writeWords t space off vs i h hi, List.getD_eq_getElem _ _ hi]

/-! ### The cells outside a write -/

theorem memSetBytes_sameOutside (base : Nat) (bs : List Byte) (h : Memory.wf m = true) :
    SameOutside m (memSetBytes m base bs) base bs.length := by
  intro a ha
  rw [memGet_memSetBytes base bs a h, if_neg (by unfold Outside at ha; omega)]

theorem writeBits_sameOutside (t : Byte) (space : BitSpace) (off : Nat) (vs : List Bool)
    (h : Memory.wf m = true) :
    SameOutside m (writeBits cfg m t space off vs) (bitAddr cfg t space off) vs.length := by
  simpa [writeBits] using memSetBytes_sameOutside (bitAddr cfg t space off) (vs.map bitCell) h

theorem writeWords_sameOutside (t : Byte) (space : WordSpace) (off : Nat) (vs : List Word)
    (h : Memory.wf m = true) :
    SameOutside m (writeWords cfg m t space off vs) (wordAddr cfg t space off) (2 * vs.length) := by
  simpa [writeWords] using memSetBytes_sameOutside (wordAddr cfg t space off) (wordsToBytes vs) h

theorem readBit_of_sameOutside {base : Nat} {space : BitSpace} (h : SameOutside m m' base n)
    (ho : Outside base n (bitAddr cfg t space off)) :
    readBit cfg m' t space off = readBit cfg m t space off := by
  rw [readBit, readBit, h _ ho]

theorem readWord_of_sameOutside {base : Nat} {space : WordSpace} (h : SameOutside m m' base n)
    (hhi : Outside base n (wordAddr cfg t space off)) (hlo : Outside base n (wordAddr cfg t space off + 1)) :
    readWord cfg m' t space off = readWord cfg m t space off := by
  rw [readWord, readWord, h _ hhi, h _ hlo]

/-! ### The places of the spaces -/

theorem configLegal_caps (h : configLegal cfg = true) : cfg.coilCap ≤ 2000 ∧ cfg.regCap ≤ 65536 := by
  simp only [configLegal, Bool.and_eq_true, decide_eq_true_eq] at h
  obtain ⟨⟨⟨⟨-, hcoil⟩, -, hreg⟩, -⟩, -⟩ := h
  exact ⟨hcoil, hreg⟩

theorem bitBase_eq (cfg : Config) (space : BitSpace) :
    bitBase cfg space = 0 ∨ bitBase cfg space = 0x10000 := by
  cases space with
  | coils => exact .inl rfl
  | discretes => cases h : cfg.sharedSpaces <;> simp [bitBase, h]

theorem wordBase_eq (cfg : Config) (space : WordSpace) :
    wordBase cfg space = 0x20000 ∨ wordBase cfg space = 0x40000 := by
  cases space with
  | holding => exact .inl rfl
  | input => cases h : cfg.sharedSpaces <;> simp [wordBase, h]

/-! ### Reading beside a written range -/

/-- Every bit, of any table, keeps its value when words are written. -/
theorem readBit_writeWords (bspace : BitSpace) (wspace : WordSpace) (vs : List Word) (h : Memory.wf m = true)
    (hoff : off' < 2000) (hn : off + vs.length ≤ 65536) :
    readBit cfg (writeWords cfg m t wspace off vs) t' bspace off' = readBit cfg m t' bspace off' := by
  have := bitBase_eq cfg bspace
  have := wordBase_eq cfg wspace
  refine readBit_of_sameOutside (writeWords_sameOutside t wspace off vs h) ?_
  unfold Outside wordAddr bitAddr tableBase
  omega

/-- Every word, of any table, keeps its value when bits are written. -/
theorem readWord_writeBits (wspace : WordSpace) (bspace : BitSpace) (vs : List Bool) (h : Memory.wf m = true)
    (hoff : off' < 65536) (hn : off + vs.length ≤ 2000) :
    readWord cfg (writeBits cfg m t bspace off vs) t' wspace off' = readWord cfg m t' wspace off' := by
  have := bitBase_eq cfg bspace
  have := wordBase_eq cfg wspace
  refine readWord_of_sameOutside (writeBits_sameOutside t bspace off vs h) ?_ ?_ <;>
    (unfold Outside wordAddr bitAddr tableBase; omega)

/-- A bit of another table, of another array or at another offset keeps its value when bits are written. -/
theorem readBit_writeBits_of_apart (space' space : BitSpace) (vs : List Bool) (h : Memory.wf m = true)
    (hoff : off' < 2000) (hn : off + vs.length ≤ 2000)
    (hapart : t' ≠ t ∨ bitBase cfg space' ≠ bitBase cfg space ∨ off' < off ∨ off + vs.length ≤ off') :
    readBit cfg (writeBits cfg m t space off vs) t' space' off' = readBit cfg m t' space' off' := by
  rw [← BitVec.toNat_inj.ne] at hapart
  have := bitBase_eq cfg space
  have := bitBase_eq cfg space'
  refine readBit_of_sameOutside (writeBits_sameOutside t space off vs h) ?_
  unfold Outside bitAddr tableBase
  omega

/-- A word of another table, of another array or at another offset keeps its value when words are written. -/
theorem readWord_writeWords_of_apart (space' space : WordSpace) (vs : List Word) (h : Memory.wf m = true)
    (hoff : off' < 65536) (hn : off + vs.length ≤ 65536)
    (hapart : t' ≠ t ∨ wordBase cfg space' ≠ wordBase cfg space ∨ off' < off ∨ off + vs.length ≤ off') :
    readWord cfg (writeWords cfg m t space off vs) t' space' off' = readWord cfg m t' space' off' := by
  rw [← BitVec.toNat_inj.ne] at hapart
  have := wordBase_eq cfg space
  have := wordBase_eq cfg space'
  refine readWord_of_sameOutside (writeWords_sameOutside t space off vs h) ?_ ?_ <;>
    (unfold Outside wordAddr tableBase; omega)

/-! ### The cells of an operation -/

/-- The cells that an operation does not write read in `m'` as in `m`. -/
def KeepsOtherCells (cfg : Config) (m m' : Memory) : StorageOp → Prop
  | .readBits _ _ _ _ => ∀ c, memGet m' c = memGet m c
  | .readWords _ _ _ _ => ∀ c, memGet m' c = memGet m c
  | .writeBits t space off vs => SameOutside m m' (bitAddr cfg t space off) vs.length
  | .writeWords t space off vs => SameOutside m m' (wordAddr cfg t space off) (2 * vs.length)

theorem keepsOtherCells_refl (cfg : Config) (m : Memory) (op : StorageOp) :
    KeepsOtherCells cfg m m op := by
  cases op with
  | readBits t space off n => exact fun _ => rfl
  | readWords t space off n => exact fun _ => rfl
  | writeBits t space off vs => exact fun _ _ => rfl
  | writeWords t space off vs => exact fun _ _ => rfl

theorem performOp_keepsOtherCells (op : StorageOp) (h : Memory.wf m = true) :
    KeepsOtherCells cfg m (performOp cfg m op).2 op := by
  cases op with
  | readBits t space off n => exact fun _ => rfl
  | readWords t space off n => exact fun _ => rfl
  | writeBits t space off vs => exact writeBits_sameOutside t space off vs h
  | writeWords t space off vs => exact writeWords_sameOutside t space off vs h

end Sys2Proof.Machine
end

section
/-! SUPPORT. The storage under a step (20_memory R48, R58; 43_dispatch R184): an execution step alone changes it,
by the operation at hand, and an operation in range never faults (R52, R53). -/

namespace Sys2Proof.Machine

open Sys2Proof.Safety

variable {s t u : State} {a : Agent} {x : Xq} {op : StorageOp} {rest : List StorageOp} {e : Event}
  {r : Request} {pdu : List Byte}

@[simp] theorem State.begin_xqOf (s : State) (es : List Event) (a : Agent) :
    (s.begin es).xqOf a = s.xqOf a := rfl

/-! ### Execution steps -/

@[simp] theorem afterOp_mem (a : Agent) (x : Xq) (res : OpResult) (rest : List StorageOp) (s : State) :
    (afterOp a x res rest s).mem = s.mem := by
  cases rest <;> simp [afterOp]

/-- The storage fails: the request ends with exception 4 (R50, R186). -/
theorem executeStep_of_deviceFails (hx : s.xqOf a = some x) (ho : x.ops = op :: rest)
    (hr : opInRange s.cfg op = true) (hf : deviceFails s = true) :
    executeStep a s =
      .next ((raiseException ⟨a, x.addr, x.ctx⟩ x.fc .slaveDeviceFailure x.finish.isNone s).setXq a none) := by
  simp [executeStep_of_ops hx ho, hr, hf]

/-- The storage answers OK: the operation is performed (R49, R184). -/
theorem executeStep_of_performs (hx : s.xqOf a = some x) (ho : x.ops = op :: rest)
    (hr : opInRange s.cfg op = true) (hf : ¬ deviceFails s = true) :
    executeStep a s =
      .next (afterOp a x (performOp s.cfg s.mem op).1 rest { s with mem := (performOp s.cfg s.mem op).2 }) := by
  simp [executeStep_of_ops hx ho, hr, hf]

/-- The one output of an exception: its response, or Drop(BROADCAST) where that is suppressed (R179, R186). -/
theorem raiseException_out (r : Request) (fc : Byte) (code : ExcCode) (suppressed : Bool) (s : State) :
    (raiseException r fc code suppressed s).out =
      s.out ++ [if suppressed = true then .drop r.agent .broadcast
        else .tx r.agent (adu s.cfg.transport r (excPdu fc code))] := by
  cases suppressed <;> rfl

/-- An execution step leaves the storage as it is, or as the agent's first waiting operation leaves it. -/
theorem executeStep_mem (h : executeStep a s = .next t) :
    ∃ x op rest, s.xqOf a = some x ∧ x.ops = op :: rest ∧ opInRange s.cfg op = true ∧
      (t.mem = s.mem ∨ t.mem = (performOp s.cfg s.mem op).2) := by
  obtain ⟨x, op, rest, hx, ho, hr, h⟩ := executeStep_cases h
  refine ⟨x, op, rest, hx, ho, hr, ?_⟩
  rcases h with ⟨pdu, rfl, -⟩ | ⟨pdu, rfl, -⟩ | ⟨-, rfl⟩
  · exact .inl (by simp)
  · exact .inr (by simp)
  · exact .inr (by simp)

/-- An execution register that meets the invariant holds an operation, which the execution step performs or
answers with an exception (R52). -/
theorem executeStep_ne_fault (hx : s.xqOf a = some x) (hok : XqOk s.cfg (some x)) (f : Fault) :
    executeStep a s ≠ .fault f := by
  obtain ⟨hne, hrange⟩ := xqOk_some.mp hok
  obtain ⟨op, rest, ho⟩ := List.exists_cons_of_ne_nil hne
  have hr : opInRange s.cfg op = true := hrange op (by simp [ho])
  by_cases hf : deviceFails s = true
  · rw [executeStep_of_deviceFails hx ho hr hf]; nofun
  · rw [executeStep_of_performs hx ho hr hf]; nofun

/-! ### Receiving and serving -/

theorem receive_quiet_mem (h : receive e s = .quiet t) : t.mem = s.mem := by
  unfold receive at h
  split at h
  · obtain ⟨_, _, _, rfl, -⟩ := rtuReceive_quiet h
    rfl
  · obtain ⟨_, _, _, rfl, -⟩ := ascReceive_quiet h
    rfl
  · obtain ⟨_, _, _, _, rfl, -⟩ := tcpReceive_quiet h
    rfl

theorem receive_frame_mem (h : receive e s = .frame r pdu u) : u.mem = s.mem := by
  obtain ⟨-, ⟨-, -, rfl⟩ | ⟨-, -, rfl⟩ | ⟨-, k, -, rfl⟩⟩ := receive_frame h <;> rfl

theorem serve_mem (hpdu : pdu ≠ []) (ha : addressFilter u.cfg r.addr = none)
    (h : serve pdu { u with req := some r } = .next t) : t.mem = u.mem := by
  rcases serve_updates hpdu ha h with ⟨_, rfl⟩ | ⟨_, -, rfl⟩
  · rfl
  · simp

/-- A PDU with a function code, of a request in the dispatcher, is answered or loads an execution register. -/
theorem serve_ne_fault (hpdu : pdu ≠ []) (f : Fault) : serve pdu { u with req := some r } ≠ .fault f := by
  obtain ⟨fc, plan, hserve, -⟩ := serve_eq hpdu { u with req := some r }
  rcases execRequest_cases fc plan (s := { u with req := some r }) rfl with ⟨_, hexec, -⟩ | ⟨_, hexec, -⟩ <;>
    (rw [hserve, hexec]; nofun)

/-! ### Steps -/

/-- A step leaves the storage as it is, or it is an execution step, which performs its operation. -/
theorem step_mem (h : step s = .next t) :
    t.mem = s.mem ∨ ∃ a, executeStep a (s.begin s.inq) = .next t := by
  rcases step_next_cases h with ⟨-, rfl⟩ | ⟨a, -, hs⟩ | ⟨e, rest, -, hs⟩
  · exact .inl rfl
  · exact .inr ⟨a, hs⟩
  rcases hs with hq | ⟨r, pdu, u, hf, hs⟩
  · exact .inl (receive_quiet_mem (s := s.begin rest) hq)
  have hu : u.mem = s.mem := receive_frame_mem (s := s.begin rest) hf
  rcases hs with ⟨reason, rfl⟩ | ⟨ha, hs⟩
  · exact .inl hu
  · exact .inl ((serve_mem (receive_frame hf).1 ha hs).trans hu)

/-- Every step of a machine that meets the invariant has a next state or is refused: an agent that performs has
a good execution register, and a complete frame has a function code. -/
theorem step_ne_fault (hinv : Inv s) (f : Fault) : step s ≠ .fault f := by
  rcases step_cases s with ⟨-, hs⟩ | ⟨-, ⟨-, hs⟩ | ⟨a, hp, hs⟩ | ⟨e, rest, -, hs⟩⟩
  · rw [hs]; nofun
  · rw [hs]; nofun
  · obtain ⟨x, hx⟩ := xqOf_of_perform (pick_mem hp) hinv.sess.rising
    rw [hs]
    exact executeStep_ne_fault (s := s.begin s.inq) hx (hinv.xqOf_ok hx) f
  rcases hs with ⟨_, -, hs⟩ | ⟨_, -, hs⟩ | ⟨r, pdu, u, hf, ⟨_, -, hs⟩ | ⟨-, hs⟩⟩
  · rw [hs]; nofun
  · rw [hs]; nofun
  · rw [hs]; nofun
  · rw [hs]
    exact serve_ne_fault (receive_frame hf).1 f

end Sys2Proof.Machine
end

section
/-! PROOF. The obligations of 20_memory.md. -/

namespace Sys2Proof.Proofs

open Sys2Proof.Machine Sys2Proof.Safety

/-- Settles O5: the invariant puts an operation in range before every execution step, and a request with a
function code before every dispatch. -/
theorem noStepFaultsUnderInvariant : Obligations.NoStepFaultsUnderInvariant :=
  fun _ f hinv => step_ne_fault hinv f

/-- Settles O7: receivers and dispatcher leave the storage alone, and an execution step performs the first
operation that waits. -/
theorem storageChangesOnlyByQueuedOperations : Obligations.StorageChangesOnlyByQueuedOperations := by
  intro s t h
  rcases step_mem h with hm | ⟨a, hs⟩
  · exact .inl hm
  obtain ⟨x, op, rest, hx, ho, hr, hm⟩ := executeStep_mem hs
  exact hm.imp_right fun hm => ⟨a, x, op, rest, hx, ho, hr, hm⟩

/-- Settles O54: each element of the range reads back as the value written to it. -/
theorem readAfterWriteReturnsTheValues : Obligations.ReadAfterWriteReturnsTheValues :=
  fun _ _ _ _ hwf =>
    ⟨fun space ws => readWords_writeWords space ws hwf, fun space bs => readBits_writeBits space bs hwf⟩

/-- Settles O55: under legal capacities the cells of HOLDING are apart from those of every other element. -/
theorem registerWritesStayInTheirTable : Obligations.RegisterWritesStayInTheirTable := by
  intro cfg m t t' off off' ws bspace hlegal hwf hrange
  obtain ⟨hcoil, hreg⟩ := configLegal_caps hlegal
  have hn : off + ws.length ≤ 65536 := hrange.trans hreg
  refine ⟨fun hoff => ?_, fun hoff hapart => ?_, fun hshared => ?_, fun hshared hoff => ?_⟩
  · exact readBit_writeWords bspace .holding ws hwf (hoff.trans_le hcoil) hn
  · exact readWord_writeWords_of_apart .holding .holding ws hwf (hoff.trans_le hreg) hn (hapart.imp_right .inr)
  · simp [readWord, wordAddr, wordBase, hshared]
  · have hbase : wordBase cfg .input ≠ wordBase cfg .holding := by simp [wordBase, hshared]
    exact readWord_writeWords_of_apart .input .holding ws hwf (hoff.trans_le hreg) hn (.inr (.inl hbase))

/-- Settles O56: under legal capacities the cells of COILS are apart from those of every other element. -/
theorem coilWritesStayInTheirTable : Obligations.CoilWritesStayInTheirTable := by
  intro cfg m t t' off off' bs wspace hlegal hwf hrange
  obtain ⟨hcoil, hreg⟩ := configLegal_caps hlegal
  have hn : off + bs.length ≤ 2000 := hrange.trans hcoil
  refine ⟨fun hoff => ?_, fun hoff hapart => ?_, fun hshared => ?_, fun hshared hoff => ?_⟩
  · exact readWord_writeBits wspace .coils bs hwf (hoff.trans_le hreg) hn
  · exact readBit_writeBits_of_apart .coils .coils bs hwf (hoff.trans_le hcoil) hn (hapart.imp_right .inr)
  · simp [readBit, bitAddr, bitBase, hshared]
  · have hbase : bitBase cfg .discretes ≠ bitBase cfg .coils := by simp [bitBase, hshared]
    exact readBit_writeBits_of_apart .discretes .coils bs hwf (hoff.trans_le hcoil) hn (.inr (.inl hbase))

/-- Settles O59: an execution step updates the storage, the outputs and its agent's execution register, and its
operation keeps the cells of all other elements. -/
theorem executionStepChangesOnlyItsCells : Obligations.ExecutionStepChangesOnlyItsCells := by
  intro s t a x op rest hwf hx ho hs
  have hcells : KeepsOtherCells s.cfg s.mem t.mem op := by
    obtain ⟨x', op', rest', hx', ho', -, hm⟩ := executeStep_mem hs
    cases hx.symm.trans hx'
    cases ho.symm.trans ho'
    rcases hm with hm | hm <;> rw [hm]
    · exact keepsOtherCells_refl s.cfg s.mem op
    · exact performOp_keepsOtherCells op hwf
  obtain ⟨_, mem, out, y, -, rfl, -, -⟩ := executeStep_updates hs
  refine ⟨by simp, by simp, by simp, by simp, by simp, by simp, by simp, by simp, setXq_bufs _ a y,
    fun b hb => xqOf_setXq_other _ y hb, ?_⟩
  cases op <;> exact hcells

/-- Settles O42: the first operation is in range, so that the answer of the storage alone says how the step
goes on. -/
theorem deviceFailureEndsRequestWithException4 : Obligations.DeviceFailureEndsRequestWithException4 := by
  intro s a x op rest hx ho hr
  have hiff : deviceFails s = true ↔ s.cfg.storageMayFail = true ∧ Config.storageFails s.draws = true := by
    simp [deviceFails]
  simp only [← hiff]
  by_cases hf : deviceFails s = true
  · refine ⟨_, executeStep_of_deviceFails hx ho hr hf, ?_⟩
    rw [if_pos hf]
    refine ⟨by simp [raiseException], xqOf_setXq_none _ a, ?_⟩
    rw [State.setXq_out, raiseException_out]
    simp only [Option.isNone_iff_eq_none]
    rfl
  · exact ⟨_, executeStep_of_performs hx ho hr hf, by rw [if_neg hf, afterOp_mem]⟩

end Sys2Proof.Proofs
end

section
/-! SUPPORT. The codec of request PDUs (30_encoding R74 to R81): what a decoder reads back from an encoded
payload, and what an accepted payload was. Together they say that decoding is the inverse of encoding on the
instructions whose counts fit their fields. -/

namespace Sys2Proof.Machine

open Sys2Proof.Laws

variable {fc c : Byte} {p pdu : List Byte} {i : Instr}

/-! ### Counts -/

@[simp] theorem countByte_toNat (b : Byte) : countByte b.toNat = b := by simp [countByte]

theorem toNat_countByte {n : Nat} (h : n < 256) : (countByte n).toNat = n := by
  rw [countByte, BitVec.toNat_ofNat, Nat.mod_eq_of_lt h]

/-- The count of the bytes that follow fits the one-byte field it stands in (R75, R76). -/
def CountFits : Instr → Prop
  | .wrCoils _ _ values => values.length < 256
  | .wrRegs _ _ values => 2 * values.length < 256
  | .rdFile subs => 7 * subs.length < 256
  | .wrFile subs => (subs.map WriteSub.size).sum < 256
  | _ => True

/-- A count is less than the length of its PDU, and a PDU has at most 253 bytes (R74). -/
theorem countFits_of_wellFormed (h : i.wellFormed = true) : CountFits i := by
  have hlen : i.pduLength ≤ 253 := of_decide_eq_true h
  cases i with
  | wrCoils | wrRegs | rdFile | wrFile => simp only [Instr.pduLength] at hlen; simp only [CountFits]; omega
  | _ => trivial

/-- The length of every PDU (R76). -/
theorem encode_length (i : Instr) : (encode i).length = i.pduLength := by
  cases i with
  | wrCoils w n values => exact EncodedLength.wrCoils w n values
  | wrRegs w n values => exact EncodedLength.wrRegs w n values
  | rdFile subs => exact EncodedLength.rdFile subs
  | wrFile subs => exact EncodedLength.wrFile subs
  | _ => rfl

/-! ### Lists of words -/

@[simp] theorem bytesToWords_wordsToBytes (ws : List Word) : bytesToWords (wordsToBytes ws) = some ws := by
  induction ws with
  | nil => rfl
  | cons w ws ih => simp [bytesToWords, ih]

theorem wordsToBytes_of_bytesToWords {bs : List Byte} {ws : List Word} (h : bytesToWords bs = some ws) :
    wordsToBytes ws = bs := by
  induction bs using bytesToWords.induct generalizing ws with
  | case1 => cases h; rfl
  | case2 => cases h
  | case3 hi lo rest ih =>
    obtain ⟨ws, hws, rfl⟩ := Option.map_eq_some_iff.mp h
    simp [ih hws]

@[simp] theorem takeWords_wordsToBytes (ws : List Word) (rest : List Byte) :
    takeWords ws.length (wordsToBytes ws ++ rest) = some (ws, rest) := by
  induction ws with
  | nil => rfl
  | cons w ws ih => simp [takeWords, ih]

theorem of_takeWords_eq_some {n : Nat} {bs after : List Byte} {ws : List Word}
    (h : takeWords n bs = some (ws, after)) : ws.length = n ∧ wordsToBytes ws ++ after = bs := by
  induction n, bs using takeWords.induct generalizing ws with
  | case1 rest => cases h; exact ⟨rfl, rfl⟩
  | case2 n hi lo rest ih =>
    obtain ⟨⟨ws, r⟩, hws, h⟩ := Option.map_eq_some_iff.mp h
    cases h
    obtain ⟨rfl, rfl⟩ := ih hws
    simp
  | case3 => simp [takeWords] at h

/-- Words that run past the end are not taken (R251). -/
theorem takeWords_eq_none {n : Nat} {bs : List Byte} (h : bs.length < 2 * n) : takeWords n bs = none := by
  cases ht : takeWords n bs with
  | none => rfl
  | some r =>
    obtain ⟨rfl, rfl⟩ := of_takeWords_eq_some ht
    simp at h

/-! ### Lists of sub-requests -/

@[simp] theorem decodeReadSubs_flatMap (subs : List ReadSub) :
    decodeReadSubs (subs.flatMap encodeReadSub) = some subs := by
  induction subs with
  | nil => rfl
  | cons s subs ih => simp [decodeReadSubs, encodeReadSub, toBE16, ih]

theorem flatMap_of_decodeReadSubs {bs : List Byte} {subs : List ReadSub} (h : decodeReadSubs bs = some subs) :
    subs.flatMap encodeReadSub = bs := by
  induction bs using decodeReadSubs.induct generalizing subs with
  | case1 => cases h; rfl
  | case2 rt f1 f0 r1 r0 l1 l0 rest ih =>
    obtain ⟨subs, hsubs, rfl⟩ := Option.map_eq_some_iff.mp h
    simp [encodeReadSub, ih hsubs]
  | case3 => simp [decodeReadSubs] at h

/-- Complete sub-requests of WR_FILE are read one by one, whatever follows them (R251). -/
theorem decodeWriteSubs_flatMap_append {fuel : Nat} {subs : List WriteSub} (tail : List Byte)
    (hfuel : subs.length ≤ fuel) (hdata : ∀ u ∈ subs, u.data.length < 65536) :
    decodeWriteSubs fuel (subs.flatMap encodeWriteSub ++ tail) =
      (decodeWriteSubs (fuel - subs.length) tail).map (subs ++ ·) := by
  induction subs generalizing fuel with
  | nil => simp
  | cons u subs ih =>
    obtain ⟨fuel, rfl⟩ : ∃ n, fuel = n + 1 := ⟨fuel - 1, by simp at hfuel; omega⟩
    have hu : u.data.length % 65536 = u.data.length := Nat.mod_eq_of_lt (hdata u (by simp))
    have htail := ih (fuel := fuel) (by simpa using hfuel) fun v hv => hdata v (by simp [hv])
    simp [encodeWriteSub, toBE16, decodeWriteSubs, hu, htail, Function.comp_def]

/-- Every sub-request takes at least a byte, so that the number of bytes is fuel enough. -/
theorem length_le_flatMap_encodeWriteSub (subs : List WriteSub) :
    subs.length ≤ (subs.flatMap encodeWriteSub).length := by
  induction subs with
  | nil => simp
  | cons u subs ih => simp [encodeWriteSub_length, WriteSub.size]; omega

theorem decodeWriteSubs_flatMap {subs : List WriteSub} (h : ∀ u ∈ subs, u.data.length < 65536) :
    decodeWriteSubs (subs.flatMap encodeWriteSub).length (subs.flatMap encodeWriteSub) = some subs := by
  simpa [decodeWriteSubs] using
    decodeWriteSubs_flatMap_append [] (length_le_flatMap_encodeWriteSub subs) h

theorem flatMap_of_decodeWriteSubs {fuel : Nat} {bs : List Byte} {subs : List WriteSub}
    (h : decodeWriteSubs fuel bs = some subs) : subs.flatMap encodeWriteSub = bs := by
  induction fuel, bs using decodeWriteSubs.induct generalizing subs with
  | case1 =>
    obtain rfl : [] = subs := by simpa [decodeWriteSubs] using h
    rfl
  | case2 fuel rt f1 f0 r1 r0 l1 l0 rest ws after hws ih =>
    rw [decodeWriteSubs, hws] at h
    obtain ⟨subs, hsubs, rfl⟩ := Option.map_eq_some_iff.mp h
    obtain ⟨hlen, rfl⟩ := of_takeWords_eq_some hws
    simp [encodeWriteSub, hlen, ih hsubs]
  | case3 fuel rt f1 f0 r1 r0 l1 l0 rest hws => simp [decodeWriteSubs, hws] at h
  | case4 => simp [decodeWriteSubs] at h

/-- A header or data that runs past the end is no sub-request (R251). -/
theorem decodeWriteSubs_truncated {fuel : Nat} {tail : List Byte} (hne : tail ≠ [])
    (hshort : tail.length < 7 ∨ tail.length < 7 + 2 * (wordAt tail 5).toNat) :
    decodeWriteSubs fuel tail = none := by
  unfold decodeWriteSubs
  split
  · exact absurd rfl hne
  · rename_i rest
    simp only [wordAt, List.length_cons, List.getD_cons_succ, List.getD_cons_zero] at hshort
    rw [takeWords_eq_none (by omega)]
  · rfl

/-! ### Decoding an encoded payload -/

theorem decodeTwoWords_toBE16 (fc : Byte) (mk : Word → Word → Instr) (w n : Word) :
    decodeTwoWords fc mk (toBE16 w ++ toBE16 n) = .ok (mk w n) := by
  simp [decodeTwoWords, toBE16]

theorem decodeWrCoils_encoded (fc : Byte) (w n : Word) {values : List Byte} (h : values.length < 256) :
    decodeWrCoils fc (toBE16 w ++ toBE16 n ++ countByte values.length :: values) =
      .ok (.wrCoils w n values) := by
  simp [decodeWrCoils, toBE16, toNat_countByte h]

theorem decodeWrRegs_encoded (fc : Byte) (w n : Word) {values : List Word} (h : 2 * values.length < 256) :
    decodeWrRegs fc (toBE16 w ++ toBE16 n ++ countByte (2 * values.length) :: wordsToBytes values) =
      .ok (.wrRegs w n values) := by
  simp [decodeWrRegs, toBE16, toNat_countByte h]

theorem decodeRdFile_encoded (fc : Byte) {subs : List ReadSub} (h : 7 * subs.length < 256) :
    decodeRdFile fc (countByte (7 * subs.length) :: subs.flatMap encodeReadSub) = .ok (.rdFile subs) := by
  rw [decodeRdFile, if_pos (by rw [flatMap_encodeReadSub_length, toNat_countByte h]), decodeReadSubs_flatMap]

/-- Sub-requests that fit a PDU have data that fits its recordLen field. -/
theorem data_length_lt_of_size_sum {subs : List WriteSub} (h : (subs.map WriteSub.size).sum < 256) :
    ∀ u ∈ subs, u.data.length < 65536 := by
  intro u hu
  have hle : u.size ≤ (subs.map WriteSub.size).sum :=
    List.single_le_sum (fun _ _ => Nat.zero_le _) _ (List.mem_map_of_mem hu)
  simp only [WriteSub.size] at hle
  omega

theorem decodeWrFile_encoded (fc : Byte) {subs : List WriteSub} (h : (subs.map WriteSub.size).sum < 256) :
    decodeWrFile fc (countByte (subs.map WriteSub.size).sum :: subs.flatMap encodeWriteSub) =
      .ok (.wrFile subs) := by
  rw [decodeWrFile, if_pos (by rw [flatMap_encodeWriteSub_length, toNat_countByte h]),
    decodeWriteSubs_flatMap (data_length_lt_of_size_sum h)]

/-- Decoding undoes encoding (R75, R79). -/
theorem decode_encode (h : CountFits i) : decode (encode i) = .ok i := by
  cases i with
  | rdCoils w n => exact decodeTwoWords_toBE16 0x01 .rdCoils w n
  | rdDiscretes w n => exact decodeTwoWords_toBE16 0x02 .rdDiscretes w n
  | rdHolding w n => exact decodeTwoWords_toBE16 0x03 .rdHolding w n
  | rdInput w n => exact decodeTwoWords_toBE16 0x04 .rdInput w n
  | wrCoil w v => exact decodeTwoWords_toBE16 0x05 .wrCoil w v
  | wrReg w v => exact decodeTwoWords_toBE16 0x06 .wrReg w v
  | rdExcStatus => rfl
  | wrCoils w n values => exact decodeWrCoils_encoded 0x0F w n h
  | wrRegs w n values => exact decodeWrRegs_encoded 0x10 w n h
  | reportSlaveId => rfl
  | rdFile subs => exact decodeRdFile_encoded 0x14 h
  | wrFile subs => exact decodeWrFile_encoded 0x15 h
  | rdDevId id => rfl

/-! ### What a decoder accepts -/

/-- The functions with one layout, of which every other payload is answered with exception 3 (R76, R182). -/
def oneLayoutCodes : List Byte :=
  [0x01, 0x02, 0x03, 0x04, 0x05, 0x06, 0x07, 0x0F, 0x10, 0x11, 0x14, 0x15]

/-- The results that decoding the PDU `fc :: p` can have. -/
inductive Decoded (fc : Byte) (p : List Byte) : Except DecodeError Instr → Prop where
  | instr {i : Instr} (pdu : encode i = fc :: p) (fits : CountFits i) : Decoded fc p (.ok i)
  | malformed : Decoded fc p (.error (.illegalDataValue fc))
  | unsupported (code : fc ∉ oneLayoutCodes) : Decoded fc p (.error (.illegalFunction fc))

theorem decodeTwoWords_decoded {mk : Word → Word → Instr}
    (henc : ∀ w n, encode (mk w n) = c :: (toBE16 w ++ toBE16 n)) (hfits : ∀ w n, CountFits (mk w n))
    (hc : fc = c) : Decoded fc p (decodeTwoWords fc mk p) := by
  unfold decodeTwoWords
  split
  · exact .instr (by simp [henc, hc]) (hfits _ _)
  · exact .malformed

theorem decodeEmpty_decoded (henc : encode i = [c]) (hfits : CountFits i) (hc : fc = c) :
    Decoded fc p (decodeEmpty fc i p) := by
  unfold decodeEmpty
  split
  · exact .instr (hc ▸ henc) hfits
  · exact .malformed

theorem decodeWrCoils_decoded (hc : fc = 0x0F) : Decoded fc p (decodeWrCoils fc p) := by
  unfold decodeWrCoils
  split
  · rename_i a b c d bc values
    split
    · rename_i hlen
      exact .instr (by simp [encode, functionCode, encodePayload, hlen, hc]) (hlen.trans_lt bc.isLt)
    · exact .malformed
  · exact .malformed

theorem decodeWrRegs_decoded (hc : fc = 0x10) : Decoded fc p (decodeWrRegs fc p) := by
  unfold decodeWrRegs
  split
  · rename_i a b c d bc values
    split
    · rename_i hlen
      split
      · rename_i ws hws
        obtain rfl := wordsToBytes_of_bytesToWords hws
        rw [wordsToBytes_length] at hlen
        exact .instr (by simp [encode, functionCode, encodePayload, hlen, hc]) (hlen.trans_lt bc.isLt)
      · exact .malformed
    · exact .malformed
  · exact .malformed

theorem decodeRdFile_decoded (hc : fc = 0x14) : Decoded fc p (decodeRdFile fc p) := by
  unfold decodeRdFile
  split
  · rename_i bc rest
    split
    · rename_i hlen
      split
      · rename_i subs hsubs
        obtain rfl := flatMap_of_decodeReadSubs hsubs
        rw [flatMap_encodeReadSub_length] at hlen
        exact .instr (by simp [encode, functionCode, encodePayload, hlen, hc]) (hlen.trans_lt bc.isLt)
      · exact .malformed
    · exact .malformed
  · exact .malformed

theorem decodeWrFile_decoded (hc : fc = 0x15) : Decoded fc p (decodeWrFile fc p) := by
  unfold decodeWrFile
  split
  · rename_i dl rest
    split
    · rename_i hlen
      split
      · rename_i subs hsubs
        obtain rfl := flatMap_of_decodeWriteSubs hsubs
        rw [flatMap_encodeWriteSub_length] at hlen
        exact .instr (by simp [encode, functionCode, encodePayload, hlen, hc]) (hlen.trans_lt dl.isLt)
      · exact .malformed
    · exact .malformed
  · exact .malformed

theorem decodeDevId_otherMei {mei : Byte} (fc : Byte) (p : List Byte) (h : mei ≠ 0x0E) :
    decodeDevId fc (mei :: p) = .error (.illegalFunction fc) := if_neg h

theorem decodeDevId_length_ne_one (fc : Byte) (h : p.length ≠ 1) :
    decodeDevId fc (0x0E :: p) = .error (.illegalDataValue fc) := by
  match p, h with
  | [], _ => rfl
  | _ :: _ :: _, _ => rfl

theorem decodeDevId_decoded (hc : fc = 0x2B) : Decoded fc p (decodeDevId fc p) := by
  subst hc
  cases p with
  | nil => exact .malformed
  | cons mei rest =>
    by_cases hmei : mei = 0x0E
    · subst hmei
      by_cases hlen : rest.length = 1
      · obtain ⟨id, rfl⟩ := List.length_eq_one_iff.mp hlen
        exact .instr rfl trivial
      · exact decodeDevId_length_ne_one 0x2B hlen ▸ .malformed
    · exact decodeDevId_otherMei 0x2B rest hmei ▸ .unsupported (by decide)

/-- One entry of the function-code map (R79). -/
theorem decoded_ite {x y : Except DecodeError Instr} (hx : fc = c → Decoded fc p x)
    (hy : fc ≠ c → Decoded fc p y) : Decoded fc p (if fc = c then x else y) := by
  by_cases h : fc = c
  · rw [if_pos h]; exact hx h
  · rw [if_neg h]; exact hy h

/-- Every result of the decoder: an instruction whose PDU was decoded, or one of two errors. -/
theorem decodePayload_decoded (fc : Byte) (p : List Byte) : Decoded fc p (decodePayload fc p) := by
  unfold decodePayload
  refine decoded_ite (decodeTwoWords_decoded (fun _ _ => rfl) fun _ _ => trivial) fun h01 => ?_
  refine decoded_ite (decodeTwoWords_decoded (fun _ _ => rfl) fun _ _ => trivial) fun h02 => ?_
  refine decoded_ite (decodeTwoWords_decoded (fun _ _ => rfl) fun _ _ => trivial) fun h03 => ?_
  refine decoded_ite (decodeTwoWords_decoded (fun _ _ => rfl) fun _ _ => trivial) fun h04 => ?_
  refine decoded_ite (decodeTwoWords_decoded (fun _ _ => rfl) fun _ _ => trivial) fun h05 => ?_
  refine decoded_ite (decodeTwoWords_decoded (fun _ _ => rfl) fun _ _ => trivial) fun h06 => ?_
  refine decoded_ite (decodeEmpty_decoded rfl trivial) fun h07 => ?_
  refine decoded_ite decodeWrCoils_decoded fun h0F => ?_
  refine decoded_ite decodeWrRegs_decoded fun h10 => ?_
  refine decoded_ite (decodeEmpty_decoded rfl trivial) fun h11 => ?_
  refine decoded_ite decodeRdFile_decoded fun h14 => ?_
  refine decoded_ite decodeWrFile_decoded fun h15 => ?_
  refine decoded_ite decodeDevId_decoded fun _ => ?_
  refine .unsupported ?_
  simp only [oneLayoutCodes, List.mem_cons, List.not_mem_nil, or_false, not_or]
  exact ⟨h01, h02, h03, h04, h05, h06, h07, h0F, h10, h11, h14, h15⟩

/-- The decoder accepts exactly the PDUs that the encoder makes (R74 to R79). -/
theorem decode_eq_ok_iff : decode pdu = .ok i ↔ encode i = pdu ∧ CountFits i := by
  constructor
  · intro h
    cases pdu with
    | nil => cases h
    | cons fc p =>
      have hdec : Decoded fc p (.ok i) := h ▸ decodePayload_decoded fc p
      cases hdec with
      | instr hpdu hfits => exact ⟨hpdu, hfits⟩
  · rintro ⟨rfl, hfits⟩
    exact decode_encode hfits

/-! ### The payloads that are accepted -/

theorem of_decode_cons_eq_ok (h : decode (fc :: p) = .ok i) :
    functionCode i = fc ∧ encodePayload i = p ∧ CountFits i := by
  obtain ⟨hpdu, hfits⟩ := decode_eq_ok_iff.mp h
  obtain ⟨hfc, hp⟩ := List.cons.inj hpdu
  exact ⟨hfc, hp, hfits⟩

/-- FC 1 to 6 have a payload of two words (R76). -/
theorem encodePayload_length_of_words
    (h : functionCode i ∈ ([0x01, 0x02, 0x03, 0x04, 0x05, 0x06] : List Byte)) :
    (encodePayload i).length = 4 := by
  cases i with
  | rdCoils | rdDiscretes | rdHolding | rdInput | wrCoil | wrReg => rfl
  | _ => simp [functionCode] at h

/-- FC 7 and FC 17 have no payload (R76). -/
theorem encodePayload_length_of_empty (h : functionCode i ∈ ([0x07, 0x11] : List Byte)) :
    (encodePayload i).length = 0 := by
  cases i with
  | rdExcStatus | reportSlaveId => rfl
  | _ => simp [functionCode] at h

/-- The byteCount of FC 15 and FC 16 counts the bytes after it (R203, R228). -/
theorem encodePayload_length_of_writes (h : functionCode i ∈ ([0x0F, 0x10] : List Byte)) (hfits : CountFits i) :
    (encodePayload i).length = 5 + ((encodePayload i).getD 4 0).toNat := by
  cases i with
  | wrCoils w n values => simp [encodePayload, toBE16, toNat_countByte hfits]; omega
  | wrRegs w n values => simp [encodePayload, toBE16, toNat_countByte hfits]; omega
  | _ => simp [functionCode] at h

/-- The byteCount of FC 16 counts whole words (R228). -/
theorem byteCount_wrRegs_even (h : functionCode i = 0x10) (hfits : CountFits i) :
    ((encodePayload i).getD 4 0).toNat % 2 = 0 := by
  cases i with
  | wrRegs w n values => simp [encodePayload, toBE16, toNat_countByte hfits]
  | _ => simp [functionCode] at h

/-- The count of FC 20 and FC 21 counts the bytes after it (R250, R251). -/
theorem encodePayload_length_of_files (h : functionCode i ∈ ([0x14, 0x15] : List Byte)) (hfits : CountFits i) :
    (encodePayload i).length = 1 + ((encodePayload i).getD 0 0).toNat := by
  cases i with
  | rdFile subs =>
    simp only [encodePayload, List.length_cons, List.getD_cons_zero, toNat_countByte hfits,
      flatMap_encodeReadSub_length]
    omega
  | wrFile subs =>
    simp only [encodePayload, List.length_cons, List.getD_cons_zero, toNat_countByte hfits,
      flatMap_encodeWriteSub_length]
    omega
  | _ => simp [functionCode] at h

/-- The count of FC 20 counts whole sub-requests (R250). -/
theorem byteCount_rdFile_mod_seven (h : functionCode i = 0x14) (hfits : CountFits i) :
    ((encodePayload i).getD 0 0).toNat % 7 = 0 := by
  cases i with
  | rdFile subs => simp [encodePayload, toNat_countByte hfits]
  | _ => simp [functionCode] at h

/-- The bytes after the count of FC 21 are complete sub-requests: after any number of them no header and no data
runs past the end (R251). -/
theorem encodePayload_wrFile_not_truncated (h : functionCode i = 0x15) (hfits : CountFits i)
    {subs : List WriteSub} {tail : List Byte} (hdata : ∀ u ∈ subs, u.data.length < 65536) (hne : tail ≠ [])
    (hshort : tail.length < 7 ∨ tail.length < 7 + 2 * (wordAt tail 5).toNat) :
    (encodePayload i).drop 1 ≠ subs.flatMap encodeWriteSub ++ tail := by
  cases i with
  | wrFile all =>
    intro heq
    have hread := decodeWriteSubs_flatMap (data_length_lt_of_size_sum hfits)
    rw [show all.flatMap encodeWriteSub = subs.flatMap encodeWriteSub ++ tail from heq,
      decodeWriteSubs_flatMap_append tail ?_ hdata, decodeWriteSubs_truncated hne hshort] at hread
    · cases hread
    · rw [List.length_append]
      exact (length_le_flatMap_encodeWriteSub subs).trans (Nat.le_add_right _ _)
  | _ => simp [functionCode] at h

/-! ### Rejecting a PDU -/

theorem decode_of_no_instr (hfc : fc ∈ oneLayoutCodes) (h : ∀ i, decode (fc :: p) ≠ .ok i) :
    decode (fc :: p) = .error (.illegalDataValue fc) := by
  have hdec : Decoded fc p (decode (fc :: p)) := decodePayload_decoded fc p
  cases hd : decode (fc :: p) with
  | ok i => exact absurd hd (h i)
  | error e =>
    rw [hd] at hdec
    cases hdec with
    | malformed => rfl
    | unsupported hcode => exact absurd hfc hcode

/-- Rejecting a unicast request answers the exception and changes nothing else (R182, R186). -/
theorem execRequest_reject {s : State} {r : Request} (h : Safety.Unicast s r) (fc : Byte) (code : ExcCode) :
    execRequest fc (fun _ => .reject code) s = .next (Safety.rejected s r fc code) := by
  unfold execRequest
  rw [h.req]
  exact (if_neg h.addr).trans rfl

end Sys2Proof.Machine
end

section
/-! PROOF. The obligations of 30_encoding.md. -/

namespace Sys2Proof.Proofs

open Sys2Proof.Machine Sys2Proof.Safety

/-- Settles O13: the counts of a well-formed instruction fit their fields, and decoding then undoes encoding. -/
theorem decodeOfEncodeIsTheInstruction : Obligations.DecodeOfEncodeIsTheInstruction :=
  fun _ hwf => decode_encode (countFits_of_wellFormed hwf)

/-- Settles O14: the decoder accepts only what the encoder makes, and the length of a PDU is that of its
instruction. -/
theorem encodeOfDecodeIsThePdu : Obligations.EncodeOfDecodeIsThePdu := by
  intro pdu i hlen hdec
  obtain ⟨rfl, -⟩ := decode_eq_ok_iff.mp hdec
  rw [encode_length] at hlen
  exact ⟨rfl, decide_eq_true hlen⟩

/-- Settles O18: an accepted payload is an encoded one, which meets none of the clauses, and the functions with
one layout have no other error than exception 3. -/
theorem wrongPayloadLengthGetsException3 : Obligations.WrongPayloadLengthGetsException3 := by
  intro s r fc p hreq hbad
  have hnot : fc ∈ oneLayoutCodes ∧ ∀ i, decode (fc :: p) ≠ .ok i := by
    rcases hbad with ⟨hfc, hlen⟩ | ⟨hfc, hlen⟩ | ⟨hfc, hlen⟩ | ⟨rfl, hodd⟩ | ⟨hfc, hlen⟩ | ⟨rfl, hmod⟩ |
      ⟨rfl, subs, tail, heq, hdata, hne, hshort⟩ | hnone
    · refine ⟨(by decide : _ ⊆ oneLayoutCodes) hfc, fun i hi => ?_⟩
      obtain ⟨rfl, rfl, -⟩ := of_decode_cons_eq_ok hi
      exact hlen (encodePayload_length_of_words hfc)
    · refine ⟨(by decide : _ ⊆ oneLayoutCodes) hfc, fun i hi => ?_⟩
      obtain ⟨rfl, rfl, -⟩ := of_decode_cons_eq_ok hi
      exact hlen (encodePayload_length_of_empty hfc)
    · refine ⟨(by decide : _ ⊆ oneLayoutCodes) hfc, fun i hi => ?_⟩
      obtain ⟨rfl, rfl, hfits⟩ := of_decode_cons_eq_ok hi
      have := encodePayload_length_of_writes hfc hfits
      omega
    · refine ⟨by decide, fun i hi => ?_⟩
      obtain ⟨hfc, rfl, hfits⟩ := of_decode_cons_eq_ok hi
      have := byteCount_wrRegs_even hfc hfits
      omega
    · refine ⟨(by decide : _ ⊆ oneLayoutCodes) hfc, fun i hi => ?_⟩
      obtain ⟨rfl, rfl, hfits⟩ := of_decode_cons_eq_ok hi
      have := encodePayload_length_of_files hfc hfits
      omega
    · refine ⟨by decide, fun i hi => ?_⟩
      obtain ⟨hfc, rfl, hfits⟩ := of_decode_cons_eq_ok hi
      exact hmod (byteCount_rdFile_mod_seven hfc hfits)
    · refine ⟨by decide, fun i hi => ?_⟩
      obtain ⟨hfc, rfl, hfits⟩ := of_decode_cons_eq_ok hi
      exact encodePayload_wrFile_not_truncated hfc hfits hdata hne hshort heq
    · exact hnone
  exact ⟨_, decode_of_no_instr hnot.1 hnot.2, execRequest_reject hreq fc .illegalDataValue⟩

/-- Settles O15: each word decodes by evaluation. -/
theorem wordsOfTheSpecDecode : Obligations.WordsOfTheSpecDecode := ⟨rfl, rfl, rfl, rfl, rfl⟩

/-- Settles O17: the MEI type is checked before the length of what follows it, and rejecting a unicast request
answers the exception. -/
theorem deviceIdentificationSubFunctionErrors : Obligations.DeviceIdentificationSubFunctionErrors := by
  intro s r mei p hreq
  refine ⟨fun id => rfl, fun hmei => ?_, ?_, fun hlen => ?_⟩
  · exact ⟨_, decodeDevId_otherMei 0x2B p hmei, execRequest_reject hreq 0x2B .illegalFunction⟩
  · exact ⟨_, rfl, execRequest_reject hreq 0x2B .illegalDataValue⟩
  · exact ⟨_, decodeDevId_length_ne_one 0x2B hlen, execRequest_reject hreq 0x2B .illegalDataValue⟩

end Sys2Proof.Proofs
end

section
/-! SUPPORT. The RTU frame check (40_rtu_codec R105, R110 to R113): the CRC shifts a byte equal to its own low
byte out of itself, and the check reads back what the encoder wrote. -/

namespace Sys2Proof.Machine

/-! ### The CRC -/

/-- While the bits shifted out are 0 the polynomial never enters (R110). -/
theorem crcBits_of_low_zero {c : Word} {n : Nat} (h : ∀ i < n, c.getLsbD i = false) :
    crcBits n c = c >>> n := by
  induction n generalizing c with
  | zero => simp [crcBits]
  | succ n ih =>
    have hbit : crcBit c = c >>> 1 := by
      rw [crcBit, h 0 n.zero_lt_succ, if_neg Bool.false_ne_true]
    have hlow : ∀ i < n, (c >>> 1).getLsbD i = false := fun i hi => by
      rw [BitVec.getLsbD_ushiftRight]
      exact h (1 + i) (by omega)
    rw [crcBits, hbit, ih hlow, ← BitVec.shiftRight_add, Nat.add_comm]

/-- A byte equal to the low byte of the CRC shifts that byte out. -/
theorem crcByte_low (c : Word) : crcByte c (c.extractLsb' 0 8) = c >>> 8 := by
  have hlow : ∀ i < 8, (c ^^^ (c.extractLsb' 0 8).setWidth 16).getLsbD i = false := fun i hi => by
    simp [hi, show i < 16 by omega]
  rw [crcByte, crcBits_of_low_zero hlow]
  ext i hi
  simp

/-- Once its low byte is shifted out, the byte equal to the high byte leaves nothing of the CRC. -/
theorem crcByte_high (c : Word) : crcByte (c >>> 8) (c.extractLsb' 8 8) = 0 := by
  have hzero : c >>> 8 ^^^ (c.extractLsb' 8 8).setWidth 16 = 0 := by
    ext i hi
    have hbit : c.getLsbD (8 + i) = true → i < 8 := fun h => by
      have := BitVec.lt_of_getLsbD h
      omega
    simpa using hbit
  rw [crcByte, hzero, crcBits_of_low_zero (by simp)]
  rfl

/-- The CRC of a string and what follows it is that of the string, carried on. -/
theorem crc16_append (s t : List Byte) : crc16 (s ++ t) = t.foldl crcByte (crc16 s) :=
  List.foldl_append

/-! ### The frame check -/

@[simp] theorem toLE16_length (w : Word) : (toLE16 w).length = 2 := rfl

theorem rtuDecode_lost (f : List Byte) : rtuDecode f true = .error .rtuOverflow := rfl

theorem rtuDecode_short {f : List Byte} (h : f.length < 4) : rtuDecode f false = .error .rtuShort := by
  simp [rtuDecode, h]

theorem rtuDecode_crc {f : List Byte} (h : 4 ≤ f.length)
    (hcrc : f.drop (f.length - 2) ≠ toLE16 (crc16 (f.take (f.length - 2)))) :
    rtuDecode f false = .error .rtuCrc := by
  simp [rtuDecode, Nat.not_lt.mpr h, hcrc]

/-- The frame check takes the CRC off an encoded frame (R105, R113). -/
theorem rtuDecode_rtuEncode (a : Byte) {pdu : List Byte} (h : 1 ≤ pdu.length) :
    rtuDecode (rtuEncode a pdu) false = .ok (a, pdu) := by
  have hlen : (rtuEncode a pdu).length - 2 = (a :: pdu).length := by simp [rtuEncode]
  have hfull : ¬ (rtuEncode a pdu).length < 4 := by simp [rtuEncode]; omega
  have htake : (rtuEncode a pdu).take (a :: pdu).length = a :: pdu := List.take_left
  have hdrop : (rtuEncode a pdu).drop (a :: pdu).length = toLE16 (crc16 (a :: pdu)) := List.drop_left
  simp only [rtuDecode, hfull, hlen, htake, hdrop]
  simp

end Sys2Proof.Machine
end

section
/-! SUPPORT. The step that consumes an event (10_state R31; 43_dispatch R176): the receiver's answer to the
event chosen settles it, and what a serial port and a TCP block answer to the events they have no rule for
(40_rtu_codec R108; 41_ascii_codec R137; 42_tcp_framer R161). -/

namespace Sys2Proof.Machine

open Sys2Proof.Safety

variable {s t u : State} {e : Event} {rest : List Event} {tr : Transport} {r : Request} {pdu : List Byte}

/-! ### Consuming the chosen event -/

theorem step_of_quiet (hc : configLegal s.cfg = true)
    (hp : pick (moves s) (Config.schedule s.draws) = some (.consume e rest))
    (hr : receive e (s.begin rest) = .quiet t) : step s = .next t :=
  step_of_makeMove hc hp (by rw [makeMove, hr, afterReceive])

theorem step_of_refused {reason : Refusal} (hc : configLegal s.cfg = true)
    (hp : pick (moves s) (Config.schedule s.draws) = some (.consume e rest))
    (hr : receive e (s.begin rest) = .refused reason) : step s = .refused reason :=
  step_of_makeMove hc hp (by rw [makeMove, hr, afterReceive])

/-- A complete frame that passes the address filter is the dispatcher's (R176, R178). -/
theorem step_of_frame (hc : configLegal s.cfg = true)
    (hp : pick (moves s) (Config.schedule s.draws) = some (.consume e rest))
    (hr : receive e (s.begin rest) = .frame r pdu u) (ha : addressFilter u.cfg r.addr = none) :
    step s = serve pdu { u with req := some r } := by
  simp [step, fetch, hc, hp, makeMove, hr, afterReceive, filterRequest, ha]

/-- What the dispatcher does with a PDU: it runs the instruction of the PDU, and rejects a PDU that is none
(R176, R181). -/
theorem serve_runs (pdu : List Byte) (t : State) :
    (∀ i, decode pdu = .ok i ∨ (i.wellFormed = true ∧ pdu = encode i) → serve pdu t = exec i t) ∧
    (∀ e, decode pdu = .error e → serve pdu t = rejectRequest e t) := by
  refine ⟨fun i hi => ?_, fun e he => by rw [serve, he]⟩
  have hdec : decode pdu = .ok i := by
    rcases hi with hi | ⟨hwf, rfl⟩
    · exact hi
    · exact decode_encode (countFits_of_wellFormed hwf)
  rw [serve, hdec]

/-! ### Serial ports -/

/-- An idle serial port has one move, to consume its first event (R31). -/
theorem pick_of_serialNext (h : SerialNext s tr e rest) :
    pick (moves s) (Config.schedule s.draws) = some (.consume e rest) := by
  have hserial : serialMoves s = [.consume e rest] := by simp [serialMoves, h.idle, h.inq]
  have hmoves : moves s = [.consume e rest] := by
    cases tr with
    | rtu | ascii => simp only [moves, h.transport, hserial]
    | tcp => exact absurd rfl h.serial
  rw [hmoves, pick]

theorem step_of_rtuReceive (h : SerialNext s .rtu e rest) (hr : rtuReceive e (s.begin rest) = .quiet t) :
    step s = .next t :=
  step_of_quiet h.legal (pick_of_serialNext h) (by rw [receive, State.begin_cfg, h.transport]; exact hr)

theorem step_of_ascReceive (h : SerialNext s .ascii e rest) (hr : ascReceive e (s.begin rest) = .quiet t) :
    step s = .next t :=
  step_of_quiet h.legal (pick_of_serialNext h) (by rw [receive, State.begin_cfg, h.transport]; exact hr)

/-- A serial port has no rule for the events of a connection (R108, R137). -/
theorem receive_connectionEvent {k : Nat} (ht : s.cfg.transport ≠ .tcp)
    (he : e = .accept ∨ e = .peerClose k ∨ e = .idleTimeout k) :
    receive e s = .refused .eventNotOnTransport := by
  have hrtu : rtuReceive e s = .refused .eventNotOnTransport := by rcases he with rfl | rfl | rfl <;> rfl
  have hasc : ascReceive e s = .refused .eventNotOnTransport := by rcases he with rfl | rfl | rfl <;> rfl
  unfold receive
  split
  · exact hrtu
  · exact hasc
  · contradiction

/-! ### TCP blocks -/

/-- A TCP block has no rule for the serial silences (R161). -/
theorem receive_silence (ht : s.cfg.transport = .tcp) (he : e = .t15 ∨ e = .t35) :
    receive e s = .refused .eventNotOnTransport := by
  rw [receive, ht]
  rcases he with rfl | rfl <;> rfl

/-- An event that names an absent session has no step (R161). -/
theorem receive_absentSession {k : Nat} (ht : s.cfg.transport = .tcp) (he : eventSession e = some k)
    (hk : s.session k = none) : receive e s = .refused .absentSession := by
  have habsent (f : Session → Received) : onSession k s f = .refused .absentSession := by rw [onSession, hk]
  rw [receive, ht]
  cases e with
  | rxByte | t15 | t35 | actTimeout | accept => cases he
  | sessRxByte | sessActTimeout | idleTimeout | peerClose => cases he; exact habsent _

/-! ### Configurations -/

/-- A machine with a parameter outside its legal values has no step (R313). -/
theorem step_of_illegalConfiguration (hc : ¬ configLegal s.cfg = true) :
    step s = .refused .illegalConfiguration := by
  rw [step, fetch, if_neg hc]

/-- The legal values of the parameters that R9 bounds. -/
theorem configLegal_bounds {cfg : Config} (h : configLegal cfg = true) :
    (1 ≤ cfg.coilCap ∧ cfg.coilCap ≤ 2000) ∧ (1 ≤ cfg.regCap ∧ cfg.regCap ≤ 65536) ∧
      (∀ d ∈ cfg.slaveId, d.2.length ≤ 251) ∧
      ∀ d ∈ cfg.devId, (d.1.2.toNat ≤ 6 ∨ 128 ≤ d.1.2.toNat) ∧ d.2.length ≤ 250 := by
  simp only [configLegal, Bool.and_eq_true, List.all_eq_true, decide_eq_true_eq] at h
  obtain ⟨⟨⟨hcoil, hreg⟩, hslave⟩, hdev⟩ := h
  exact ⟨hcoil, hreg, hslave, hdev⟩

end Sys2Proof.Machine
end

section
/-! SUPPORT. The rules of the RTU receiver (40_rtu_codec R100 to R107), an equation for each state it can be
in, and the activity timeout of both serial receivers (R107; 41_ascii_codec R132). -/

namespace Sys2Proof.Machine

variable {s : State}

/-! ### Bytes and gaps -/

theorem rtuRxByte_idle (b : Byte) (h : s.rtu.st = .idle) :
    rtuRxByte b s = .quiet (s.setRtu ⟨.recv, [b], false⟩) := by rw [rtuRxByte, h]

theorem rtuRxByte_recv (b : Byte) (h : s.rtu.st = .recv) (hlen : s.rtu.buf.length < rtuAduMax) :
    rtuRxByte b s = .quiet (s.setRtu ⟨.recv, s.rtu.buf ++ [b], s.rtu.ovf⟩) := by
  simp only [rtuRxByte, h, if_pos hlen]

theorem rtuRxByte_recv_full (b : Byte) (h : s.rtu.st = .recv) (hlen : rtuAduMax ≤ s.rtu.buf.length) :
    rtuRxByte b s = .quiet (s.setRtu ⟨.recv, s.rtu.buf, true⟩) := by
  simp only [rtuRxByte, h, if_neg (Nat.not_lt.mpr hlen)]

theorem rtuRxByte_gap (b : Byte) (h : s.rtu.st = .gap) :
    rtuRxByte b s = .quiet ((s.emit (.drop .serial .rtuIntercharGap)).setRtu ⟨.recv, [b], false⟩) := by
  rw [rtuRxByte, h]

theorem rtuT15_eq (s : State) :
    rtuT15 s = .quiet (s.setRtu (if s.rtu.st = .recv then ⟨.gap, s.rtu.buf, s.rtu.ovf⟩ else s.rtu)) := by
  cases h : s.rtu.st <;> simp [rtuT15, h, State.setRtu]

/-! ### The end of a frame -/

theorem rtuT35_idle (h : s.rtu.st = .idle) : rtuT35 s = .quiet s := by rw [rtuT35, h]

/-- Outside IDLE the silence of 3.5 characters ends the frame (R104). -/
theorem rtuT35_frameEnd (h : s.rtu.st ≠ .idle) : rtuT35 s = rtuFrameEnd s := by
  unfold rtuT35
  split
  · contradiction
  · rfl
  · rfl

/-- A frame that the check rejects is dropped with the check's reason (R106). -/
theorem rtuFrameEnd_error {reason : DropReason} (h : rtuDecode s.rtu.buf s.rtu.ovf = .error reason) :
    rtuFrameEnd s = .quiet ((s.setRtu rtuIdle).emit (.drop .serial reason)) := by rw [rtuFrameEnd, h]

theorem rtuFrameEnd_ok {a : Byte} {pdu : List Byte} (h : rtuDecode s.rtu.buf s.rtu.ovf = .ok (a, pdu)) :
    rtuFrameEnd s = .frame ⟨.serial, a, none⟩ pdu (s.setRtu rtuIdle) := by rw [rtuFrameEnd, h]

/-! ### The activity timeout -/

theorem rtuActTimeout_eq (s : State) :
    rtuActTimeout s = .quiet { s with
      rtu := rtuIdle
      out := s.out ++ (if s.rtu.st = .idle then [] else [.drop .serial .partialTimeout])
        ++ [.status .serial .timeout]
      status := .timeout } := by
  cases h : s.rtu.st <;> simp [rtuActTimeout, h, State.setRtu, State.emitTimeout, State.emit]

theorem ascActTimeout_eq (s : State) :
    ascActTimeout s = .quiet { s with
      asc := ascHunt
      out := s.out ++ (if s.asc.st = .hunt then [] else [.drop .serial .partialTimeout])
        ++ [.status .serial .timeout]
      status := .timeout } := by
  cases h : s.asc.st <;> simp [ascActTimeout, h, State.setAsc, State.emitTimeout, State.emit]

end Sys2Proof.Machine
end

section
/-! PROOF. The obligations of 40_rtu_codec.md. -/

namespace Sys2Proof.Proofs

open Sys2Proof.Machine Sys2Proof.Safety

/-- Settles O20: the silence ends the frame, the check gives back its address and PDU, and the dispatcher
serves them. -/
theorem rtuFrameRunsItsInstruction : Obligations.RtuFrameRunsItsInstruction := by
  rintro s t rest a pdu hnext hst hovf hlen hbuf ha rfl
  have hcheck : rtuDecode s.rtu.buf s.rtu.ovf = .ok (a, pdu) := by
    rw [hbuf, hovf, rtuDecode_rtuEncode a hlen]
  have hframe : receive .t35 (s.begin rest) =
      .frame ⟨.serial, a, none⟩ pdu ((s.begin rest).setRtu rtuIdle) := by
    rw [receive, State.begin_cfg, hnext.transport]
    exact (rtuT35_frameEnd (s := s.begin rest) hst).trans (rtuFrameEnd_ok hcheck)
  rw [step_of_frame hnext.legal (pick_of_serialNext hnext) hframe ha]
  exact serve_runs pdu _

/-- Settles O23: each of the two bytes appended takes one byte of the CRC out of it. -/
theorem crcResidueIsZero : Obligations.CrcResidueIsZero := by
  intro s
  calc crc16 (s ++ toLE16 (crc16 s))
      = crcByte (crcByte (crc16 s) ((crc16 s).extractLsb' 0 8)) ((crc16 s).extractLsb' 8 8) := crc16_append ..
    _ = crcByte (crc16 s >>> 8) ((crc16 s).extractLsb' 8 8) := by rw [crcByte_low]
    _ = 0 := crcByte_high _

/-- Settles O24: the last two bytes of an encoded frame are the CRC of the others. -/
theorem rtuDecodeOfEncode : Obligations.RtuDecodeOfEncode := fun a _ h => rtuDecode_rtuEncode a h

/-- Settles O28: a rule of the receiver for each state, in the step that consumes the event. -/
theorem rtuReceiverTakesBytesAndGaps : Obligations.RtuReceiverTakesBytesAndGaps := by
  intro s rest b
  refine ⟨fun hnext hst => ?_, fun hnext hst hlen => ?_, fun hnext hst hlen => ?_, fun hnext hst => ?_,
    fun hnext => ?_⟩
  · exact step_of_rtuReceive hnext (rtuRxByte_idle b hst)
  · exact step_of_rtuReceive hnext (rtuRxByte_recv b hst hlen)
  · exact step_of_rtuReceive hnext (rtuRxByte_recv_full b hst hlen)
  · exact step_of_rtuReceive hnext (rtuRxByte_gap b hst)
  · exact step_of_rtuReceive hnext (rtuT15_eq _)

/-- Settles O29: the silence ends the frame, and the check rejects it for the first of the three reasons that
applies. -/
theorem rtuBadFramesAreDropped : Obligations.RtuBadFramesAreDropped := by
  intro s rest hnext
  refine ⟨fun hst => step_of_rtuReceive hnext (rtuT35_idle (s := s.begin rest) hst),
    fun hst reason hbad => ?_⟩
  have hcheck : rtuDecode s.rtu.buf s.rtu.ovf = .error reason := by
    rcases hbad with ⟨hovf, rfl⟩ | ⟨hovf, hlen, rfl⟩ | ⟨hovf, hlen, hcrc, rfl⟩ <;> rw [hovf]
    · exact rtuDecode_lost _
    · exact rtuDecode_short hlen
    · exact rtuDecode_crc hlen hcrc
  exact step_of_rtuReceive hnext
    ((rtuT35_frameEnd (s := s.begin rest) hst).trans (rtuFrameEnd_error hcheck))

/-- Settles O30: on either port the receiver's rule for the timeout says what the step does. -/
theorem serialTimeoutDiscardsPartialFrame : Obligations.SerialTimeoutDiscardsPartialFrame :=
  fun s rest =>
    ⟨fun hnext => step_of_rtuReceive hnext (rtuActTimeout_eq (s.begin rest)),
      fun hnext => step_of_ascReceive hnext (ascActTimeout_eq (s.begin rest))⟩

/-- Settles O37: the receiver refuses the events it has no rule for, and a step asks for a legal configuration
before any move. -/
theorem eventsAndConfigurationsWithoutStep : Obligations.EventsAndConfigurationsWithoutStep := by
  intro s rest tr k b e
  refine ⟨fun he hnext => ?_, fun he hnext => ?_, fun he hnext => ?_, fun he hnext hk => ?_, fun hbad => ?_⟩
  · have hserial : s.cfg.transport ≠ .tcp := hnext.transport ▸ hnext.serial
    exact step_of_refused hnext.legal (pick_of_serialNext hnext)
      (receive_connectionEvent (s := s.begin rest) hserial he)
  · exact step_of_ascReceive hnext (by rcases he with rfl | rfl <;> rfl)
  · exact step_of_refused hnext.legal hnext.chosen (receive_silence (s := s.begin rest) hnext.transport he)
  · have hnames : eventSession e = some k := by rcases he with rfl | rfl | rfl | rfl <;> rfl
    exact step_of_refused hnext.legal hnext.chosen
      (receive_absentSession (s := s.begin rest) hnext.transport hnames hk)
  · refine step_of_illegalConfiguration fun hlegal => ?_
    obtain ⟨hcoil, hreg, hslave, hdev⟩ := configLegal_bounds hlegal
    rcases hbad with hcap | hcap | hcap | hcap | ⟨d, hd, hlen⟩ | ⟨d, hd, hlen⟩ | ⟨d, hd, hid⟩
    · omega
    · omega
    · omega
    · omega
    · exact absurd (hslave d hd) (Nat.not_le.mpr hlen)
    · exact absurd (hdev d hd).2 (Nat.not_le.mpr hlen)
    · obtain ⟨hvalue, -⟩ := hdev d hd
      omega

end Sys2Proof.Proofs
end

section
/-! SUPPORT. Hex characters and the ASCII frame check (41_ascii_codec R128, R131, R133 to R135): a digit reads
back from its character and a byte from its digits, the LRC makes the sum of a frame 0, and the check reads back
what the encoder wrote. -/

namespace Sys2Proof.Machine

/-! ### Hex characters -/

/-- The receiver reads back every digit sent (R128, R133). -/
@[simp] theorem hexVal_hexChr (v : Nibble) : hexVal (hexChr v) = some v := by
  decide +revert

theorem hexVal_upper {c : Byte} (hA : 0x41 ≤ c.toNat) (hF : c.toNat ≤ 0x46) :
    hexVal c = some (BitVec.ofNat 4 (c.toNat - 0x41 + 10)) := by
  rw [hexVal, if_neg (by omega), if_pos ⟨hA, hF⟩]

theorem hexVal_lower {c : Byte} (ha : 0x61 ≤ c.toNat) (hf : c.toNat ≤ 0x66) :
    hexVal c = some (BitVec.ofNat 4 (c.toNat - 0x61 + 10)) := by
  rw [hexVal, if_neg (by omega), if_neg (by omega), if_pos ⟨ha, hf⟩]

/-- A lower-case letter, 0x20 above the upper-case one, has its value (R128). -/
theorem hexVal_add_case {c : Byte} (hA : 0x41 ≤ c.toNat) (hF : c.toNat ≤ 0x46) :
    hexVal (c + 0x20) = hexVal c := by
  have hnat : (c + 0x20).toNat = c.toNat + 0x20 := by
    rw [BitVec.toNat_add]
    exact Nat.mod_eq_of_lt (by simp; omega)
  rw [hexVal_upper hA hF, hexVal_lower (by omega) (by omega), hnat]
  congr 3

theorem hexVal_charColon : hexVal charColon = none := rfl

theorem hexVal_charCR : hexVal charCR = none := rfl

/-! ### Bytes and their digits -/

@[simp] theorem hexDigits_length (b : Byte) : (hexDigits b).length = 2 := rfl

/-- The two digits of a byte are read as the byte (R131, R133). -/
theorem hexBytes_hexDigits_append (b : Byte) (h : List Nibble) :
    hexBytes (hexDigits b ++ h) = b :: hexBytes h := by
  have hbyte : (b.extractLsb' 4 4 ++ b.extractLsb' 0 4 : Byte) = b := by
    refine BitVec.eq_of_getLsbD_eq fun i hi => ?_
    rw [BitVec.getLsbD_append]
    by_cases hlow : i < 4
    · simp [hlow]
    · simp [hlow, show i - 4 < 4 by omega, show 4 + (i - 4) = i by omega]
  exact congrArg (· :: hexBytes h) hbyte

/-- The bytes of the digits of a byte string are the string (R131, R133). -/
@[simp] theorem hexBytes_flatMap_hexDigits (bs : List Byte) : hexBytes (bs.flatMap hexDigits) = bs := by
  induction bs with
  | nil => rfl
  | cons b bs ih =>
    rw [List.flatMap_cons, hexBytes_hexDigits_append, ih]

theorem flatMap_hexDigits_length (bs : List Byte) : (bs.flatMap hexDigits).length = 2 * bs.length := by
  induction bs with
  | nil => rfl
  | cons b bs ih =>
    rw [List.flatMap_cons, List.length_append, ih, hexDigits_length, List.length_cons]
    omega

/-! ### The LRC -/

/-- The one byte that makes the sum 0 is the LRC (R134). -/
theorem foldl_add_append_eq_zero_iff (body : List Byte) (x : Byte) :
    (body ++ [x]).foldl (· + ·) 0 = 0 ↔ x = lrc body := by
  rw [List.foldl_append]
  exact add_eq_zero_iff_eq_neg'

/-! ### The frame check -/

variable {h : List Nibble}

theorem asciiDecode_odd (hodd : h.length % 2 = 1) : asciiDecode h = .error .asciiOdd := by
  rw [asciiDecode, if_pos hodd]

theorem asciiDecode_short (heven : h.length % 2 = 0) (hlen : h.length < 6) :
    asciiDecode h = .error .asciiShort := by
  rw [asciiDecode, if_neg (by omega), if_pos hlen]

theorem asciiDecode_lrc (heven : h.length % 2 = 0) (hlen : 6 ≤ h.length)
    (hlrc : (hexBytes h).getLast? ≠ some (lrc (hexBytes h).dropLast)) :
    asciiDecode h = .error .asciiLrc := by
  have hbytes : hexBytes h ≠ [] := List.ne_nil_of_length_pos (by rw [hexBytes_length]; omega)
  have hbad : (hexBytes h).drop ((hexBytes h).length - 1) ≠
      [lrc ((hexBytes h).take ((hexBytes h).length - 1))] := by
    rw [← List.dropLast_eq_take, List.drop_length_sub_one hbytes]
    rw [List.getLast?_eq_some_getLast hbytes] at hlrc
    simpa using hlrc
  rw [asciiDecode, if_neg (by omega), if_neg (by omega)]
  exact if_pos hbad

/-- The frame check takes the LRC off the digits of an encoded frame (R131, R135). -/
theorem asciiDecode_hexDigits (a : Byte) {pdu : List Byte} (hpdu : 1 ≤ pdu.length) :
    asciiDecode ((a :: pdu ++ [lrc (a :: pdu)]).flatMap hexDigits) = .ok (a, pdu) := by
  have hlen : (a :: pdu ++ [lrc (a :: pdu)]).length - 1 = (a :: pdu).length := by simp
  have htake : (a :: pdu ++ [lrc (a :: pdu)]).take (a :: pdu).length = a :: pdu := List.take_left
  have hdrop : (a :: pdu ++ [lrc (a :: pdu)]).drop (a :: pdu).length = [lrc (a :: pdu)] := List.drop_left
  rw [asciiDecode, flatMap_hexDigits_length, if_neg (by omega), if_neg (by simp; omega)]
  simp only [hexBytes_flatMap_hexDigits, hlen, htake, hdrop]
  simp

end Sys2Proof.Machine
end

section
/-! SUPPORT. The rules of the ASCII receiver (41_ascii_codec R125 to R131), an equation for each state it can be
in and each kind of byte, and what it makes of a run of hex characters. -/

namespace Sys2Proof.Machine

open Sys2Proof.Safety

variable {s t : State} {c : Byte} {v : Nibble}

/-! ### A byte in HUNT, in BODY and after CR -/

theorem ascRxByte_hunt (c : Byte) (h : s.asc.st = .hunt) :
    ascRxByte c s = .quiet (s.setAsc (if c = charColon then ascStart else s.asc)) := by
  simp only [ascRxByte, h]
  split <;> rfl

theorem ascRxByte_body_digit (h : s.asc.st = .body) (hv : hexVal c = some v)
    (hlen : s.asc.hex.length < asciiBodyMax) :
    ascRxByte c s = .quiet (s.setAsc ⟨.body, s.asc.hex ++ [v]⟩) := by
  simp only [ascRxByte, h, ascBodyByte, hv, if_pos hlen]

theorem ascRxByte_body_full (h : s.asc.st = .body) (hv : hexVal c = some v)
    (hlen : asciiBodyMax ≤ s.asc.hex.length) :
    ascRxByte c s = ascDrop .asciiOverflow ascHunt s := by
  simp only [ascRxByte, h, ascBodyByte, hv, if_neg (Nat.not_lt.mpr hlen)]

theorem ascRxByte_body_colon (h : s.asc.st = .body) :
    ascRxByte charColon s = ascDrop .asciiRestart ascStart s := by
  simp only [ascRxByte, h, ascBodyByte, hexVal_charColon, if_true]

theorem ascRxByte_body_cr (h : s.asc.st = .body) :
    ascRxByte charCR s = .quiet (s.setAsc ⟨.cr, s.asc.hex⟩) := by
  simp only [ascRxByte, h, ascBodyByte, hexVal_charCR, if_true]
  exact if_neg (by decide)

theorem ascRxByte_body_other (h : s.asc.st = .body) (hv : hexVal c = none) (hcolon : c ≠ charColon)
    (hcr : c ≠ charCR) : ascRxByte c s = ascDrop .asciiNonhex ascHunt s := by
  simp only [ascRxByte, h, ascBodyByte, hv, if_neg hcolon, if_neg hcr]

theorem ascRxByte_cr_other (h : s.asc.st = .cr) (hlf : c ≠ charLF) :
    ascRxByte c s = ascDrop .asciiNoLf (if c = charColon then ascStart else ascHunt) s := by
  simp only [ascRxByte, h, if_neg hlf]

/-! ### The end of a frame -/

theorem ascRxByte_cr_lf (h : s.asc.st = .cr) : ascRxByte charLF s = ascFrameEnd s := by
  simp only [ascRxByte, h, if_true]

/-- A frame that the check rejects is dropped with the check's reason (R131). -/
theorem ascFrameEnd_error {reason : DropReason} (h : asciiDecode s.asc.hex = .error reason) :
    ascFrameEnd s = .quiet ((s.setAsc ascHunt).emit (.drop .serial reason)) := by rw [ascFrameEnd, h]

theorem ascFrameEnd_ok {a : Byte} {pdu : List Byte} (h : asciiDecode s.asc.hex = .ok (a, pdu)) :
    ascFrameEnd s = .frame ⟨.serial, a, none⟩ pdu (s.setAsc ascHunt) := by rw [ascFrameEnd, h]

/-! ### A run of bytes -/

theorem feedAscii_cons_of_quiet (cs : List Byte) (h : ascRxByte c s = .quiet t) :
    feedAscii (c :: cs) s = feedAscii cs t := by rw [feedAscii, h]

/-- In BODY the characters of digits for which there is room are appended, and receiving goes on (R126). -/
theorem feedAscii_hexChr_append (s : State) (cs : List Byte) {held digits : List Nibble}
    (hroom : held.length + digits.length ≤ asciiBodyMax) :
    feedAscii (digits.map hexChr ++ cs) (s.setAsc ⟨.body, held⟩) =
      feedAscii cs (s.setAsc ⟨.body, held ++ digits⟩) := by
  induction digits generalizing held with
  | nil => simp
  | cons v digits ih =>
    rw [List.length_cons] at hroom
    have hone :
        ascRxByte (hexChr v) (s.setAsc ⟨.body, held⟩) = .quiet (s.setAsc ⟨.body, held ++ [v]⟩) :=
      ascRxByte_body_digit (s := s.setAsc ⟨.body, held⟩) rfl (hexVal_hexChr v)
        (show held.length < asciiBodyMax by omega)
    calc feedAscii ((v :: digits).map hexChr ++ cs) (s.setAsc ⟨.body, held⟩)
        = feedAscii (digits.map hexChr ++ cs) (s.setAsc ⟨.body, held ++ [v]⟩) :=
          feedAscii_cons_of_quiet _ hone
      _ = feedAscii cs (s.setAsc ⟨.body, held ++ v :: digits⟩) := by
          rw [ih (by simp; omega), List.append_assoc, List.singleton_append]

/-- From HUNT a colon, the characters of at most ASCII_BODY_MAX digits and CR leave the receiver waiting for LF
with those digits, and nothing else changed (R125, R126). -/
theorem feedAscii_frame {digits : List Nibble} (h : s.asc.st = .hunt) (hlen : digits.length ≤ asciiBodyMax) :
    feedAscii (charColon :: digits.map hexChr ++ [charCR]) s = some (s.setAsc ⟨.cr, digits⟩) := by
  have hstart : ascRxByte charColon s = .quiet (s.setAsc ⟨.body, []⟩) := ascRxByte_hunt charColon h
  have hend : ascRxByte charCR (s.setAsc ⟨.body, digits⟩) = .quiet (s.setAsc ⟨.cr, digits⟩) :=
    ascRxByte_body_cr (s := s.setAsc ⟨.body, digits⟩) rfl
  rw [List.cons_append, feedAscii_cons_of_quiet _ hstart, feedAscii_hexChr_append s _ (by simpa using hlen),
    List.nil_append, feedAscii_cons_of_quiet _ hend, feedAscii]

end Sys2Proof.Machine
end

section
/-! PROOF. The obligations of 41_ascii_codec.md. -/

namespace Sys2Proof.Proofs

open Sys2Proof.Machine Sys2Proof.Safety

/-- Settles O21: the LF ends the frame, the check gives back its address and PDU, and the dispatcher serves
them. -/
theorem asciiFrameRunsItsInstruction : Obligations.AsciiFrameRunsItsInstruction := by
  rintro s t rest a pdu hnext hst hlen hhex ha rfl
  have hcheck : asciiDecode s.asc.hex = .ok (a, pdu) := by rw [hhex, asciiDecode_hexDigits a hlen]
  have hframe : receive (.rxByte charLF) (s.begin rest) =
      .frame ⟨.serial, a, none⟩ pdu ((s.begin rest).setAsc ascHunt) := by
    rw [receive, State.begin_cfg, hnext.transport]
    exact (ascRxByte_cr_lf (s := s.begin rest) hst).trans (ascFrameEnd_ok hcheck)
  rw [step_of_frame hnext.legal (pick_of_serialNext hnext) hframe ha]
  exact serve_runs pdu _

/-- Settles O26: the characters before LF leave the digits of the frame in the receiver, which the check reads
back when LF ends it. -/
theorem asciiReceiverDecodesEncodedFrames : Obligations.AsciiReceiverDecodesEncodedFrames := by
  intro s a pdu hst hlen hmax
  have hfits : ((a :: pdu ++ [lrc (a :: pdu)]).flatMap hexDigits).length ≤ asciiBodyMax := by
    rw [flatMap_hexDigits_length]
    simp [pduMax, asciiBodyMax] at hmax ⊢
    omega
  refine ⟨charColon :: hexStr (a :: pdu ++ [lrc (a :: pdu)]) ++ [charCR], _, ?_, feedAscii_frame hst hfits,
    rfl, ?_⟩
  · simp [asciiEncode, charLF]
  · exact (ascRxByte_cr_lf rfl).trans (ascFrameEnd_ok (asciiDecode_hexDigits a hlen))

/-- Settles O25: the digits and letters by their ranges, and the LRC as the negative of the sum. -/
theorem hexDigitsAndLrc : Obligations.HexDigitsAndLrc :=
  ⟨hexVal_hexChr, fun _ => hexVal_add_case, foldl_add_append_eq_zero_iff⟩

/-- Settles O31: a rule of the receiver for each kind of byte, in the step that consumes the event. -/
theorem asciiByteInHuntAndBody : Obligations.AsciiByteInHuntAndBody := by
  intro s rest c hnext
  refine ⟨fun hst => ?_, fun hst v hv hlen => ?_, fun hst v hv hlen => ?_, ?_, ?_,
    fun hst hv hcolon hcr => ?_⟩
  · exact step_of_ascReceive hnext (ascRxByte_hunt (s := s.begin rest) c hst)
  · exact step_of_ascReceive hnext (ascRxByte_body_digit (s := s.begin rest) hst hv hlen)
  · exact step_of_ascReceive hnext (ascRxByte_body_full (s := s.begin rest) hst hv hlen)
  · rintro hst rfl
    exact step_of_ascReceive hnext (ascRxByte_body_colon (s := s.begin rest) hst)
  · rintro hst rfl
    exact step_of_ascReceive hnext (ascRxByte_body_cr (s := s.begin rest) hst)
  · exact step_of_ascReceive hnext (ascRxByte_body_other (s := s.begin rest) hst hv hcolon hcr)

/-- Settles O32: a byte other than LF drops the frame; LF ends it, and the check rejects it for the first of the
three reasons that applies. -/
theorem asciiBadFramesAreDropped : Obligations.AsciiBadFramesAreDropped := by
  intro s rest c hnext hst
  refine ⟨fun hlf => step_of_ascReceive hnext (ascRxByte_cr_other (s := s.begin rest) hst hlf), ?_⟩
  rintro rfl reason hbad
  have hcheck : asciiDecode s.asc.hex = .error reason := by
    rcases hbad with ⟨hodd, rfl⟩ | ⟨heven, hlen, rfl⟩ | ⟨heven, hlen, hlrc, rfl⟩
    · exact asciiDecode_odd hodd
    · exact asciiDecode_short heven hlen
    · exact asciiDecode_lrc heven hlen hlrc
  exact step_of_ascReceive hnext
    ((ascRxByte_cr_lf (s := s.begin rest) hst).trans (ascFrameEnd_error hcheck))

end Sys2Proof.Proofs
end

section
/-! SUPPORT. Frame extraction of the TCP framer (42_tcp_framer R150, R153, R159): when a buffer is incomplete, when
its header is corrupted, and that extraction takes apart what the encoder put together. -/

namespace Sys2Proof.Machine

open Sys2Proof.Safety

variable {u : List Byte}

/-! ### The three outcomes -/

/-- The framer waits exactly while the buffer is what R28 says of a session. -/
theorem tcpExtract_eq_incomplete_iff : tcpExtract u = .incomplete ↔ BufOk u := by
  refine ⟨tcpExtract_incomplete, fun h => ?_⟩
  rcases h with hlen | ⟨hproto, hmin, hmax, hlen⟩
  · rw [tcpExtract, if_pos hlen]
  · simp [tcpExtract, hproto, hlen, Nat.not_lt.mpr hmin, Nat.not_lt.mpr hmax]

theorem tcpExtract_badProtocolId (hlen : 6 ≤ u.length) (hproto : wordAt u 2 ≠ 0) :
    tcpExtract u = .corrupted .tcpProtocolId := by
  rw [tcpExtract, if_neg (Nat.not_lt.mpr hlen), if_pos hproto]

theorem tcpExtract_badLength (hlen : 6 ≤ u.length) (hproto : wordAt u 2 = 0)
    (hbad : (wordAt u 4).toNat < tcpLenMin ∨ tcpLenMax < (wordAt u 4).toNat) :
    tcpExtract u = .corrupted .tcpLength := by
  simp [tcpExtract, Nat.not_lt.mpr hlen, hproto, hbad]

theorem tcpExtract_whole (hproto : wordAt u 2 = 0) (hmin : tcpLenMin ≤ (wordAt u 4).toNat)
    (hmax : (wordAt u 4).toNat ≤ tcpLenMax) (hlen : 6 + (wordAt u 4).toNat ≤ u.length) :
    tcpExtract u = .complete ⟨wordAt u 0, u.getD 6 0⟩ ((u.drop 7).take ((wordAt u 4).toNat - 1)) := by
  simp [tcpExtract, hproto, Nat.not_lt.mpr hmin, Nat.not_lt.mpr hmax, Nat.not_lt.mpr hlen,
    show ¬ u.length < 6 by omega]

/-! ### The header of an encoded ADU -/

variable (ctx : TcpCtx) {pdu : List Byte}

/-- A word that lies in the bytes taken is the word of the whole buffer. -/
theorem wordAt_take {n i : Nat} (h : i + 1 < n) : wordAt (u.take n) i = wordAt u i := by
  have hi : i < n := Nat.lt_of_succ_lt h
  simp [wordAt, List.getD_eq_getElem?_getD, h, hi]

theorem tcpEncode_length (pdu : List Byte) : (tcpEncode ctx pdu).length = 7 + pdu.length := by
  simp [tcpEncode, toBE16]
  omega

theorem wordAt_tcpEncode_transactionId (pdu : List Byte) :
    wordAt (tcpEncode ctx pdu) 0 = ctx.transactionId :=
  be16_extract _

theorem wordAt_tcpEncode_protocolId (pdu : List Byte) : wordAt (tcpEncode ctx pdu) 2 = 0 :=
  show be16 0x00 0x00 = 0 by decide

/-- The length field counts the unitId and the PDU (R150, R159). -/
theorem wordAt_tcpEncode_length (h : pdu.length ≤ pduMax) :
    (wordAt (tcpEncode ctx pdu) 4).toNat = 1 + pdu.length := by
  have hfits : 1 + pdu.length < 2 ^ 16 := by simp only [pduMax] at h; omega
  have hword : wordAt (tcpEncode ctx pdu) 4 = BitVec.ofNat 16 (1 + pdu.length) := be16_extract _
  rw [hword, BitVec.toNat_ofNat, Nat.mod_eq_of_lt hfits]

/-- The length field of an encoded ADU is within its bounds (R155, R159). -/
theorem wordAt_tcpEncode_length_bounds (h : 1 ≤ pdu.length) (hmax : pdu.length ≤ pduMax) :
    tcpLenMin ≤ (wordAt (tcpEncode ctx pdu) 4).toNat ∧ (wordAt (tcpEncode ctx pdu) 4).toNat ≤ tcpLenMax := by
  rw [wordAt_tcpEncode_length ctx hmax]
  simp only [tcpLenMin, tcpLenMax, pduMax] at hmax ⊢
  omega

/-! ### Extraction of an encoded ADU -/

/-- The framer takes the context and the PDU off a whole ADU (R153, R159). -/
theorem tcpExtract_tcpEncode (h : 1 ≤ pdu.length) (hmax : pdu.length ≤ pduMax) :
    tcpExtract (tcpEncode ctx pdu) = .complete ctx pdu := by
  obtain ⟨hlow, hhigh⟩ := wordAt_tcpEncode_length_bounds ctx h hmax
  have hfield := wordAt_tcpEncode_length ctx hmax
  have hlen := tcpEncode_length ctx pdu
  have hunit : (tcpEncode ctx pdu).getD 6 0 = ctx.unitId := rfl
  have hbody : (tcpEncode ctx pdu).drop 7 = pdu := rfl
  rw [tcpExtract_whole (wordAt_tcpEncode_protocolId ctx pdu) hlow hhigh (by omega),
    wordAt_tcpEncode_transactionId, hunit, hbody, hfield, Nat.add_sub_cancel_left, List.take_length]

/-- Every proper beginning of an ADU ends in its header, or in the body that its length field announces. -/
theorem bufOk_take_tcpEncode {n : Nat} (h : 1 ≤ pdu.length) (hmax : pdu.length ≤ pduMax)
    (hn : n < (tcpEncode ctx pdu).length) : BufOk ((tcpEncode ctx pdu).take n) := by
  have hlen : ((tcpEncode ctx pdu).take n).length = n := List.length_take_of_le hn.le
  by_cases hheader : n < 6
  · exact .inl (hlen.trans_lt hheader)
  · have hproto : wordAt ((tcpEncode ctx pdu).take n) 2 = 0 :=
      (wordAt_take (by omega)).trans (wordAt_tcpEncode_protocolId ctx pdu)
    have hfield : wordAt ((tcpEncode ctx pdu).take n) 4 = wordAt (tcpEncode ctx pdu) 4 := wordAt_take (by omega)
    obtain ⟨hlow, hhigh⟩ := wordAt_tcpEncode_length_bounds ctx h hmax
    refine .inr ⟨hproto, hfield ▸ hlow, hfield ▸ hhigh, ?_⟩
    rw [hlen, hfield, wordAt_tcpEncode_length ctx hmax]
    rw [tcpEncode_length] at hn
    omega

end Sys2Proof.Machine
end

section
/-! SUPPORT. The rules of the TCP framer (42_tcp_framer R151 to R157), an equation for each event and what it
finds, and the step that consumes the event chosen. -/

namespace Sys2Proof.Machine

open Sys2Proof.Safety

variable {s t : State} {e : Event} {rest : List Event} {k : Nat} {x : Session} {b : Byte}

/-! ### Accept -/

theorem sessionsFull_iff : sessionsFull s = true ↔ ∃ m, s.cfg.maxSessions = some m ∧ m ≤ s.sess.length := by
  unfold sessionsFull
  split <;> simp_all

theorem tcpAccept_full (h : sessionsFull s = true) : tcpAccept s = .quiet (s.emit (.close none)) := by
  rw [tcpAccept, if_pos h]

theorem tcpAccept_room (h : ¬ sessionsFull s = true) :
    tcpAccept s = .quiet { s with
      sess := s.sess ++ [(s.nextSess, ⟨[], none⟩)], nextSess := s.nextSess + 1 } := by
  rw [tcpAccept, if_neg h]

/-! ### A byte of a session -/

theorem tcpRxByte_incomplete (h : tcpExtract (x.buf ++ [b]) = .incomplete) :
    tcpRxByte k x b s = .quiet (s.setBuf k (x.buf ++ [b])) := by rw [tcpRxByte, h]

theorem tcpRxByte_corrupted {reason : DropReason} (h : tcpExtract (x.buf ++ [b]) = .corrupted reason) :
    tcpRxByte k x b s = .quiet (tcpClose k reason s) := by rw [tcpRxByte, h]

theorem tcpRxByte_complete {ctx : TcpCtx} {pdu : List Byte} (h : tcpExtract (x.buf ++ [b]) = .complete ctx pdu) :
    tcpRxByte k x b s = .frame ⟨.session k, ctx.unitId, some ctx⟩ pdu (s.setBuf k []) := by rw [tcpRxByte, h]

/-- Closing for a corrupted header emits the Drop and the Close (R155). -/
theorem tcpClose_eq (k : Nat) (reason : DropReason) (s : State) :
    tcpClose k reason s = { s with
      out := s.out ++ [.drop (.session k) reason, .close (some k)]
      sess := s.sess.filter fun p => decide (p.1 ≠ k) } := by
  simp [tcpClose, State.emit, State.removeSession]

/-! ### The timeouts of a session -/

theorem tcpActTimeout_eq (k : Nat) (x : Session) (s : State) :
    tcpActTimeout k x s = .quiet { s.setBuf k [] with
      out := s.out ++ (if x.buf = [] then [] else [.drop (.session k) .partialTimeout])
        ++ [.status (.session k) .timeout]
      status := .timeout } := by
  cases h : x.buf <;> simp [tcpActTimeout, h, State.setBuf, State.emitTimeout, State.emit]

/-! ### Steps of a TCP block -/

theorem onSession_open (f : Session → Received) (h : s.session k = some x) : onSession k s f = f x := by
  rw [onSession, h]

theorem receive_tcp (h : s.cfg.transport = .tcp) : receive e s = tcpReceive e s := by rw [receive, h]

theorem step_of_tcpReceive (h : TcpNext s e rest) (hr : tcpReceive e (s.begin rest) = .quiet t) :
    step s = .next t :=
  step_of_quiet h.legal h.chosen ((receive_tcp (s := s.begin rest) h.transport).trans hr)

/-- A byte of an open session is taken by the framer with the bytes that the session holds (R152). -/
theorem tcpReceive_sessRxByte (b : Byte) (h : s.session k = some x) :
    tcpReceive (.sessRxByte k b) s = tcpRxByte k x b s :=
  onSession_open _ h

theorem step_of_tcpRxByte (h : TcpNext s (.sessRxByte k b) rest) (hk : s.session k = some x)
    (hr : tcpRxByte k x b (s.begin rest) = .quiet t) : step s = .next t :=
  step_of_tcpReceive h ((tcpReceive_sessRxByte (s := s.begin rest) b hk).trans hr)

end Sys2Proof.Machine
end

section
/-! PROOF. The obligations of 42_tcp_framer.md. -/

namespace Sys2Proof.Proofs

open Sys2Proof.Machine Sys2Proof.Safety

/-- Settles O22: the byte completes the ADU, extraction gives back its context and PDU, and the dispatcher serves
them. -/
theorem tcpFrameRunsItsInstruction : Obligations.TcpFrameRunsItsInstruction := by
  rintro s t rest k b x tid a pdu hnext hk hlen hmax hbuf ha rfl
  have hwhole : tcpExtract (x.buf ++ [b]) = .complete ⟨tid, a⟩ pdu := by
    rw [hbuf, tcpExtract_tcpEncode _ hlen hmax]
  have hframe : receive (.sessRxByte k b) (s.begin rest) =
      .frame ⟨.session k, a, some ⟨tid, a⟩⟩ pdu ((s.begin rest).setBuf k []) := by
    rw [receive_tcp (s := s.begin rest) hnext.transport, tcpReceive_sessRxByte (s := s.begin rest) b hk]
    exact tcpRxByte_complete hwhole
  rw [step_of_frame hnext.legal hnext.chosen hframe ha]
  exact serve_runs pdu _

/-- Settles O27: the length field of an encoded ADU says how many bytes make it whole, and the framer waits
exactly while the buffer is incomplete. -/
theorem tcpFramerDecodesEncodedFrames : Obligations.TcpFramerDecodesEncodedFrames := by
  refine ⟨fun ctx pdu hlen hmax => ⟨tcpExtract_tcpEncode ctx hlen hmax, fun n hn => ?_⟩,
    fun s rest k b x hnext hk hwait => ?_⟩
  · exact tcpExtract_eq_incomplete_iff.mpr (bufOk_take_tcpEncode ctx hlen hmax hn)
  · have hincomplete : tcpExtract (x.buf ++ [b]) = .incomplete := hwait.elim tcpExtract_eq_incomplete_iff.mpr id
    exact step_of_tcpRxByte hnext hk (tcpRxByte_incomplete hincomplete)

/-- Settles O33: a session opens exactly where MAX_SESSIONS are not open. -/
theorem acceptOpensNextSession : Obligations.AcceptOpensNextSession := by
  refine fun s rest hnext => ⟨fun hroom => ?_, fun m hm hfull => ?_⟩
  · have hnot : ¬ sessionsFull (s.begin rest) = true := fun hfull => by
      obtain ⟨m, hm, hle⟩ := sessionsFull_iff.mp hfull
      exact Nat.not_le.mpr (hroom m hm) hle
    exact step_of_tcpReceive hnext (tcpAccept_room hnot)
  · have hfull : sessionsFull (s.begin rest) = true := sessionsFull_iff.mpr ⟨m, hm, hfull⟩
    exact step_of_tcpReceive hnext (tcpAccept_full hfull)

/-- Settles O34: extraction finds the header corrupted for the first of the two reasons that applies, and the
framer closes the session. -/
theorem corruptedHeaderClosesSession : Obligations.CorruptedHeaderClosesSession := by
  intro s rest k b x hnext hk hlen reason hbad
  have hcorrupted : tcpExtract (x.buf ++ [b]) = .corrupted reason := by
    rcases hbad with ⟨hproto, rfl⟩ | ⟨hproto, hfield, rfl⟩
    · exact tcpExtract_badProtocolId hlen hproto
    · exact tcpExtract_badLength hlen hproto hfield
  rw [step_of_tcpRxByte hnext hk (tcpRxByte_corrupted hcorrupted), tcpClose_eq, State.begin_out, State.begin_sess]

/-- Settles O35: a rule of the framer for each of the two timeouts. -/
theorem sessionTimeouts : Obligations.SessionTimeouts := by
  intro s rest k x hk
  refine ⟨fun hnext => step_of_tcpReceive hnext ?_, fun hnext => step_of_tcpReceive hnext ?_⟩
  · exact (onSession_open (s := s.begin rest) _ hk).trans (tcpActTimeout_eq k x (s.begin rest))
  · exact onSession_open (s := s.begin rest) _ hk

end Sys2Proof.Proofs
end

section
/-! SUPPORT. The address filter (43_dispatch R177, R178): its four answers, and the step that drops a complete frame
of an address that does not pass. -/

namespace Sys2Proof.Machine

open Sys2Proof.Safety

variable {s u : State} {e : Event} {rest : List Event} {a : Byte} {r : Request} {pdu : List Byte}
  {reason : DropReason} {cfg : Config}

/-! ### The answers of the filter -/

/-- The serial ports leave the address to its table: it is not reserved, or the reserved ones are accepted. -/
def NotReserved (cfg : Config) (a : Byte) : Prop :=
  cfg.transport = .tcp ∨ a.toNat < 248 ∨ cfg.serialAcceptReserved = true

theorem addressFilter_broadcast (cfg : Config) : addressFilter cfg 0 = none := if_pos rfl

theorem addressFilter_reserved (ht : cfg.transport ≠ .tcp) (ha : 248 ≤ a.toNat)
    (hno : cfg.serialAcceptReserved = false) : addressFilter cfg a = some .addrReserved := by
  have hne : a ≠ 0 := by rintro rfl; simp at ha
  rw [addressFilter, if_neg hne, if_pos ⟨ht, ha, hno⟩]

theorem addressFilter_notReserved (hne : a ≠ 0) (hres : NotReserved cfg a) :
    addressFilter cfg a = if isRegistered cfg a then none else some .addrUnregistered := by
  have hnot : ¬ (cfg.transport ≠ .tcp ∧ 248 ≤ a.toNat ∧ cfg.serialAcceptReserved = false) := by
    rintro ⟨ht, ha, hno⟩
    rcases hres with h | h | h
    · exact ht h
    · omega
    · simp [hno] at h
  rw [addressFilter, if_neg hne, if_neg hnot]

theorem addressFilter_registered (hne : a ≠ 0) (hres : NotReserved cfg a) (hreg : isRegistered cfg a = true) :
    addressFilter cfg a = none := by rw [addressFilter_notReserved hne hres, if_pos hreg]

theorem addressFilter_unregistered (hne : a ≠ 0) (hres : NotReserved cfg a)
    (hreg : isRegistered cfg a = false) : addressFilter cfg a = some .addrUnregistered := by
  rw [addressFilter_notReserved hne hres, hreg, if_neg Bool.false_ne_true]

/-! ### The dispatcher's entry -/

theorem filterRequest_pass (pdu : List Byte) (h : addressFilter s.cfg r.addr = none) :
    filterRequest r pdu s = .request pdu { s with req := some r } := by rw [filterRequest, h]

theorem filterRequest_drop (pdu : List Byte) (h : addressFilter s.cfg r.addr = some reason) :
    filterRequest r pdu s = .settled (.next { s with out := s.out ++ [.drop r.agent reason] }) := by
  rw [filterRequest, h]; rfl

/-! ### The step that ends a frame -/

/-- A complete frame that does not pass the address filter is dropped (R178). -/
theorem step_of_foreignFrame (hc : configLegal s.cfg = true)
    (hp : pick (moves s) (Config.schedule s.draws) = some (.consume e rest))
    (hr : receive e (s.begin rest) = .frame r pdu u) (ha : addressFilter u.cfg r.addr = some reason) :
    step s = .next { u with out := u.out ++ [.drop r.agent reason] } :=
  step_of_makeMove hc hp (by rw [makeMove, hr, afterReceive, filterRequest_drop pdu ha])

/-- The silence after an encoded RTU frame hands its address and PDU over (R104, R105). -/
theorem receive_t35_encoded (ht : s.cfg.transport = .rtu) (hst : s.rtu.st ≠ .idle) (hovf : s.rtu.ovf = false)
    (hbuf : s.rtu.buf = rtuEncode a pdu) (hlen : 1 ≤ pdu.length) :
    receive .t35 s = .frame ⟨.serial, a, none⟩ pdu (s.setRtu rtuIdle) := by
  have hcheck : rtuDecode s.rtu.buf s.rtu.ovf = .ok (a, pdu) := by
    rw [hbuf, hovf, rtuDecode_rtuEncode a hlen]
  rw [receive, ht]
  exact (rtuT35_frameEnd hst).trans (rtuFrameEnd_ok hcheck)

/-- The LF after the digits of an encoded ASCII frame hands its address and PDU over (R130, R131). -/
theorem receive_lf_encoded (ht : s.cfg.transport = .ascii) (hst : s.asc.st = .cr)
    (hhex : s.asc.hex = (a :: pdu ++ [lrc (a :: pdu)]).flatMap hexDigits) (hlen : 1 ≤ pdu.length) :
    receive (.rxByte charLF) s = .frame ⟨.serial, a, none⟩ pdu (s.setAsc ascHunt) := by
  have hcheck : asciiDecode s.asc.hex = .ok (a, pdu) := by rw [hhex, asciiDecode_hexDigits a hlen]
  rw [receive, ht]
  exact (ascRxByte_cr_lf hst).trans (ascFrameEnd_ok hcheck)

/-- The byte that completes an encoded ADU hands its unit identifier, context and PDU over (R152, R153). -/
theorem receive_sessRxByte_encoded {k : Nat} {x : Session} {b : Byte} {ctx : TcpCtx}
    (ht : s.cfg.transport = .tcp) (hk : s.session k = some x) (hbuf : x.buf ++ [b] = tcpEncode ctx pdu)
    (hlen : 1 ≤ pdu.length) (hmax : pdu.length ≤ pduMax) :
    receive (.sessRxByte k b) s = .frame ⟨.session k, ctx.unitId, some ctx⟩ pdu (s.setBuf k []) := by
  have hwhole : tcpExtract (x.buf ++ [b]) = .complete ctx pdu := by
    rw [hbuf, tcpExtract_tcpEncode _ hlen hmax]
  rw [receive_tcp ht, tcpReceive_sessRxByte b hk, tcpRxByte_complete hwhole]

end Sys2Proof.Machine
end

section
/-! SUPPORT. Executing and rejecting a request (43_dispatch R179, R181 to R183): a unicast request whose plan is a
rejection, a broadcast, and a PDU that is no instruction. -/

namespace Sys2Proof.Machine

open Sys2Proof.Safety

variable {s t : State} {r : Request} {fc : Byte} {p : List Byte}

/-! ### Unicast requests -/

/-- A unicast request is loaded with its plan for the table it names (R183). -/
theorem exec_unicast (h : Unicast s r) (i : Instr) :
    exec i s =
      .next (loadUnicast r (functionCode i) (planOf s.cfg r.addr i) { s with req := none }) := by
  rw [exec_eq_execRequest, execRequest, h.req]
  exact if_neg h.addr

/-- A unicast request that its plan rejects is answered with the exception, and nothing else changes (R186). -/
theorem exec_rejected {code : ExcCode} (h : Unicast s r) (i : Instr)
    (hplan : planOf s.cfg r.addr i = .reject code) :
    exec i s = .next (rejected s r (functionCode i) code) := by
  rw [exec_unicast h, hplan]
  rfl

/-! ### Broadcasts -/

/-- With no operation a broadcast ends at once; otherwise its agent's execution register is loaded (R183). -/
theorem loadBroadcast_eq (r : Request) (fc : Byte) (ops : List StorageOp) (s : State) :
    loadBroadcast r fc ops s =
      if ops = [] then { s with out := s.out ++ [.drop r.agent .broadcast] }
      else s.setXq r.agent (some ⟨0, fc, r.ctx, ops, [], none⟩) := by
  cases ops <;> rfl

/-- A broadcast is loaded with the operations of all registered tables (R178, R183). -/
theorem execRequest_broadcast (h : Broadcast s r) (fc : Byte) (plan : Byte → Plan) :
    execRequest fc plan s = .next (loadBroadcast r fc
      ((broadcastTargets s.cfg).flatMap fun t => planOps (plan t)) { s with req := none }) := by
  rw [execRequest, h.req]
  exact if_pos h.addr

/-- The targets of a broadcast are in ascending order (R178). -/
theorem broadcastTargets_ascending (cfg : Config) :
    ((broadcastTargets cfg).map BitVec.toNat).Pairwise (· < ·) := by
  have hall : ((List.range 256).map (BitVec.ofNat 8)).map BitVec.toNat = List.range 256 := by
    rw [List.map_map]
    exact (List.map_congr_left fun n hn => Nat.mod_eq_of_lt (List.mem_range.mp hn)).trans (List.map_id _)
  have hsub : ((broadcastTargets cfg).map BitVec.toNat).Sublist (List.range 256) :=
    hall ▸ List.filter_sublist.map BitVec.toNat
  exact List.pairwise_lt_range.sublist hsub

/-! ### A PDU that is no instruction -/

/-- A function code outside the map is no instruction, whatever its payload (R79, R181). -/
theorem decode_unsupported
    (h : fc ∉ ([0x01, 0x02, 0x03, 0x04, 0x05, 0x06, 0x07, 0x0F, 0x10, 0x11, 0x14, 0x15, 0x2B] : List Byte)) :
    decode (fc :: p) = .error (.illegalFunction fc) := by
  simp only [List.mem_cons, List.not_mem_nil, or_false, not_or] at h
  simp only [decode, decodePayload, h, if_false]

/-- A broadcast that every target rejects emits Drop(BROADCAST) alone (R179). -/
theorem rejectRequest_broadcast {e : DecodeError} (h : Broadcast s r) (he : decode (fc :: p) = .error e) :
    rejectRequest e s = .next { s with req := none, out := s.out ++ [.drop r.agent .broadcast] } := by
  rcases rejectRequest_eq e s with ⟨rfl, -⟩ | ⟨fc', code, heq⟩
  · exact absurd he (decodePayload_ne_noFunctionCode fc p)
  · have hnone : ((broadcastTargets s.cfg).flatMap fun _ => planOps (.reject code)) = [] :=
      List.flatMap_eq_nil_iff.mpr fun _ _ => rfl
    rw [heq, execRequest_broadcast h, hnone, loadBroadcast_eq, if_pos rfl]

/-- The part of a step before decoding leaves the PDU to the dispatcher (R176). -/
theorem step_of_fetch_request {pdu : List Byte} (h : fetch s = .request pdu t) :
    step s = serve pdu t := by rw [step, h]

/-! ### What a broadcast leaves behind -/

theorem silent_of_out_eq (h : t.out = s.out) : Silent (newOutputs s t) := by
  simp [newOutputs, h, Silent]

theorem newOutputs_append {new : List Output} (h : t.out = s.out ++ new) : newOutputs s t = new := by
  rw [newOutputs, h, List.drop_left]

theorem silent_of_drop {a : Agent} {reason : DropReason} (h : t.out = s.out ++ [.drop a reason]) :
    Silent (newOutputs s t) := by
  simp [newOutputs_append h, Silent]

theorem answer_none_out (r : Request) (s : State) :
    (answer r none s).out = s.out ++ [.drop r.agent .broadcast] := rfl

theorem xqOf_answer (r : Request) (p : Option (List Byte)) (s : State) (a : Agent) :
    (answer r p s).xqOf a = s.xqOf a := by
  cases p <;> cases a <;> rfl

/-- What an execution register holds after it was set is what it was set to. -/
theorem eq_of_xqOf_setXq {a : Agent} {x : Xq} {y : Option Xq} (h : (s.setXq a y).xqOf a = some x) : y = some x := by
  cases a with
  | serial => exact h
  | session k =>
    simp only [State.xqOf, State.session, State.setXq_session_sess, lookup_updateSession, if_true] at h
    cases hk : s.sess.lookup k with
    | none => simp [hk] at h
    | some z => simpa [hk] using h

end Sys2Proof.Machine
end

section
/-! SUPPORT. The plans that reject a request (43_dispatch R182; 44_bit_access R200 to R203; 45_register_access R225 to
R228; 46_file_record R250, R251): every class-3 check comes before the range check. -/

namespace Sys2Proof.Machine

variable {cfg : Config} {w n v : Word}

/-! ### Reads -/

theorem planRdBits_quantity (t : Byte) (space : BitSpace) (fc : Byte) (w : Word)
    (h : n.toNat < 1 ∨ qmaxRBits < n.toNat) : planRdBits cfg t space fc w n = .reject .illegalDataValue := by
  rw [planRdBits, if_pos h]

theorem planRdBits_range (t : Byte) (space : BitSpace) (fc : Byte) (hlow : 1 ≤ n.toNat)
    (hhigh : n.toNat ≤ qmaxRBits) (hrange : rangeOK (bitCap cfg space) (startRef cfg w) n.toNat = false) :
    planRdBits cfg t space fc w n = .reject .illegalDataAddress := by
  rw [planRdBits, if_neg (by omega), hrange]
  rfl

theorem planRdRegs_quantity (t : Byte) (space : WordSpace) (fc : Byte) (w : Word)
    (h : n.toNat < 1 ∨ qmaxRRegs < n.toNat) : planRdRegs cfg t space fc w n = .reject .illegalDataValue := by
  rw [planRdRegs, if_pos h]

theorem planRdRegs_range (t : Byte) (space : WordSpace) (fc : Byte) (hlow : 1 ≤ n.toNat)
    (hhigh : n.toNat ≤ qmaxRRegs) (hrange : rangeOK (wordCap cfg space) (startRef cfg w) n.toNat = false) :
    planRdRegs cfg t space fc w n = .reject .illegalDataAddress := by
  rw [planRdRegs, if_neg (by omega), hrange]
  rfl

/-! ### Writes -/

theorem planWrCoil_value (t : Byte) (w : Word) (hon : v ≠ 0xFF00) (hoff : v ≠ 0x0000) :
    planWrCoil cfg t w v = .reject .illegalDataValue := by rw [planWrCoil, if_pos ⟨hon, hoff⟩]

theorem planWrCoil_range (t : Byte) (hv : v = 0xFF00 ∨ v = 0x0000)
    (hrange : rangeOK cfg.coilCap (startRef cfg w) 1 = false) :
    planWrCoil cfg t w v = .reject .illegalDataAddress := by
  rw [planWrCoil, if_neg (by tauto), bitCap, hrange]
  rfl

theorem planWrReg_range (t : Byte) (v : Word) (hrange : rangeOK cfg.regCap (startRef cfg w) 1 = false) :
    planWrReg cfg t w v = .reject .illegalDataAddress := by
  rw [planWrReg, wordCap, hrange]
  rfl

theorem planWrReg_accepted (t : Byte) (v : Word) (hrange : rangeOK cfg.regCap (startRef cfg w) 1 = true) :
    planWrReg cfg t w v =
      .exec [.writeWords t .holding (offset cfg w) [v]] (.fixed (0x06 :: toBE16 w ++ toBE16 v)) := by
  rw [planWrReg, wordCap, hrange]
  rfl

theorem planWrCoils_quantity (t : Byte) (w : Word) {values : List Byte}
    (h : n.toNat < 1 ∨ qmaxWBits < n.toNat ∨ values.length ≠ bytesOfBits n.toNat) :
    planWrCoils cfg t w n values = .reject .illegalDataValue := by
  by_cases hn : n.toNat < 1 ∨ qmaxWBits < n.toNat
  · rw [planWrCoils, if_pos hn]
  · rw [planWrCoils, if_neg hn, if_pos (by tauto)]

theorem planWrCoils_range (t : Byte) {values : List Byte} (hlow : 1 ≤ n.toNat) (hhigh : n.toNat ≤ qmaxWBits)
    (hcount : values.length = bytesOfBits n.toNat)
    (hrange : rangeOK cfg.coilCap (startRef cfg w) n.toNat = false) :
    planWrCoils cfg t w n values = .reject .illegalDataAddress := by
  rw [planWrCoils, if_neg (by omega), if_neg (not_not.mpr hcount), bitCap, hrange]
  rfl

theorem planWrRegs_quantity (t : Byte) (w : Word) {values : List Word}
    (h : n.toNat < 1 ∨ qmaxWRegs < n.toNat ∨ 2 * values.length ≠ 2 * n.toNat) :
    planWrRegs cfg t w n values = .reject .illegalDataValue := by
  by_cases hn : n.toNat < 1 ∨ qmaxWRegs < n.toNat
  · rw [planWrRegs, if_pos hn]
  · rw [planWrRegs, if_neg hn, if_pos (by tauto)]

theorem planWrRegs_range (t : Byte) {values : List Word} (hlow : 1 ≤ n.toNat) (hhigh : n.toNat ≤ qmaxWRegs)
    (hcount : values.length = n.toNat)
    (hrange : rangeOK cfg.regCap (startRef cfg w) n.toNat = false) :
    planWrRegs cfg t w n values = .reject .illegalDataAddress := by
  rw [planWrRegs, if_neg (by omega), if_neg (by omega), wordCap, hrange]
  rfl

/-! ### File records -/

theorem readSubValid_iff {u : ReadSub} :
    readSubValid cfg u = true ↔ u.refType = 6 ∧ u.fileNo ∈ cfg.fileSet ∧ u.recordLen ≠ 0 := by
  have hlen : 1 ≤ u.recordLen.toNat ↔ u.recordLen ≠ 0 := by
    rw [← BitVec.toNat_inj.ne]; exact Nat.one_le_iff_ne_zero
  simp [readSubValid, hlen, and_assoc]

theorem writeSubValid_iff {u : WriteSub} :
    writeSubValid cfg u = true ↔ u.refType = 6 ∧ u.fileNo ∈ cfg.fileSet ∧ u.data ≠ [] := by
  have hlen : 1 ≤ u.data.length ↔ u.data ≠ [] := List.length_pos_iff
  simp only [writeSubValid, hlen, Bool.and_eq_true, decide_eq_true_eq]
  tauto

/-- Any class-3 check that fails decides, whatever the others say (R182, R250). -/
theorem planRdFile_value (t : Byte) {subs : List ReadSub}
    (h : subs = [] ∨ (∃ u ∈ subs, ¬ readSubValid cfg u = true) ∨
      pduMax < 2 + fileRespLen (subs.map fun u => u.recordLen.toNat)) :
    planRdFile cfg t subs = .reject .illegalDataValue := by
  rcases h with rfl | ⟨u, hu, hbad⟩ | hresp
  · rfl
  · have hall : subs.all (readSubValid cfg) = false := List.all_eq_false.mpr ⟨u, hu, hbad⟩
    rw [planRdFile, hall, if_pos (Bool.not_false), ite_self]
  · rw [planRdFile, if_pos hresp, ite_self, ite_self]

theorem planRdFile_range (t : Byte) {subs : List ReadSub} (hne : subs ≠ [])
    (hvalid : ∀ u ∈ subs, readSubValid cfg u = true)
    (hresp : 2 + fileRespLen (subs.map fun u => u.recordLen.toNat) ≤ pduMax)
    (hrange : ∃ u ∈ subs, readSubInRange cfg u = false) :
    planRdFile cfg t subs = .reject .illegalDataAddress := by
  have hlen : 0 < subs.length := List.length_pos_iff.mpr hne
  have hall : subs.all (readSubValid cfg) = true := List.all_eq_true.mpr hvalid
  have hout : subs.all (readSubInRange cfg) = false := List.all_eq_false.mpr (by simpa using hrange)
  rw [planRdFile, if_neg (by omega), hall, if_neg (by simp), if_neg (by omega), hout]
  rfl

/-- The byte count is at least 9 where there is a sub-request with data (R251). -/
theorem le_size_sum {u : WriteSub} {subs : List WriteSub} (hu : u ∈ subs) (hdata : u.data ≠ []) :
    9 ≤ (subs.map WriteSub.size).sum := by
  have hone : 1 ≤ u.data.length := List.length_pos_iff.mpr hdata
  have hsize : u.size = 7 + 2 * u.data.length := rfl
  have hle : u.size ≤ (subs.map WriteSub.size).sum := List.le_sum_of_mem (List.mem_map_of_mem hu)
  omega

/-- Any class-3 check that fails decides, whatever the others say (R182, R251). -/
theorem planWrFile_value (t : Byte) {subs : List WriteSub}
    (h : subs = [] ∨ ∃ u ∈ subs, ¬ writeSubValid cfg u = true) :
    planWrFile cfg t subs = .reject .illegalDataValue := by
  rcases h with rfl | ⟨u, hu, hbad⟩
  · rfl
  · have hall : subs.all (writeSubValid cfg) = false := List.all_eq_false.mpr ⟨u, hu, hbad⟩
    rw [planWrFile, hall, if_pos (Bool.not_false), ite_self]

theorem planWrFile_range (t : Byte) {subs : List WriteSub} (hvalid : ∀ u ∈ subs, writeSubValid cfg u = true)
    (hrange : ∃ u ∈ subs, writeSubInRange cfg u = false) :
    planWrFile cfg t subs = .reject .illegalDataAddress := by
  have hall : subs.all (writeSubValid cfg) = true := List.all_eq_true.mpr hvalid
  have hout : subs.all (writeSubInRange cfg) = false := List.all_eq_false.mpr (by simpa using hrange)
  obtain ⟨u, hu, -⟩ := hrange
  obtain ⟨-, -, hdata⟩ := writeSubValid_iff.mp (hvalid u hu)
  have hlen := le_size_sum hu hdata
  rw [planWrFile, if_neg (by omega), hall, if_neg (by simp), hout]
  rfl

end Sys2Proof.Machine
end

section
/-! SUPPORT. A queued request from its first operation to its last (43_dispatch R184, R185), with a storage that
answers OK: one execution step for each operation, and one output with the last. -/

namespace Sys2Proof.Machine

open Sys2Proof.Safety

variable {s t u : State} {a : Agent} {x : Xq} {op last : StorageOp} {ops : List StorageOp}

/-! ### Storage updates -/

/-- Sets the storage. -/
def State.setMem (s : State) (m : Memory) : State := { s with mem := m }

@[simp] theorem State.setMem_cfg (s : State) (m : Memory) : (s.setMem m).cfg = s.cfg := rfl

@[simp] theorem State.setMem_mem (s : State) (m : Memory) : (s.setMem m).mem = m := rfl

@[simp] theorem State.setMem_out (s : State) (m : Memory) : (s.setMem m).out = s.out := rfl

@[simp] theorem State.setMem_setMem (s : State) (m m' : Memory) : (s.setMem m).setMem m' = s.setMem m' := rfl

@[simp] theorem State.setXq_setMem (s : State) (a : Agent) (y : Option Xq) (m : Memory) :
    (s.setXq a y).setMem m = (s.setMem m).setXq a y := by cases a <;> rfl

theorem answer_setXq (r : Request) (p : Option (List Byte)) (s : State) (a : Agent) (y : Option Xq) :
    answer r p (s.setXq a y) = (answer r p s).setXq a y := by cases p <;> cases a <;> rfl

/-! ### Sequences of operations -/

/-- The storage after operations performed in order. -/
def memAfter (cfg : Config) (m : Memory) (ops : List StorageOp) : Memory :=
  ops.foldl (fun m op => (performOp cfg m op).2) m

/-- The results of operations performed in order. -/
def resultsOf (cfg : Config) : Memory → List StorageOp → List OpResult
  | _, [] => []
  | m, op :: ops => (performOp cfg m op).1 :: resultsOf cfg (performOp cfg m op).2 ops

/-- The state in which an agent has completed the request `x`: its operations are performed, it is answered from
their results, and the agent's execution register is empty (R185). -/
def completed (a : Agent) (x : Xq) (s : State) : State :=
  (answer ⟨a, x.addr, x.ctx⟩ (x.finish.map (buildResponse (x.done ++ resultsOf s.cfg s.mem x.ops)))
    (s.setMem (memAfter s.cfg s.mem x.ops))).setXq a none

/-- A request whose first operation has answered `res`, with the operations `rest` left (R184). -/
def Xq.advance (x : Xq) (res : OpResult) (rest : List StorageOp) : Xq :=
  { x with ops := rest, done := x.done ++ [res] }

/-- The state after the first operation of a request that goes on with the operations `rest` (R184). -/
def goneOn (a : Agent) (x : Xq) (op : StorageOp) (rest : List StorageOp) (s : State) : State :=
  (s.setMem (performOp s.cfg s.mem op).2).setXq a (some (x.advance (performOp s.cfg s.mem op).1 rest))

@[simp] theorem goneOn_cfg (a : Agent) (x : Xq) (op : StorageOp) (rest : List StorageOp) (s : State) :
    (goneOn a x op rest s).cfg = s.cfg := State.setXq_cfg _ a _

@[simp] theorem goneOn_out (a : Agent) (x : Xq) (op : StorageOp) (rest : List StorageOp) (s : State) :
    (goneOn a x op rest s).out = s.out := State.setXq_out _ a _

theorem xqOf_goneOn {rest : List StorageOp} (h : s.xqOf a = some x) :
    (goneOn a x op rest s).xqOf a = some (x.advance (performOp s.cfg s.mem op).1 rest) :=
  xqOf_setXq_self _ (show Present s a from present_of_xqOf h)

theorem xqOf_completed (a : Agent) (x : Xq) (s : State) : (completed a x s).xqOf a = none :=
  xqOf_setXq_none _ a

theorem completed_mem (a : Agent) (x : Xq) (s : State) :
    (completed a x s).mem = memAfter s.cfg s.mem x.ops := by simp [completed]

theorem completed_out (a : Agent) (x : Xq) (s : State) : ∃ o, (completed a x s).out = s.out ++ [o] :=
  ⟨_, by rw [completed, State.setXq_out, answer_out]; rfl⟩

/-- A request with no response to give completes with Drop(BROADCAST) (R179, R185). -/
theorem completed_out_suppressed (a : Agent) (s : State) (h : x.finish = none) :
    (completed a x s).out = s.out ++ [.drop a .broadcast] := by
  rw [completed, State.setXq_out, h]
  rfl

/-- Performing the first operation does not change the state in which the request will be complete. -/
theorem completed_goneOn (ho : x.ops = op :: ops) :
    completed a (x.advance (performOp s.cfg s.mem op).1 ops) (goneOn a x op ops s) = completed a x s := by
  simp [completed, goneOn, Xq.advance, answer_setXq, setXq_setXq, ho, resultsOf, memAfter]

/-! ### One execution step -/

theorem not_deviceFails (h : s.cfg.storageMayFail = false) : ¬ deviceFails s = true := by
  simp [deviceFails, h]

/-- With operations left the request goes on. -/
theorem executeStep_goesOn (hok : s.cfg.storageMayFail = false) (hx : s.xqOf a = some x)
    (ho : x.ops = op :: ops) (hne : ops ≠ []) (hr : opInRange s.cfg op = true) :
    executeStep a s = .next (goneOn a x op ops s) := by
  rw [executeStep_of_performs hx ho hr (not_deviceFails hok)]
  obtain ⟨o, os, rfl⟩ := List.exists_cons_of_ne_nil hne
  rfl

/-- The last operation completes the request. -/
theorem executeStep_completes (hok : s.cfg.storageMayFail = false) (hx : s.xqOf a = some x)
    (ho : x.ops = [op]) (hr : opInRange s.cfg op = true) :
    executeStep a s = .next (completed a x s) := by
  rw [executeStep_of_performs hx ho hr (not_deviceFails hok), completed, ho]
  rfl

/-! ### The whole request -/

theorem performAll_of_next {n : Nat} (h : executeStep a s = .next t) :
    performAll a (n + 1) s = performAll a n t := by rw [performAll, h]

theorem performAll_concat {n : Nat} (h : performAll a n s = some u) (hu : executeStep a u = .next t) :
    performAll a (n + 1) s = some t := by
  induction n generalizing s with
  | zero =>
    cases h
    rw [performAll_of_next hu, performAll]
  | succ n ih =>
    cases hs : executeStep a s with
    | next v =>
      rw [performAll_of_next hs] at h ⊢
      exact ih h
    | fault f => simp [performAll, hs] at h
    | refused f => simp [performAll, hs] at h

/-- Every operation but the last is performed in silence, and the last one completes the request. -/
theorem performAll_queued (hok : s.cfg.storageMayFail = false) (hx : s.xqOf a = some x)
    (ho : x.ops = ops ++ [last]) (hr : ∀ op ∈ x.ops, opInRange s.cfg op = true) :
    ∃ u, performAll a ops.length s = some u ∧ u.out = s.out ∧ (u.xqOf a).isSome = true ∧
      executeStep a u = .next (completed a x s) := by
  induction ops generalizing s x with
  | nil => exact ⟨s, rfl, rfl, by rw [hx]; rfl, executeStep_completes hok hx ho (hr last (by simp [ho]))⟩
  | cons op ops ih =>
    rw [List.cons_append] at ho
    rw [ho, List.forall_mem_cons] at hr
    obtain ⟨hop, hrest⟩ := hr
    have hstep := executeStep_goesOn hok hx ho (by simp) hop
    obtain ⟨u, hu, hout, hbusy, hlast⟩ := ih (by rwa [goneOn_cfg]) (xqOf_goneOn (op := op) hx) rfl
      (by rw [goneOn_cfg]; exact hrest)
    rw [completed_goneOn ho] at hlast
    exact ⟨u, (performAll_of_next hstep).trans hu, hout.trans (goneOn_out ..), hbusy, hlast⟩

/-- A queued request completes in one step for each operation (R184, R185). -/
theorem performAll_completes (hok : s.cfg.storageMayFail = false) (hx : s.xqOf a = some x)
    (hne : x.ops ≠ []) (hr : ∀ op ∈ x.ops, opInRange s.cfg op = true) :
    performAll a x.ops.length s = some (completed a x s) := by
  obtain ⟨ops, last, ho⟩ := x.ops.eq_nil_or_concat'.resolve_left hne
  obtain ⟨u, hu, -, -, hlast⟩ := performAll_queued hok hx ho hr
  rw [ho, List.length_append]
  exact performAll_concat hu hlast

/-- A broadcast completes in one step for each of its operations, with Drop(BROADCAST) as its one output; one
without operations is complete when it is loaded (R179, R183 to R185). -/
theorem performAll_loadBroadcast (r : Request) (fc : Byte) (hok : s.cfg.storageMayFail = false)
    (hpresent : Present s r.agent) (hr : ∀ op ∈ ops, opInRange s.cfg op = true) :
    ∃ t, performAll r.agent ops.length (loadBroadcast r fc ops s) = some t ∧
      t.out = s.out ++ [.drop r.agent .broadcast] ∧
      (s.xqOf r.agent = none ∨ ops ≠ [] → t.xqOf r.agent = none) ∧ t.mem = memAfter s.cfg s.mem ops := by
  rw [loadBroadcast_eq]
  by_cases hops : ops = []
  · subst hops
    refine ⟨_, rfl, rfl, fun h => ?_, rfl⟩
    have hidle : s.xqOf r.agent = none := h.resolve_right (not_not.mpr rfl)
    cases ha : r.agent <;> rw [ha] at hidle <;> exact hidle
  · rw [if_neg hops]
    have hrun := performAll_completes (s := s.setXq r.agent (some ⟨0, fc, r.ctx, ops, [], none⟩))
      (by rwa [State.setXq_cfg]) (xqOf_setXq_self _ hpresent) hops (by rwa [State.setXq_cfg])
    refine ⟨_, hrun, ?_, fun _ => xqOf_completed .., ?_⟩
    · rw [completed_out_suppressed _ _ rfl, State.setXq_out]
    · rw [completed_mem, State.setXq_cfg, State.setXq_mem]

/-! ### One register of many tables -/

/-- Writing one register of several tables leaves the value in each of them: no write of another table undoes
it. -/
theorem readWord_writeEach {cfg : Config} {m : Memory} {off : Nat} {b : Byte} (v : Word) (ts : List Byte)
    (hwf : Memory.wf m = true) (hoff : off < 65536)
    (h : b ∈ ts ∨ readWord cfg m b .holding off = v) :
    readWord cfg (memAfter cfg m (ts.map fun t => .writeWords t .holding off [v])) b .holding off = v := by
  induction ts generalizing m with
  | nil => exact h.resolve_left (by simp)
  | cons t ts ih =>
    refine ih (writeWords_wf t .holding off [v] hwf) ?_
    by_cases hb : b = t
    · subst hb
      exact .inr (readWord_writeWords b .holding off [v] 0 hwf Nat.one_pos)
    · refine h.imp (fun hmem => (List.mem_cons.mp hmem).resolve_left hb) fun hm => ?_
      exact (readWord_writeWords_of_apart .holding .holding [v] hwf hoff (by simpa using hoff) (.inl hb)).trans hm

end Sys2Proof.Machine
end

section
/-! PROOF. The obligations of 43_dispatch.md. -/

namespace Sys2Proof.Proofs

open Sys2Proof.Machine Sys2Proof.Safety

/-- Settles O38: the filter has an answer for each kind of address, and the step that ends a good frame of an
address that does not pass is the drop of that frame. -/
theorem addressFilterDropsForeignRequests : Obligations.AddressFilterDropsForeignRequests := by
  refine ⟨fun s r pdu => ⟨fun h0 => ?_, fun ht ha hno => ?_, fun hne hres hreg => ?_, fun hne hres hreg => ?_⟩,
    fun s rest a pdu reason ha hlen hmax => ⟨fun hnext hst hovf hbuf => ?_, fun hnext hst hhex => ?_,
      fun k b x tid hnext hk hbuf => ?_⟩⟩
  · exact filterRequest_pass pdu (by rw [h0]; exact addressFilter_broadcast s.cfg)
  · exact filterRequest_drop pdu (addressFilter_reserved ht ha hno)
  · exact filterRequest_drop pdu (addressFilter_unregistered hne hres hreg)
  · exact filterRequest_pass pdu (addressFilter_registered hne hres hreg)
  · exact step_of_foreignFrame hnext.legal (pick_of_serialNext hnext)
      (receive_t35_encoded (s := s.begin rest) hnext.transport hst hovf hbuf hlen) ha
  · exact step_of_foreignFrame hnext.legal (pick_of_serialNext hnext)
      (receive_lf_encoded (s := s.begin rest) hnext.transport hst hhex hlen) ha
  · exact step_of_foreignFrame hnext.legal hnext.chosen
      (receive_sessRxByte_encoded (s := s.begin rest) hnext.transport hk hbuf hlen hmax) ha

/-- Settles O43: a broadcast is answered with a Drop or loads a request with no response to give, and such a request
is answered with a Drop. -/
theorem broadcastNeverTransmits : Obligations.BroadcastNeverTransmits := by
  refine ⟨fun s r i hreq hidle => ?_, fun s r fc p e hreq he => rejectRequest_broadcast hreq he,
    fun s t a x hx hfin hs => ?_⟩
  · rw [exec_eq_execRequest]
    rcases execRequest_cases (functionCode i) (fun t => planOf s.cfg t i) hreq.req with
      ⟨pdu, hexec, hpdu⟩ | ⟨x, hexec, -, hfin, -⟩
    · obtain rfl := hpdu hreq.addr
      have hidle' : (answer r none { s with req := none }).xqOf r.agent = none :=
        (xqOf_answer r none _ r.agent).trans hidle
      exact ⟨_, hexec, silent_of_drop (answer_none_out r _), fun y hy => nomatch hidle'.symm.trans hy⟩
    · refine ⟨_, hexec, silent_of_out_eq (State.setXq_out _ r.agent _), fun y hy => ?_⟩
      obtain rfl := Option.some.inj (eq_of_xqOf_setXq hy)
      exact hfin hreq.addr
  · obtain ⟨x', op, rest, hx', -, -, hcases⟩ := executeStep_cases hs
    obtain rfl := Option.some.inj (hx.symm.trans hx')
    have hended (v : State) (hv : v.out = s.out) :
        Silent (newOutputs s ((answer ⟨a, x.addr, x.ctx⟩ none v).setXq a none)) ∧
          ∀ y, ((answer ⟨a, x.addr, x.ctx⟩ none v).setXq a none).xqOf a = some y → y.finish = none :=
      ⟨silent_of_drop (by rw [State.setXq_out, answer_none_out, hv]), fun y hy => nomatch eq_of_xqOf_setXq hy⟩
    rcases hcases with ⟨pdu, rfl, hpdu⟩ | ⟨pdu, rfl, hpdu⟩ | ⟨-, rfl⟩
    · obtain rfl := hpdu hfin
      exact hended s rfl
    · obtain rfl := hpdu hfin
      exact hended _ rfl
    · refine ⟨silent_of_out_eq (State.setXq_out _ a _), fun y hy => ?_⟩
      obtain rfl := Option.some.inj (eq_of_xqOf_setXq hy)
      exact hfin

/-- Settles O44: every meaning is its plan, loaded for every target. -/
theorem broadcastQueuesEveryRegisteredTable : Obligations.BroadcastQueuesEveryRegisteredTable := by
  intro s r i hreq
  refine ⟨mem_broadcastTargets s.cfg, broadcastTargets_ascending s.cfg, _, rfl, ?_⟩
  rw [exec_eq_execRequest, execRequest_broadcast hreq, loadBroadcast_eq]

/-- Settles O58: executing a request answers it or loads its agent's execution register. -/
theorem execChangesOnlyOutputOrOwnRegister : Obligations.ExecChangesOnlyOutputOrOwnRegister := by
  intro s r i hreq
  rw [exec_eq_execRequest]
  rcases execRequest_cases (functionCode i) (fun t => planOf s.cfg t i) hreq with
    ⟨pdu, hexec, -⟩ | ⟨x, hexec, -, -, -⟩
  · exact ⟨_, hexec, answer_req .., answer_cfg .., answer_rtu .., answer_asc .., answer_nextSess ..,
      fun c => by rw [answer_mem], answer_status .., answer_inq .., answer_draws .., by rw [answer_sess],
      fun a _ => xqOf_answer r pdu _ a, .inl ⟨xqOf_answer r pdu _ r.agent, _, answer_out ..⟩⟩
  · exact ⟨_, hexec, State.setXq_req .., State.setXq_cfg .., State.setXq_rtu .., State.setXq_asc ..,
      State.setXq_nextSess .., fun c => by rw [State.setXq_mem], State.setXq_status .., State.setXq_inq ..,
      State.setXq_draws .., setXq_bufs .., fun a ha => xqOf_setXq_other _ _ ha, .inr (State.setXq_out ..)⟩

/-- Settles O60: the operations before the last are performed in silence, and the last one completes the request. -/
theorem queuedRequestCompletesInOneStepPerOperation :
    Obligations.QueuedRequestCompletesInOneStepPerOperation := by
  intro s a x n hok hx hlen hr
  have hne : x.ops ≠ [] := List.ne_nil_of_length_eq_add_one hlen
  obtain ⟨ops, last, ho⟩ := x.ops.eq_nil_or_concat'.resolve_left hne
  obtain rfl : ops.length = n := by simpa [ho] using hlen
  obtain ⟨u, hu, hout, hbusy, hlast⟩ := performAll_queued hok hx ho hr
  exact ⟨u, _, hu, hout, hbusy, hlast, xqOf_completed a x s, completed_out a x s⟩

/-- Settles O45: the request holds one write for each table, and the write of another table does not undo it. -/
theorem broadcastWriteReachesEveryTable : Obligations.BroadcastWriteReachesEveryTable := by
  intro s r w v hreq hok hlegal hwf hrange
  have hplan (t : Byte) :
      planOps (planOf s.cfg t (.wrReg w v)) = [.writeWords t .holding (offset s.cfg w) [v]] := by
    rw [planOf, planWrReg_accepted t v hrange, planOps]
  have hops : (broadcastTargets s.cfg).flatMap (fun t => planOps (planOf s.cfg t (.wrReg w v))) =
      (broadcastTargets s.cfg).map fun t => .writeWords t .holding (offset s.cfg w) [v] := by
    simp only [hplan, ← List.map_eq_flatMap]
  have hinRange : ∀ op ∈ (broadcastTargets s.cfg).map fun t => .writeWords t .holding (offset s.cfg w) [v],
      opInRange s.cfg op = true := by
    intro op hop
    rw [← hops, List.mem_flatMap] at hop
    obtain ⟨t, ht, hop⟩ := hop
    exact planOf_inRange ((mem_broadcastTargets s.cfg t).mp ht) _ op hop
  have hoff : offset s.cfg w < 65536 := by
    have hcap := (configLegal_caps hlegal).2
    simp only [rangeOK, Bool.and_eq_true, decide_eq_true_eq] at hrange
    unfold offset
    omega
  obtain ⟨t, hrun, hout, hidle, hmem⟩ :=
    performAll_loadBroadcast (s := { s with req := none }) r 0x06 hok hreq.present hinRange
  refine ⟨_, t, ?_, by rwa [List.length_map] at hrun, silent_of_drop hout, newOutputs_append hout,
    fun h => hidle (h.imp_right (mt List.map_eq_nil_iff.mp)), fun a ha => ?_⟩
  · rw [exec_eq_execRequest, execRequest_broadcast hreq, hops]
    rfl
  · rw [hmem]
    exact readWord_writeEach v _ hwf hoff (.inl ((mem_broadcastTargets s.cfg a).mpr ha))

/-- Settles O16: a function code outside the map is no instruction, and rejecting a unicast request answers the
exception. -/
theorem unsupportedFunctionCodesGetException1 : Obligations.UnsupportedFunctionCodesGetException1 :=
  fun _ _ fc _ hreq hfc => ⟨_, decode_unsupported hfc, execRequest_reject hreq fc .illegalFunction⟩

/-- Settles O19: the step is the dispatcher's work on the PDU. -/
theorem stepRunsDecodedInstruction : Obligations.StepRunsDecodedInstruction := by
  intro s t pdu hfetch
  rw [step_of_fetch_request hfetch]
  obtain ⟨hrun, hreject⟩ := serve_runs pdu t
  exact ⟨fun i hi => hrun i (.inl hi), hreject⟩

/-- Settles O39: the plans of the reads check the quantity first. -/
theorem readsCheckQuantityThenRange : Obligations.ReadsCheckQuantityThenRange := by
  intro s r w n hreq
  refine ⟨fun hn => ⟨?_, ?_⟩, fun hlow hhigh hrange => ⟨?_, ?_⟩, fun hn => ⟨?_, ?_⟩,
    fun hlow hhigh hrange => ⟨?_, ?_⟩⟩
  · exact exec_rejected hreq (.rdCoils w n) (planRdBits_quantity _ _ _ w hn)
  · exact exec_rejected hreq (.rdDiscretes w n) (planRdBits_quantity _ _ _ w hn)
  · exact exec_rejected hreq (.rdCoils w n) (planRdBits_range _ .coils _ hlow hhigh hrange)
  · exact exec_rejected hreq (.rdDiscretes w n) (planRdBits_range _ .discretes _ hlow hhigh hrange)
  · exact exec_rejected hreq (.rdHolding w n) (planRdRegs_quantity _ _ _ w hn)
  · exact exec_rejected hreq (.rdInput w n) (planRdRegs_quantity _ _ _ w hn)
  · exact exec_rejected hreq (.rdHolding w n) (planRdRegs_range _ .holding _ hlow hhigh hrange)
  · exact exec_rejected hreq (.rdInput w n) (planRdRegs_range _ .input _ hlow hhigh hrange)

/-- Settles O40: the plans of the writes check values, quantities and byte counts first. -/
theorem writesCheckValueThenRange : Obligations.WritesCheckValueThenRange := by
  intro s r w n v bs ws hreq
  refine ⟨fun hon hoff => ?_, fun hv hrange => ?_, fun hrange => ?_, fun hn => ?_,
    fun hlow hhigh hcount hrange => ?_, fun hn => ?_, fun hlow hhigh hcount hrange => ?_⟩
  · exact exec_rejected hreq (.wrCoil w v) (planWrCoil_value _ w hon hoff)
  · exact exec_rejected hreq (.wrCoil w v) (planWrCoil_range _ hv hrange)
  · exact exec_rejected hreq (.wrReg w v) (planWrReg_range _ v hrange)
  · exact exec_rejected hreq (.wrCoils w n bs) (planWrCoils_quantity _ w hn)
  · exact exec_rejected hreq (.wrCoils w n bs) (planWrCoils_range _ hlow hhigh hcount hrange)
  · exact exec_rejected hreq (.wrRegs w n ws) (planWrRegs_quantity _ w hn)
  · exact exec_rejected hreq (.wrRegs w n ws) (planWrRegs_range _ hlow hhigh hcount hrange)

/-- Settles O41: the plans of the file functions make every class-3 check first. -/
theorem fileFunctionsCheckEverySubRequest : Obligations.FileFunctionsCheckEverySubRequest := by
  intro s r rs ws hreq
  refine ⟨fun hbad => ?_, fun hne hvalid hresp hrange => ?_, fun hbad => ?_, fun _ hvalid hrange => ?_⟩
  · refine exec_rejected hreq (.rdFile rs) (planRdFile_value _ ?_)
    rcases hbad with hnil | ⟨u, hu, hbad⟩ | hlong
    · exact .inl hnil
    · exact .inr (.inl ⟨u, hu, mt readSubValid_iff.mp (by tauto)⟩)
    · exact .inr (.inr (by rwa [fileRespLen, List.map_map]))
  · refine exec_rejected hreq (.rdFile rs)
      (planRdFile_range _ hne (fun u hu => readSubValid_iff.mpr (hvalid u hu)) ?_ hrange)
    rwa [fileRespLen, List.map_map]
  · refine exec_rejected hreq (.wrFile ws) (planWrFile_value _ ?_)
    rcases hbad with hnil | ⟨u, hu, hbad⟩
    · exact .inl hnil
    · exact .inr ⟨u, hu, mt writeSubValid_iff.mp (by tauto)⟩
  · exact exec_rejected hreq (.wrFile ws)
      (planWrFile_range _ (fun u hu => writeSubValid_iff.mpr (hvalid u hu)) hrange)

end Sys2Proof.Proofs
end

section
/-! SUPPORT. Packing and unpacking (44_bit_access R205, R206): a packed byte is the number that its eight elements
spell in binary, so that each of its bits is an element. -/

namespace Sys2Proof.Machine

variable {b : List Bool} {j k n i : Nat}

/-- A sum of the powers of two at which `f` is set has the bits `f`. -/
theorem sum_twoPow_eq_ofBits (f : Nat → Bool) (n : Nat) :
    ((List.range n).map fun k => if f k then 2 ^ k else 0).sum = Nat.ofBits fun k : Fin n => f k := by
  induction n generalizing f with
  | zero => rfl
  | succ n ih =>
    have hdouble (k : Nat) : (if f (k + 1) then 2 ^ (k + 1) else 0) = 2 * if f (k + 1) then 2 ^ k else 0 := by
      split <;> omega
    have htail := ih fun k => f (k + 1)
    rw [List.range_succ_eq_map, List.map_cons, List.sum_cons, List.map_map, Nat.ofBits_succ, add_comm]
    simp only [Function.comp_def, Nat.succ_eq_add_one, hdouble, List.sum_map_mul_left, htail, Fin.val_succ,
      Fin.val_zero]
    cases f 0 <;> rfl

/-- Bit `k` of packed byte `j` is element `8j + k`, and 0 past the last one (R205). -/
theorem packByte_getLsbD (b : List Bool) (j : Nat) (hk : k < 8) :
    (packByte b j).getLsbD k = b.getD (8 * j + k) false := by
  rw [packByte, sum_twoPow_eq_ofBits fun k => b.getD (8 * j + k) false, BitVec.getLsbD_ofNat,
    Nat.testBit_ofBits_lt _ _ hk, decide_eq_true hk, Bool.true_and]

@[simp] theorem pack_length (b : List Bool) : (pack b).length = bytesOfBits b.length := by simp [pack]

theorem pack_getD (hj : j < bytesOfBits b.length) : (pack b).getD j 0 = packByte b j := by
  rw [List.getD_eq_getElem _ _ (by rwa [pack_length])]
  simp [pack]

@[simp] theorem unpack_length (y : List Byte) (n : Nat) : (unpack y n).length = n := by simp [unpack]

/-- Element `i` of unpacked bits is bit `i mod 8` of byte `i div 8` (R206). -/
theorem unpack_getD (y : List Byte) (hi : i < n) :
    (unpack y n).getD i false = (y.getD (i / 8) 0).getLsbD (i % 8) := by
  rw [List.getD_eq_getElem _ _ (by rwa [unpack_length])]
  simp [unpack]

/-- Unpacking gives packed bits back. -/
theorem unpack_pack (b : List Bool) : unpack (pack b) b.length = b := by
  refine List.ext_getElem (unpack_length ..) fun i hleft hi => ?_
  have hbyte : i / 8 < bytesOfBits b.length := by unfold bytesOfBits; omega
  rw [← List.getD_eq_getElem _ false hleft, unpack_getD _ hi, pack_getD hbyte,
    packByte_getLsbD b _ (Nat.mod_lt i (by decide)), Nat.div_add_mod, List.getD_eq_getElem _ _ hi]

end Sys2Proof.Machine
end

section
/-! SUPPORT. A unicast request whose plan is accepted (43_dispatch R183 to R185; 44_bit_access R200 to R203): it is
loaded, and a plan of one operation is answered after one execution step. -/

namespace Sys2Proof.Machine

open Sys2Proof.Safety

variable {s : State} {r : Request} {op : StorageOp} {finish : Finish}

/-! ### From loading to the answer -/

/-- What the execution register of a unicast request is loaded with (R183). -/
def loadedXq (r : Request) (fc : Byte) (ops : List StorageOp) (finish : Finish) : Xq :=
  ⟨r.addr, fc, r.ctx, ops, [], some finish⟩

/-- The state in which the dispatcher has loaded the execution register of a request's agent (R183). -/
def loaded (s : State) (r : Request) (x : Xq) : State :=
  ({ s with req := none } : State).setXq r.agent (some x)

@[simp] theorem loaded_cfg (s : State) (r : Request) (x : Xq) : (loaded s r x).cfg = s.cfg := State.setXq_cfg ..

@[simp] theorem loaded_mem (s : State) (r : Request) (x : Xq) : (loaded s r x).mem = s.mem := State.setXq_mem ..

@[simp] theorem deviceFails_loaded (s : State) (r : Request) (x : Xq) :
    deviceFails (loaded s r x) = deviceFails s := by simp [deviceFails, loaded]

theorem xqOf_loaded (x : Xq) (h : Unicast s r) : (loaded s r x).xqOf r.agent = some x :=
  xqOf_setXq_self _ (show Present s r.agent from h.present)

/-- A unicast request whose plan has operations is loaded with them (R183). -/
theorem exec_loads_of_plan {ops : List StorageOp} (h : Unicast s r) (i : Instr) (hne : ops ≠ [])
    (hplan : planOf s.cfg r.addr i = .exec ops finish) :
    exec i s = .next (loaded s r (loadedXq r (functionCode i) ops finish)) := by
  obtain ⟨o, os, rfl⟩ := List.exists_cons_of_ne_nil hne
  rw [exec_unicast h, hplan]
  rfl

/-- A loaded request completes in the state in which it is answered from the results of its operations (R185). -/
theorem completed_loaded (s : State) (r : Request) (fc : Byte) (ops : List StorageOp) (finish : Finish) :
    completed r.agent (loadedXq r fc ops finish) (loaded s r (loadedXq r fc ops finish)) =
      answered s r (memAfter s.cfg s.mem ops) (buildResponse (resultsOf s.cfg s.mem ops) finish) := by
  rw [completed, loaded_cfg, loaded_mem, loaded, State.setXq_setMem, answer_setXq, setXq_setXq]
  rfl

/-- A unicast request whose plan is one operation is answered in one execution step: from the result of the
operation, and in the storage after it. -/
theorem exec_answers_of_plan (h : Unicast s r) (hok : deviceFails s = false) (i : Instr)
    (hplan : planOf s.cfg r.addr i = .exec [op] finish) :
    ∃ u, exec i s = .next u ∧
      executeStep r.agent u = .next (answered s r (performOp s.cfg s.mem op).2
        (buildResponse [(performOp s.cfg s.mem op).1] finish)) := by
  have hr : opInRange s.cfg op = true := planOf_inRange h.registered i op (by simp [hplan, planOps])
  refine ⟨_, exec_loads_of_plan h i (List.cons_ne_nil op []) hplan, ?_⟩
  rw [executeStep_of_performs (xqOf_loaded _ h) rfl (by rwa [loaded_cfg]) (by simp [hok])]
  exact congrArg Host.Outcome.next (completed_loaded s r (functionCode i) [op] finish)

/-! ### The accepted plans of the bit functions -/

section Plans

variable {cfg : Config} {w n v : Word}

theorem planRdBits_accepted (t : Byte) (space : BitSpace) (fc : Byte) (hlow : 1 ≤ n.toNat)
    (hhigh : n.toNat ≤ qmaxRBits) (hrange : rangeOK (bitCap cfg space) (startRef cfg w) n.toNat = true) :
    planRdBits cfg t space fc w n =
      .exec [.readBits t space (offset cfg w) n.toNat] (.bits fc n.toNat) := by
  rw [planRdBits, if_neg (by omega), hrange]
  rfl

theorem planWrCoil_accepted (t : Byte) (hv : v = 0xFF00 ∨ v = 0x0000)
    (hrange : rangeOK cfg.coilCap (startRef cfg w) 1 = true) :
    planWrCoil cfg t w v =
      .exec [.writeBits t .coils (offset cfg w) [decide (v = 0xFF00)]]
        (.fixed (0x05 :: toBE16 w ++ toBE16 v)) := by
  rw [planWrCoil, if_neg (by tauto), bitCap, hrange]
  rfl

theorem planWrCoils_accepted (t : Byte) {values : List Byte} (hlow : 1 ≤ n.toNat) (hhigh : n.toNat ≤ qmaxWBits)
    (hcount : values.length = bytesOfBits n.toNat) (hrange : rangeOK cfg.coilCap (startRef cfg w) n.toNat = true) :
    planWrCoils cfg t w n values =
      .exec [.writeBits t .coils (offset cfg w) (unpack values n.toNat)]
        (.fixed (0x0F :: toBE16 w ++ toBE16 n)) := by
  rw [planWrCoils, if_neg (by omega), if_neg (not_not.mpr hcount), bitCap, hrange]
  rfl

end Plans

end Sys2Proof.Machine
end

section
/-! PROOF. The obligations of 44_bit_access.md. -/

namespace Sys2Proof.Proofs

open Sys2Proof.Machine Sys2Proof.Safety

/-- Settles O46: the plan is one read, and its result is packed into the response. -/
theorem bitReadsAnswerPackedElements : Obligations.BitReadsAnswerPackedElements :=
  fun _ _ w n hreq hok hlow hhigh hrange =>
    ⟨exec_answers_of_plan hreq hok (.rdCoils w n) (planRdBits_accepted _ .coils _ hlow hhigh hrange),
      exec_answers_of_plan hreq hok (.rdDiscretes w n) (planRdBits_accepted _ .discretes _ hlow hhigh hrange)⟩

/-- Settles O48: the plan is one write of one element. -/
theorem singleWritesSetOneElementAndEcho : Obligations.SingleWritesSetOneElementAndEcho := by
  intro s r w v hreq hok hwf
  refine ⟨fun hv hrange => ?_, fun hrange => ?_⟩
  · obtain ⟨u, hexec, hstep⟩ := exec_answers_of_plan hreq hok (.wrCoil w v) (planWrCoil_accepted _ hv hrange)
    exact ⟨u, _, hexec, hstep, readBit_writeBits r.addr .coils _ [decide (v = 0xFF00)] 0 hwf Nat.one_pos,
      writeBits_sameOutside r.addr .coils _ [decide (v = 0xFF00)] hwf⟩
  · obtain ⟨u, hexec, hstep⟩ := exec_answers_of_plan hreq hok (.wrReg w v) (planWrReg_accepted _ v hrange)
    exact ⟨u, _, hexec, hstep, readWord_writeWords r.addr .holding _ [v] 0 hwf Nat.one_pos,
      writeWords_sameOutside r.addr .holding _ [v] hwf⟩

/-- Settles O49: the plan is one write of the unpacked values. -/
theorem writeCoilsSetsPackedValues : Obligations.WriteCoilsSetsPackedValues := by
  intro s r w n values hreq hok hwf hlow hhigh hcount hrange
  obtain ⟨u, hexec, hstep⟩ :=
    exec_answers_of_plan hreq hok (.wrCoils w n values) (planWrCoils_accepted _ hlow hhigh hcount hrange)
  refine ⟨u, _, hexec, hstep, fun i hi => ?_, ?_⟩
  · rw [← unpack_getD values hi]
    exact readBit_writeBits r.addr .coils _ _ i hwf (by rwa [unpack_length])
  · have hframe := writeBits_sameOutside (cfg := s.cfg) r.addr .coils (offset s.cfg w) (unpack values n.toNat) hwf
    rwa [unpack_length] at hframe

/-- Settles O57: each bit of a packed byte is its element, and unpacking reads the bits in the same order. -/
theorem packingPutsElementsInOrder : Obligations.PackingPutsElementsInOrder := by
  intro b y n
  refine ⟨pack_length b, fun j k hj hk => ?_, unpack_length y n, fun i hi => unpack_getD y hi, unpack_pack b⟩
  rw [pack_getD hj, packByte_getLsbD b j hk]

end Sys2Proof.Proofs
end

section
/-! SUPPORT. The accepted plans of the register functions (45_register_access R225, R226, R228). -/

namespace Sys2Proof.Machine

variable {cfg : Config} {w n : Word}

theorem planRdRegs_accepted (t : Byte) (space : WordSpace) (fc : Byte) (hlow : 1 ≤ n.toNat)
    (hhigh : n.toNat ≤ qmaxRRegs) (hrange : rangeOK (wordCap cfg space) (startRef cfg w) n.toNat = true) :
    planRdRegs cfg t space fc w n =
      .exec [.readWords t space (offset cfg w) n.toNat] (.regs fc n.toNat) := by
  rw [planRdRegs, if_neg (by omega), hrange]
  rfl

theorem planWrRegs_accepted (t : Byte) {values : List Word} (hlow : 1 ≤ n.toNat) (hhigh : n.toNat ≤ qmaxWRegs)
    (hcount : values.length = n.toNat) (hrange : rangeOK cfg.regCap (startRef cfg w) n.toNat = true) :
    planWrRegs cfg t w n values =
      .exec [.writeWords t .holding (offset cfg w) values] (.fixed (0x10 :: toBE16 w ++ toBE16 n)) := by
  rw [planWrRegs, if_neg (by omega), if_neg (by omega), wordCap, hrange]
  rfl

end Sys2Proof.Machine
end

section
/-! PROOF. The obligations of 45_register_access.md. -/

namespace Sys2Proof.Proofs

open Sys2Proof.Machine Sys2Proof.Safety

/-- Settles O47: the plan is one read, and the response holds its words, high byte first. -/
theorem registerReadsAnswerWords : Obligations.RegisterReadsAnswerWords :=
  fun _ _ w n hreq hok hlow hhigh hrange =>
    ⟨exec_answers_of_plan hreq hok (.rdHolding w n) (planRdRegs_accepted _ .holding _ hlow hhigh hrange),
      exec_answers_of_plan hreq hok (.rdInput w n) (planRdRegs_accepted _ .input _ hlow hhigh hrange)⟩

/-- Settles O50: the plan is one write of the values, which a read of the same range gives back. -/
theorem writeRegistersSetsValues : Obligations.WriteRegistersSetsValues := by
  intro s r w n values hreq hok hwf hlow hhigh hcount hrange
  obtain ⟨u, hexec, hstep⟩ :=
    exec_answers_of_plan hreq hok (.wrRegs w n values) (planWrRegs_accepted _ hlow hhigh hcount hrange)
  refine ⟨u, _, hexec, hstep, ?_, ?_⟩ <;> rw [← hcount]
  · exact readWords_writeWords .holding values hwf
  · exact writeWords_sameOutside r.addr .holding _ values hwf

end Sys2Proof.Proofs
end

section
/-! SUPPORT. The file functions (46_file_record R250, R251, R253): a request of several operations is answered after
as many execution steps, and what several reads and writes in order come to. -/

namespace Sys2Proof.Machine

open Sys2Proof.Safety

/-! ### Requests of several operations -/

/-- A unicast request whose plan has operations is answered after one execution step for each of them: from their
results, and in the storage after them (R183 to R185). -/
theorem performAll_answers_of_plan {s : State} {r : Request} {ops : List StorageOp} {finish : Finish}
    (h : Unicast s r) (hok : s.cfg.storageMayFail = false) (i : Instr) (hne : ops ≠ [])
    (hplan : planOf s.cfg r.addr i = .exec ops finish) :
    ∃ v, exec i s = .next v ∧
      performAll r.agent ops.length v = some (answered s r (memAfter s.cfg s.mem ops)
        (buildResponse (resultsOf s.cfg s.mem ops) finish)) := by
  have hr : ∀ op ∈ ops, opInRange s.cfg op = true :=
    fun op hop => planOf_inRange h.registered i op (by rwa [hplan, planOps])
  have hrun := performAll_completes (by rwa [loaded_cfg])
    (xqOf_loaded (loadedXq r (functionCode i) ops finish) h) hne (by rwa [loaded_cfg])
  rw [completed_loaded] at hrun
  exact ⟨_, exec_loads_of_plan h i hne hplan, hrun⟩

variable {cfg : Config}

/-- Operations that leave the storage as it is all see the same storage. -/
theorem memAfter_resultsOf_of_unchanged {m : Memory} {ops : List StorageOp}
    (h : ∀ op ∈ ops, (performOp cfg m op).2 = m) :
    memAfter cfg m ops = m ∧ resultsOf cfg m ops = ops.map fun op => (performOp cfg m op).1 := by
  induction ops with
  | nil => exact ⟨rfl, rfl⟩
  | cons op ops ih =>
    obtain ⟨hop, hrest⟩ := List.forall_mem_cons.mp h
    obtain ⟨hmem, hresults⟩ := ih hrest
    exact ⟨by rw [memAfter, List.foldl_cons, hop]; exact hmem, by rw [resultsOf, hop, hresults, List.map_cons]⟩

/-! ### The response of RD_FILE -/

/-- The parts of the response take the results in order, from number `pre.length` on (R250). -/
theorem fileParts_append (pre : List OpResult) (subs : List ReadSub) (words : ReadSub → List Word) :
    fileParts (pre ++ subs.map fun u => .words (words u)) pre.length (subs.map fun u => u.recordLen.toNat) =
      subs.flatMap fun u => countByte (1 + 2 * u.recordLen.toNat) :: 0x06 :: wordsToBytes (words u) := by
  induction subs generalizing pre with
  | nil => rfl
  | cons u subs ih =>
    have hrest := ih (pre ++ [.words (words u)])
    rw [List.append_assoc, List.singleton_append, List.length_append, List.length_singleton] at hrest
    rw [List.map_cons, List.map_cons, fileParts, hrest, rd, List.getD_append_right _ _ _ _ le_rfl, Nat.sub_self]
    rfl

/-- The response to the results of one read for each sub-request (R250). -/
theorem buildResponse_files (subs : List ReadSub) (words : ReadSub → List Word) :
    buildResponse (subs.map fun u => .words (words u)) (.files (subs.map fun u => u.recordLen.toNat)) =
      0x14 :: countByte (subs.map fun u => 2 + 2 * u.recordLen.toNat).sum ::
        subs.flatMap fun u => countByte (1 + 2 * u.recordLen.toNat) :: 0x06 :: wordsToBytes (words u) := by
  rw [← fileParts_append [] subs words, buildResponse, fileRespLen, List.map_map]
  rfl

/-! ### The accepted plans -/

theorem planRdFile_accepted (t : Byte) {subs : List ReadSub} (hne : subs ≠ [])
    (hvalid : ∀ u ∈ subs, readSubValid cfg u = true)
    (hresp : 2 + fileRespLen (subs.map fun u => u.recordLen.toNat) ≤ pduMax)
    (hrange : ∀ u ∈ subs, readSubInRange cfg u = true) :
    planRdFile cfg t subs =
      .exec (subs.map fun u => .readWords t .holding (offset cfg u.recordNo) u.recordLen.toNat)
        (.files (subs.map fun u => u.recordLen.toNat)) := by
  have hlen : 0 < subs.length := List.length_pos_iff.mpr hne
  rw [planRdFile, if_neg (by omega), List.all_eq_true.mpr hvalid, if_neg (by simp), if_neg (by omega),
    List.all_eq_true.mpr hrange]
  rfl

theorem planWrFile_accepted (t : Byte) {subs : List WriteSub} (hne : subs ≠ [])
    (hvalid : ∀ u ∈ subs, writeSubValid cfg u = true) (hrange : ∀ u ∈ subs, writeSubInRange cfg u = true) :
    planWrFile cfg t subs =
      .exec (subs.map fun u => .writeWords t .holding (offset cfg u.recordNo) u.data)
        (.fixed (encode (.wrFile subs))) := by
  obtain ⟨u, hu⟩ := List.exists_mem_of_ne_nil subs hne
  obtain ⟨-, -, hdata⟩ := writeSubValid_iff.mp (hvalid u hu)
  have hlen := le_size_sum hu hdata
  rw [planWrFile, if_neg (by omega), List.all_eq_true.mpr hvalid, if_neg (by simp), List.all_eq_true.mpr hrange]
  rfl

end Sys2Proof.Machine
end

section
/-! PROOF. The obligations of 46_file_record.md. -/

namespace Sys2Proof.Proofs

open Sys2Proof.Machine Sys2Proof.Safety

/-- Settles O51: the plan is one read for each sub-request; as reads leave the storage as it is, each part of the
response holds the words of the storage before the request. -/
theorem readFileAnswersEverySubRequest : Obligations.ReadFileAnswersEverySubRequest := by
  intro s r subs hreq hok hne hvalid hresp hrange
  have hplan := planRdFile_accepted r.addr hne (fun u hu => readSubValid_iff.mpr (hvalid u hu))
    (by rwa [fileRespLen, List.map_map]) hrange
  obtain ⟨v, hexec, hrun⟩ := performAll_answers_of_plan hreq hok (.rdFile subs) (by simpa using hne) hplan
  obtain ⟨hmem, hresults⟩ := memAfter_resultsOf_of_unchanged (cfg := s.cfg) (m := s.mem)
    (ops := subs.map fun u => .readWords r.addr .holding (offset s.cfg u.recordNo) u.recordLen.toNat)
    (List.forall_mem_map.mpr fun _ _ => rfl)
  rw [hmem, hresults, List.length_map, List.map_map] at hrun
  have hpdu := buildResponse_files subs
    fun u => readWords s.cfg s.mem r.addr .holding (offset s.cfg u.recordNo) u.recordLen.toNat
  exact ⟨v, hexec, hrun.trans (congrArg (fun pdu => some (answered s r s.mem pdu)) hpdu)⟩

/-- Settles O52: the plan is one write for each sub-request, and the response is the request. -/
theorem writeFileWritesEverySubRequestInOrder : Obligations.WriteFileWritesEverySubRequestInOrder := by
  intro s r subs hreq hok hne hvalid hrange
  have hplan := planWrFile_accepted r.addr hne (fun u hu => writeSubValid_iff.mpr (hvalid u hu)) hrange
  obtain ⟨v, hexec, hrun⟩ := performAll_answers_of_plan hreq hok (.wrFile subs) (by simpa using hne) hplan
  rw [List.length_map, memAfter, List.foldl_map] at hrun
  exact ⟨v, hexec, hrun⟩

end Sys2Proof.Proofs
end

section
/-! SUPPORT. The Status of a step (60_exceptions R312): a rule that consumes a master-activity timeout sets it to
TIMEOUT, and every other rule leaves the NONE with which the step begins. -/

namespace Sys2Proof.Machine

open Sys2Proof.Safety

variable {s t u : State} {a : Agent} {m : Move} {r : Request} {pdu : List Byte}

/-! ### Receivers -/

/-- The event is a master-activity timeout, of the serial port or of a session (R312). -/
@[simp] def Event.isActTimeout : Event → Bool
  | .actTimeout => true
  | .sessActTimeout _ => true
  | _ => false

/-- Receiving, where it has a step, leads to a state with the Status `st`. -/
@[simp] def Received.HasStatus (st : Status) : Received → Prop
  | .quiet t => t.status = st
  | .frame _ _ t => t.status = st
  | .refused _ => True

/-- The Status after an event is consumed (R312). -/
@[simp] def statusAfter (e : Event) (s : State) : Status := if e.isActTimeout then .timeout else s.status

theorem rtuFrameEnd_status (s : State) : (rtuFrameEnd s).HasStatus s.status := by
  unfold rtuFrameEnd
  split <;> simp

theorem rtuRxByte_status (b : Byte) (s : State) : (rtuRxByte b s).HasStatus s.status := by
  unfold rtuRxByte
  split
  · simp
  · split <;> simp
  · simp

theorem rtuT35_status (s : State) : (rtuT35 s).HasStatus s.status := by
  unfold rtuT35
  split
  · simp
  · exact rtuFrameEnd_status s
  · exact rtuFrameEnd_status s

theorem rtuReceive_status (e : Event) (s : State) : (rtuReceive e s).HasStatus (statusAfter e s) := by
  cases e with
  | rxByte b => exact rtuRxByte_status b s
  | t15 => simp [rtuReceive, rtuT15_eq]
  | t35 => exact rtuT35_status s
  | actTimeout => simp [rtuReceive, rtuActTimeout_eq]
  | _ => trivial

theorem ascBodyByte_status (c : Byte) (s : State) : (ascBodyByte c s).HasStatus s.status := by
  unfold ascBodyByte
  split
  · split <;> simp [ascDrop]
  · split
    · simp [ascDrop]
    · split <;> simp [ascDrop]

theorem ascFrameEnd_status (s : State) : (ascFrameEnd s).HasStatus s.status := by
  unfold ascFrameEnd
  split <;> simp

theorem ascRxByte_status (c : Byte) (s : State) : (ascRxByte c s).HasStatus s.status := by
  unfold ascRxByte
  split
  · split <;> simp
  · exact ascBodyByte_status c s
  · split
    · exact ascFrameEnd_status s
    · simp [ascDrop]

theorem ascReceive_status (e : Event) (s : State) : (ascReceive e s).HasStatus (statusAfter e s) := by
  cases e with
  | rxByte c => exact ascRxByte_status c s
  | t15 => rfl
  | t35 => rfl
  | actTimeout => simp [ascReceive, ascActTimeout_eq]
  | _ => trivial

theorem tcpAccept_status (s : State) : (tcpAccept s).HasStatus s.status := by
  unfold tcpAccept
  split <;> simp

theorem tcpRxByte_status (k : Nat) (x : Session) (b : Byte) (s : State) :
    (tcpRxByte k x b s).HasStatus s.status := by
  unfold tcpRxByte
  split
  · simp
  · simp [tcpClose]
  · simp

theorem onSession_status {st : Status} {f : Session → Received} (k : Nat) (s : State)
    (hf : ∀ x, (f x).HasStatus st) : (onSession k s f).HasStatus st := by
  unfold onSession
  split
  · exact hf _
  · trivial

theorem tcpReceive_status (e : Event) (s : State) : (tcpReceive e s).HasStatus (statusAfter e s) := by
  cases e with
  | accept => exact tcpAccept_status s
  | sessRxByte k b => exact onSession_status k s fun x => tcpRxByte_status k x b s
  | sessActTimeout k => exact onSession_status k s fun x => by simp [tcpActTimeout_eq]
  | idleTimeout k => exact onSession_status k s fun _ => by simp [tcpIdleTimeout]
  | peerClose k => exact onSession_status k s fun _ => by simp [tcpPeerClose]
  | _ => trivial

/-- Consuming an event sets the Status only where the event is a master-activity timeout. -/
theorem receive_status (e : Event) (s : State) : (receive e s).HasStatus (statusAfter e s) := by
  unfold receive
  split
  · exact rtuReceive_status e s
  · exact ascReceive_status e s
  · exact tcpReceive_status e s

/-! ### The work on a request -/

theorem executeStep_status (h : executeStep a s = .next t) : t.status = s.status := by
  obtain ⟨_, _, _, _, -, rfl, -, -⟩ := executeStep_updates h
  simp

theorem serve_status (hpdu : pdu ≠ []) (ha : addressFilter u.cfg r.addr = none)
    (h : serve pdu { u with req := some r } = .next t) : t.status = u.status := by
  rcases serve_updates hpdu ha h with ⟨_, rfl⟩ | ⟨_, -, rfl⟩
  · rfl
  · simp

/-! ### Steps -/

/-- The move consumes a master-activity timeout. -/
@[simp] def Move.consumesActTimeout : Move → Bool
  | .perform _ => false
  | .consume e _ => e.isActTimeout

theorem Move.consumesActTimeout_iff : m.consumesActTimeout = true ↔
    ∃ rest, m = .consume .actTimeout rest ∨ ∃ k, m = .consume (.sessActTimeout k) rest := by
  cases m with
  | perform a => simp
  | consume e rest => cases e <;> simp

/-- The Status of a step in which an agent moves. -/
theorem step_status (hp : pick (moves s) (Config.schedule s.draws) = some m) (h : step s = .next t) :
    t.status = if m.consumesActTimeout then .timeout else .none := by
  rcases step_next_cases h with ⟨hp', -⟩ | ⟨a, hp', hs⟩ | ⟨e, rest, hp', hs⟩ <;>
    (rw [hp] at hp'; cases hp')
  · exact executeStep_status hs
  have hr := receive_status e (s.begin rest)
  rcases hs with hq | ⟨r, pdu, u, hf, hs⟩
  · rwa [hq] at hr
  have hu : t.status = u.status := by
    rcases hs with ⟨_, rfl⟩ | ⟨ha, hs⟩
    · rfl
    · exact serve_status (receive_frame hf).1 ha hs
  rw [hf] at hr
  exact hu.trans hr

end Sys2Proof.Machine
end

section
/-! SUPPORT. The identification functions (47_identification R275 to R279): what a list of the configuration gives a
key, and a plan that needs no storage operation. -/

namespace Sys2Proof.Machine

open Sys2Proof.Safety

variable {s : State} {r : Request}

/-- A key to which a list gives one value is looked up as that value. -/
theorem lookup_of_unique {α β : Type} [BEq α] [LawfulBEq α] {l : List (α × β)} {a : α} {b : β}
    (hmem : (a, b) ∈ l) (hunique : ∀ b', (a, b') ∈ l → b' = b) : l.lookup a = some b := by
  cases h : l.lookup a with
  | none => simpa using List.lookup_eq_none_iff.mp h _ hmem
  | some b' =>
    obtain ⟨before, after, rfl, -⟩ := List.lookup_eq_some_iff.mp h
    rw [hunique b' (by simp)]

/-- A key to which a list gives no value is not found. -/
theorem lookup_of_undefined {α β : Type} [BEq α] [LawfulBEq α] {l : List (α × β)} {a : α}
    (h : ∀ b, (a, b) ∉ l) : l.lookup a = none :=
  List.lookup_eq_none_iff.mpr fun p hp => bne_iff_ne.mpr fun he => h p.2 (he ▸ hp)

/-- A unicast request whose plan needs no operation is answered at once, and nothing else changes (R183). -/
theorem exec_answers_at_once {p : List Byte} (h : Unicast s r) (i : Instr)
    (hplan : planOf s.cfg r.addr i = .exec [] (.fixed p)) :
    exec i s = .next { s with
      req := none, out := s.out ++ [.tx r.agent (adu s.cfg.transport r p)] } := by
  rw [exec_unicast h, hplan]
  rfl

end Sys2Proof.Machine
end

section
/-! SUPPORT. The storage at reset (20_memory R48). -/

namespace Sys2Proof.Machine

/-- Every bit element of an empty memory is 0 (R48). -/
theorem readBit_nil (cfg : Config) (t : Byte) (space : BitSpace) (off : Nat) :
    readBit cfg [] t space off = false := by
  simp [readBit, memGet, unlisted]

/-- Every word element of an empty memory is 0 (R48). -/
theorem readWord_nil (cfg : Config) (t : Byte) (space : WordSpace) (off : Nat) :
    readWord cfg [] t space off = 0 := by
  simp [readWord, memGet, unlisted, be16]

end Sys2Proof.Machine
end

section
/-! PROOF. The obligations of 47_identification.md, 60_exceptions.md and 70_reset_and_hazards.md. -/

namespace Sys2Proof.Proofs

open Sys2Proof.Machine Sys2Proof.Safety

/-- Settles O53: the plans are responses with no operation, built from the values that the configuration gives. -/
theorem identificationAnswersFromConfiguration : Obligations.IdentificationAnswersFromConfiguration := by
  refine fun s r id hreq => ⟨fun b hmem hone => ?_, fun v hmem hone => ?_, fun v hmem hone => ?_, fun hno => ?_⟩ <;>
    refine exec_answers_at_once hreq _ ?_
  · rw [planOf, planExcStatus, excStatusOf, lookup_of_unique hmem hone, Option.getD_some]
  · rw [planOf, planSlaveId, slaveIdOf, lookup_of_unique hmem hone, Option.getD_some]
  · rw [planOf, planDevId, devIdOf, lookup_of_unique hmem hone, Option.getD_some]
  · rw [planOf, planDevId, devIdOf, lookup_of_undefined hno, Option.getD_none]
    rfl

/-- Settles O9: of all rules that a step is made of, those for the master-activity timeouts alone set the Status. -/
theorem timeoutStatusExactlyOnActivityTimeout : Obligations.TimeoutStatusExactlyOnActivityTimeout := by
  intro s t m _ hp hs
  rw [step_status hp hs, ← Move.consumesActTimeout_iff]
  cases m.consumesActTimeout <;> simp

/-- Settles O1: the machine is created with each part at its reset value, and an empty memory reads 0. -/
theorem resetLeavesReceiversIdleAndStorageZero : Obligations.ResetLeavesReceiversIdleAndStorageZero :=
  fun _ => ⟨rfl, rfl, rfl, rfl, rfl, rfl, readBit_nil _, readWord_nil _, rfl, rfl⟩

end Sys2Proof.Proofs
end
